-- ==== Sys2Proof/Word.lean ====
section
/-! DEFINITION. The word types of the FrameDecoder: an 8-bit stream byte (00_scope.md section 4: the input byte and the
checksum are 8 bits) and a 16-bit output value (distance and strength). Every value of the block is unsigned (R5). -/

namespace Sys2Proof

/-- One byte of the input stream (R1, R68). -/
abbrev Byte := BitVec 8

/-- A distance or a strength: 16 bits, unsigned (R29, R82). -/
abbrev Half := BitVec 16

end Sys2Proof
end

