-- ==== Sys2Proof/Machine/Gray.lean ====
section
/-! DEFINITION. The reflected binary code of the FIFO pointers (R159), on numbers below `2^w`. -/

namespace Sys2Proof.Machine

/-- `gray(n) = n XOR (n >> 1)` (R159). -/
def gray (n : Nat) : Nat := n ^^^ (n >>> 1)

/-- `bin(g)` on `w` bits, the inverse of `gray`: bit `i` is the XOR of the bits `g[w-1:i]` (R159), that is the XOR of
`g, g >> 1, ..., g >> (w-1)`. -/
def bin : Nat → Nat → Nat
  | 0, _ => 0
  | w + 1, g => g ^^^ bin w (g >>> 1)

end Sys2Proof.Machine
end

