-- ==== Sys2Proof/Config.lean ====
section
/-! DEFINITION. The build-time parameter record of R3: fixed when the block is built, never changed while it runs.
No value of the spec is left free for this block, so no opaque constant stands here (see notes/assumptions/1.md). -/

namespace Sys2Proof

/-- The range policy applied after the checksum (R131, R133); OPEN in the spec, no default (D7). -/
inductive Policy where
  /-- Suppress a distance outside the open interval `(REJ_LO, REJ_HI)` (R131). -/
  | reject
  /-- Cap the distance at `CLAMP_CEIL` and always emit (R133). -/
  | clamp
  deriving DecidableEq, Repr

/-- Whether the input crosses a clock domain (R32, R33); OPEN in the spec, no default (D14). -/
inductive CdcMode where
  /-- `CDC_MODE = NONE`: the producer is synchronous to `clk` (R42). -/
  | none
  /-- `CDC_MODE = ASYNC_FIFO`: the dual-clock FIFO of 42_cdc_fifo.md feeds the core. -/
  | asyncFifo
  deriving DecidableEq, Repr

/-- The parameter record of R3. -/
structure Config where
  /-- `HEADER`: the byte that must appear twice in a row. -/
  header : Byte
  /-- `POLICY`. -/
  policy : Policy
  /-- `REJ_LO`, exclusive. -/
  rejLo : Half
  /-- `REJ_HI`, exclusive. -/
  rejHi : Half
  /-- `CLAMP_CEIL`. -/
  clampCeil : Half
  /-- `CDC_MODE`. -/
  cdcMode : CdcMode
  /-- `FIFO_AW`, written `A` in 42_cdc_fifo.md: the FIFO holds `2^A` bytes. -/
  fifoAw : Nat
  /-- `SYNC_STAGES`, written `N` in 42_cdc_fifo.md. -/
  syncStages : Nat
  deriving DecidableEq, Repr

/-- The record at the defaults of R3. `POLICY` and `CDC_MODE` have no default: `REJECT` and `NONE` here are a
DESIGN CHOICE (notes/assumptions/2.md), used only by `State.reset` and the tests; claims quantify over the record. -/
def Config.default : Config :=
  { header := 0x59, policy := .reject, rejLo := 0, rejHi := 1200, clampCeil := 70, cdcMode := .none,
    fifoAw := 4, syncStages := 2 }

/-- The bounds R3 puts on the FIFO parameters: `FIFO_AW >= 2` and `SYNC_STAGES >= 2`. -/
def Config.wf (c : Config) : Bool := decide (2 ≤ c.fifoAw) && decide (2 ≤ c.syncStages)

/-- `FIFO_DEPTH = 2^FIFO_AW` (R3). -/
def Config.depth (c : Config) : Nat := 2 ^ c.fifoAw

/-- The width `A + 1` of every FIFO pointer (R150). -/
def Config.ptrWidth (c : Config) : Nat := c.fifoAw + 1

/-- The modulus `2^(A+1)` of the pointer arithmetic (42_cdc_fifo.md introduction). -/
def Config.ptrMod (c : Config) : Nat := 2 ^ (c.fifoAw + 1)

end Sys2Proof
end

