-- ==== Sys2Proof/Machine/State.lean ====
section
/-! DEFINITION. The state of the block and its reset values. Registers of the core: R23 to R26; output registers: R29 to
R31; FIFO registers: R150; reset values: R46, R151. The list of coming clock edges, one bookkeeping bit and the record of resets are the
MODEL's own (notes/assumptions/5.md, 6.md). -/

namespace Sys2Proof.Machine

/-- The state register `st` (R23): 2 bits, all four values legal. -/
inductive St where
  /-- `0b00`: searching for the first header byte. -/
  | hunt
  /-- `0b01`: the first header byte was accepted. -/
  | hdr2
  /-- `0b10`: both header bytes were accepted. -/
  | body
  /-- `0b11`: all eight summed bytes were accepted. -/
  | csum
  deriving DecidableEq, Repr

/-- The event code register `ev` (R31, R181): 2 bits. -/
inductive Ev where
  /-- `0b00`: no event. -/
  | none
  /-- `0b01`: a first header byte was followed by another byte (R104). -/
  | syncFail
  /-- `0b10`: the checksum byte differed from the sum (R134). -/
  | csumErr
  /-- `0b11`: `POLICY = REJECT` suppressed a reading (R131). -/
  | rangeDrop
  deriving DecidableEq, Repr

/-- The payload registers `pl[0]` to `pl[3]` (R26), 8 bits each. -/
structure Payload where
  /-- `pl[0]`: distance, low byte. -/
  p0 : Byte
  /-- `pl[1]`: distance, high byte. -/
  p1 : Byte
  /-- `pl[2]`: strength, low byte. -/
  p2 : Byte
  /-- `pl[3]`: strength, high byte. -/
  p3 : Byte
  deriving DecidableEq, Repr

/-- The core state of R135: `st`, `idx`, `sum`, `pl[0..3]`. -/
structure Core where
  /-- `st` (R23). -/
  st : St
  /-- `idx` (R24): 3 bits; the values 6 and 7 are unreachable and defined (R123). -/
  idx : BitVec 3
  /-- `sum` (R25): the running checksum. -/
  sum : Byte
  /-- `pl[0..3]` (R26). -/
  pl : Payload
  deriving DecidableEq, Repr

/-- The output registers (R29 to R31). -/
structure Outputs where
  /-- `rd_valid` (R30): 1 for the one cycle after a reading is emitted. -/
  rdValid : Bool
  /-- `rd_distance` (R29). -/
  rdDistance : Half
  /-- `rd_strength` (R29). -/
  rdStrength : Half
  /-- `ev` (R31). -/
  ev : Ev
  deriving DecidableEq, Repr

/-- The FIFO storage `fifo_mem` (R150) as (slot, byte) pairs with rising slots. A slot not listed has no value: it reads
as nothing, and reading it is a fault (R151). -/
abbrev Memory := List Host.Cell

/-- The write-side registers of R150 (`wclk` domain). Pointers are `A+1` bits wide, `A` a parameter, so they are held as
numbers below `2^(A+1)`. -/
structure WriteSide where
  /-- `wptr`: binary write pointer. -/
  wptr : Nat
  /-- `wptr_g`: the Gray code of `wptr`. -/
  wptrG : Nat
  /-- `rq[1..N]`, first stage first: the chain that carries `rptr_g` into `wclk`. -/
  rq : List Nat
  /-- `wr_ovf` (R158): the sticky overflow flag. -/
  wrOvf : Bool
  deriving DecidableEq, Repr

/-- The read-side registers of R150 (`clk` domain). -/
structure ReadSide where
  /-- `rptr`: binary read pointer. -/
  rptr : Nat
  /-- `rptr_g`: the Gray code of `rptr`. -/
  rptrG : Nat
  /-- `wq[1..N]`, first stage first: the chain that carries `wptr_g` into `clk`. -/
  wq : List Nat
  deriving DecidableEq, Repr

/-- The core's input ports at one `clk` edge (R32). With `CDC_MODE = ASYNC_FIFO` only `rst` is a port of the block: the
other two become internal signals (R33, R156). -/
structure ClkIn where
  /-- `rst`. -/
  rst : Bool
  /-- `in_valid`. -/
  inValid : Bool
  /-- `in_data`. -/
  inData : Byte
  deriving DecidableEq, Repr

/-- The write-side input ports at one `wclk` edge (R33). -/
structure WclkIn where
  /-- `wrst`. -/
  wrst : Bool
  /-- `wr_valid`. -/
  wrValid : Bool
  /-- `wr_data`. -/
  wrData : Byte
  deriving DecidableEq, Repr

/-- One clock edge, with what the environment presents at it (R47). -/
inductive Edge where
  /-- A rising edge of `clk`. -/
  | clk (c : ClkIn)
  /-- A rising edge of `wclk`. -/
  | wclk (w : WclkIn)
  /-- Rising edges of both clocks at the same instant. Each synchronizer's first stage then samples its source as it was
  before (`false`) or after (`true`) the edge: `rNew` for `wq[1]`, `wNew` for `rq[1]` (R154, R165). -/
  | both (c : ClkIn) (w : WclkIn) (rNew wNew : Bool)
  deriving DecidableEq, Repr

/-- The MODEL's own: what is known of the latest reset interval of each side, whether the two overlapped (R201;
notes/assumptions/6.md). -/
inductive Meeting where
  /-- Nothing shows that they overlapped. -/
  | apart
  /-- Not yet, but `rst` was 1 at a `clk` edge since the last `wclk` edge. -/
  | rstSince
  /-- Not yet, but `wrst` was 1 at a `wclk` edge since the last `clk` edge. -/
  | wrstSince
  /-- They overlapped. -/
  | overlapped
  deriving DecidableEq, Repr

/-- The MODEL's own record of the resets seen so far, for R201 and R202 (DEDUCED, safe, notes/assumptions/6.md). -/
structure ResetLog where
  /-- The last `clk` edge had `rst = 1`. -/
  rstHeld : Bool
  /-- The last `wclk` edge had `wrst = 1`. -/
  wrstHeld : Bool
  /-- The `clk` edges of the latest reset interval of `rst`, counted up to `N + 1`. -/
  rstEdges : Nat
  /-- The `wclk` edges of the latest reset interval of `wrst`, counted up to `N + 1`. -/
  wrstEdges : Nat
  /-- Whether these two intervals overlapped. -/
  meeting : Meeting
  deriving DecidableEq, Repr

/-- The whole state of the block. -/
structure State where
  /-- The build-time parameter record of R3. No step writes it. Held in State because a step takes nothing else
  (DESIGN CHOICE, safe, notes/assumptions/8.md). -/
  cfg : Config
  /-- The MODEL's own: the clock edges still to come with the environment's inputs, first one first (R47, R93;
  DESIGN CHOICE, safe, notes/assumptions/5.md). -/
  inputs : List Edge
  /-- The core registers. -/
  core : Core
  /-- The output registers. -/
  out : Outputs
  /-- `fifo_mem`. -/
  mem : Memory
  /-- The FIFO's write-side registers. -/
  wr : WriteSide
  /-- The FIFO's read-side registers. -/
  rd : ReadSide
  /-- The MODEL's own: both sides of the FIFO have been reset together, and no one-sided reset has broken it since (R201,
  R202; DEDUCED, safe, notes/assumptions/6.md). -/
  agree : Bool
  /-- The MODEL's own: the resets seen so far (R201; notes/assumptions/6.md). -/
  resets : ResetLog
  deriving DecidableEq, Repr

/-- Why the machine stops with a fault. The block itself has none (R180). -/
inductive Fault where
  /-- The core would take a FIFO slot that no WPUSH has written since the write side's reset (R151, I7 of
  93_implementation_defined.md: a fault of the model, never a value). Raised by the read port at a `clk` edge. Safe. -/
  | unwrittenSlot
  deriving DecidableEq, Repr

/-- Why the machine refuses to go on. -/
inductive Refusal where
  /-- An operation that has no meaning yet; raised by `exec` alone. Safe. -/
  | notModelled (mnemonic : String)
  /-- A byte would be delivered after a one-sided FIFO reset and before the next joint reset: unspecified, the model
  makes no claim (R202, I8). Raised by the read port at a `clk` edge. Safe. -/
  | oneSidedReset
  /-- A `wclk` edge although `CDC_MODE = NONE`: a producer in another clock domain, outside the model (R42, I11). Raised
  when the edge's operations are selected. Safe. -/
  | asynchronousProducer
  deriving DecidableEq, Repr

/-- The core's reset values (R46); also `c0` of R135. -/
def Core.reset : Core := { st := .hunt, idx := 0, sum := 0x00, pl := ⟨0x00, 0x00, 0x00, 0x00⟩ }

/-- The output registers' reset values (R46). -/
def Outputs.reset : Outputs := { rdValid := false, rdDistance := 0x0000, rdStrength := 0x0000, ev := .none }

/-- The write side's reset values (R151), with `n` synchronizer stages. -/
def WriteSide.reset (n : Nat) : WriteSide :=
  { wptr := 0, wptrG := 0, rq := List.replicate n 0, wrOvf := false }

/-- The read side's reset values (R151), with `n` synchronizer stages. -/
def ReadSide.reset (n : Nat) : ReadSide := { rptr := 0, rptrG := 0, wq := List.replicate n 0 }

/-- The record after both resets were held for `n` edges together and not yet released. -/
def ResetLog.afterJoint (n : Nat) : ResetLog :=
  { rstHeld := true, wrstHeld := true, rstEdges := n, wrstEdges := n, meeting := .overlapped }

/-- The block right after reset (R200, R161, R162), built with the record `cfg`; `fifo_mem` holds nothing (R151). -/
def State.resetWith (cfg : Config) : State :=
  { cfg := cfg, inputs := [], core := Core.reset, out := Outputs.reset, mem := [],
    wr := WriteSide.reset cfg.syncStages, rd := ReadSide.reset cfg.syncStages, agree := true,
    resets := ResetLog.afterJoint (cfg.syncStages + 1) }

/-- The block right after reset, built with the default record. -/
def State.reset : State := State.resetWith Config.default

end Sys2Proof.Machine
end

