-- ==== Sys2Proof/Machine/Operands.lean ====
section
/-! DEFINITION. The operand forms of the block: the 8-bit sum (R5, R83), the 16-bit little-endian assembly of distance
and strength (R64, R82), the payload registers by index (R26), the codes of the state register (R23), and the ports of each side at a
clock edge (R32, R33). -/

namespace Sys2Proof.Machine

/-- `add8(a, b) = (a + b) mod 256` (00_scope.md section 5). -/
def add8 (a b : Byte) : Byte := a + b

/-- `{hi, lo} = lo + hi*256`, exact in 16 bits (R64, R82). -/
def littleEndian (lo hi : Byte) : Half := (hi ++ lo : BitVec (8 + 8))

/-- The code of a state in the `st` register (R23). -/
def St.code : St → BitVec 2
  | .hunt => 0b00
  | .hdr2 => 0b01
  | .body => 0b10
  | .csum => 0b11

/-- The state a code stands for (R23); all four codes are legal. -/
def St.ofCode (c : BitVec 2) : St :=
  if c = 0b00#2 then .hunt else if c = 0b01#2 then .hdr2 else if c = 0b10#2 then .body else .csum

/-- `pl[i]` (R26). -/
def Payload.get (p : Payload) (i : BitVec 2) : Byte :=
  if i = 0#2 then p.p0 else if i = 1#2 then p.p1 else if i = 2#2 then p.p2 else p.p3

/-- `pl[i] <- b` (R120). -/
def Payload.set (p : Payload) (i : BitVec 2) (b : Byte) : Payload :=
  if i = 0#2 then { p with p0 := b }
  else if i = 1#2 then { p with p1 := b }
  else if i = 2#2 then { p with p2 := b }
  else { p with p3 := b }

/-- `raw_distance = {pl[1], pl[0]}` (R82, R130). -/
def rawDistance (p : Payload) : Half := littleEndian p.p0 p.p1

/-- `raw_strength = {pl[3], pl[2]}` (R82, R130). -/
def rawStrength (p : Payload) : Half := littleEndian p.p2 p.p3

/-- The distance `CLAMP` emits: `min(raw_distance, CLAMP_CEIL)`, unsigned (R133). -/
def clampDistance (cfg : Config) (d : Half) : Half := if cfg.clampCeil ≤ d then cfg.clampCeil else d

/-- The core's input ports at this edge, if `clk` rises. -/
def Edge.clkPart : Edge → Option ClkIn
  | .clk c => some c
  | .wclk _ => none
  | .both c _ _ _ => some c

/-- The write side's input ports at this edge, if `wclk` rises. -/
def Edge.wclkPart : Edge → Option WclkIn
  | .clk _ => none
  | .wclk w => some w
  | .both _ w _ _ => some w

/-- `rst` at this edge, if `clk` rises. -/
def Edge.rstLevel (e : Edge) : Option Bool := e.clkPart.map ClkIn.rst

/-- `wrst` at this edge, if `wclk` rises. -/
def Edge.wrstLevel (e : Edge) : Option Bool := e.wclkPart.map WclkIn.wrst

end Sys2Proof.Machine
end

