-- ==== Sys2Proof/Machine/Flags.lean ====
section
/-! DEFINITION. Every condition and status signal of the block: the event codes (R181), acceptance (R40), the range test
(R131), and the FIFO's views, occupancy, full and not-empty signals (R150, R156, 42_cdc_fifo.md section 3). -/

namespace Sys2Proof.Machine

/-- The code of an event on the `ev` port (R181). -/
def Ev.code : Ev → BitVec 2
  | .none => 0b00
  | .syncFail => 0b01
  | .csumErr => 0b10
  | .rangeDrop => 0b11

/-- `acc = in_valid and not rst` (R40). -/
def ClkIn.acc (p : ClkIn) : Bool := p.inValid && !p.rst

/-- `REJ_LO < d and d < REJ_HI`, unsigned, both bounds exclusive (R131). -/
def inRange (cfg : Config) (d : Half) : Bool := decide (cfg.rejLo < d) && decide (d < cfg.rejHi)

/-- The slot of a pointer: its low `A` bits (R150). -/
def slotOf (cfg : Config) (p : Nat) : Nat := p % cfg.depth

/-- `p + 1` modulo `2^(A+1)`. -/
def ptrSucc (cfg : Config) (p : Nat) : Nat := (p + 1) % cfg.ptrMod

/-- `(b - a) mod 2^(A+1)`: how far `b` is ahead of `a`, for pointers below the modulus. -/
def ptrDist (cfg : Config) (a b : Nat) : Nat := (b + cfg.ptrMod - a) % cfg.ptrMod

/-- The last stage of a synchronizer chain. -/
def lastStage (q : List Nat) : Nat := q.getLastD 0

/-- `rview = bin(rq[N])`: the write side's view of the read pointer (R150). -/
def rview (s : State) : Nat := bin s.cfg.ptrWidth (lastStage s.wr.rq)

/-- `wview = bin(wq[N])`: the read side's view of the write pointer (R150). -/
def wview (s : State) : Nat := bin s.cfg.ptrWidth (lastStage s.rd.wq)

/-- `occ_w = (wptr - rview) mod 2^(A+1)` (42_cdc_fifo.md section 3). -/
def occW (s : State) : Nat := ptrDist s.cfg (rview s) s.wr.wptr

/-- `full_w = (occ_w = DEPTH)` (42_cdc_fifo.md section 3). -/
def fullW (s : State) : Bool := decide (occW s = s.cfg.depth)

/-- `wview != rptr`: not empty as the read side sees it (R156). -/
def notEmpty (s : State) : Bool := decide (wview s ≠ s.rd.rptr)

/-- Every stage of a chain is zero. -/
def allZero (q : List Nat) : Bool := q.all (fun g => g == 0)

/-- Both pointers, their Gray copies and every synchronizer stage are zero: what a joint reset establishes (R201). -/
def pointersZero (s : State) : Bool :=
  s.wr.wptr == 0 && s.wr.wptrG == 0 && allZero s.wr.rq && s.rd.rptr == 0 && s.rd.rptrG == 0 && allZero s.rd.wq

end Sys2Proof.Machine
end

