-- ==== Sys2Proof/Machine/Ops.lean ====
section
/-! DEFINITION. The named operations the meanings share: `MemRead` and `MemWrite` of the FIFO storage, the defaults of a
`clk` cycle, `emit` (R132), `event` (R181), the range policy, one shift of a synchronizer chain, and the reset of each
side. The block has no exception to take and none to return from (R180): no state is saved, there is no vector and no
handler. What takes that place is `event`, the one-cycle code on `ev`. -/

namespace Sys2Proof.Machine

/-- `MemRead(a, 1)`: the byte in slot `a`, nothing if no WPUSH has written it since the write side's reset (R151). -/
def Memory.read : Memory → Nat → Option Byte
  | [], _ => none
  | (k, v) :: m, a => if k = a then some v else Memory.read m a

/-- `MemWrite(a, 1, b)` (R152), keeping the slots rising. -/
def Memory.write : Memory → Nat → Byte → Memory
  | [], a, b => [(a, b)]
  | (k, v) :: m, a, b =>
    if a < k then (a, b) :: (k, v) :: m
    else if a = k then (a, b) :: m
    else (k, v) :: Memory.write m a b

/-- The canonical form of the storage: slots strictly rising, so that equal contents are equal lists. (An unlisted slot
has no value, so no listed entry can equal what an unlisted one reads as.) -/
abbrev Memory.wf (m : Memory) : Prop := (m.map Prod.fst).Pairwise (· < ·)

/-- The defaults of every `clk` cycle: `rd_valid <- 0`, `ev <- NONE` (R4, R30, R31). -/
def State.tick (s : State) : State := { s with out := { s.out with rdValid := false, ev := .none } }

/-- `emit(d, s)` (R132): `rd_valid <- 1`, `rd_distance <- d`, `rd_strength <- s`, all at one edge (R68). -/
def State.emit (s : State) (d str : Half) : State :=
  { s with out := { s.out with rdValid := true, rdDistance := d, rdStrength := str } }

/-- `event(c)` (R181): `ev <- c`. -/
def State.event (s : State) (c : Ev) : State := { s with out := { s.out with ev := c } }

/-- Write the core registers. -/
def State.setCore (s : State) (c : Core) : State := { s with core := c }

/-- The range policy over the decoded distance and strength (R130): REJECT of R131 or CLAMP of R133. -/
def State.applyPolicy (s : State) (d str : Half) : State :=
  match s.cfg.policy with
  | .reject => if inRange s.cfg d then s.emit d str else s.event .rangeDrop
  | .clamp => s.emit (clampDistance s.cfg d) str

/-- One shift of a synchronizer chain: `q[1] <- g`, `q[k] <- q[k-1]` (R154, R155). -/
def shiftIn (g : Nat) (q : List Nat) : List Nat := (g :: q).take q.length

/-- A reset edge of the read side (R162): its registers take the values of R151. -/
def State.resetRead (s : State) : State := { s with rd := ReadSide.reset s.cfg.syncStages }

/-- A reset edge of the write side (R161): its registers take the values of R151, and the storage's contents become
unspecified, so no slot has a value (R151; DEDUCED, safe, notes/assumptions/7.md). -/
def State.resetWrite (s : State) : State := { s with wr := WriteSide.reset s.cfg.syncStages, mem := [] }

end Sys2Proof.Machine
end

