-- ==== Sys2Proof/Machine/CdcFifo.lean ====
section
/-! DEFINITION. The FIFO operations (42_cdc_fifo.md): RPOP and RSYNC at `clk` edges, WPUSH, WDROP, WSYNC and WRESET at
`wclk` edges. They share their edge with others, so they write only their own registers. -/

namespace Sys2Proof.Machine

/-- `RPOP` (R160): `rptr <- rptr + 1`, `rptr_g <- gray(rptr + 1)`. The byte itself was read by the read port (R156). -/
def execRpop (_d : Byte) (s : State) : Host.Outcome State Fault Refusal :=
  .next { s with rd := { s.rd with rptr := ptrSucc s.cfg s.rd.rptr, rptrG := gray (ptrSucc s.cfg s.rd.rptr) } }

/-- `RSYNC` (R155): `wq[1] <- wptr_g`, `wq[k] <- wq[k-1]`. -/
def execRsync (_inValid : Bool) (_d : Byte) (s : State) : Host.Outcome State Fault Refusal :=
  .next { s with rd := { s.rd with wq := shiftIn s.wr.wptrG s.rd.wq } }

/-- `WPUSH` (R152): `fifo_mem[wptr[A-1:0]] <- wr_data`, `wptr <- wptr + 1`, `wptr_g <- gray(wptr + 1)`. -/
def execWpush (d : Byte) (s : State) : Host.Outcome State Fault Refusal :=
  .next { s with mem := Memory.write s.mem (slotOf s.cfg s.wr.wptr) d,
                 wr := { s.wr with wptr := ptrSucc s.cfg s.wr.wptr, wptrG := gray (ptrSucc s.cfg s.wr.wptr) } }

/-- `WDROP` (R153): `wr_ovf <- 1`; the byte is lost. -/
def execWdrop (_d : Byte) (s : State) : Host.Outcome State Fault Refusal :=
  .next { s with wr := { s.wr with wrOvf := true } }

/-- `WSYNC` (R154): `rq[1] <- rptr_g`, `rq[k] <- rq[k-1]`. -/
def execWsync (_wrValid _fullW : Bool) (_d : Byte) (s : State) : Host.Outcome State Fault Refusal :=
  .next { s with wr := { s.wr with rq := shiftIn s.rd.rptrG s.wr.rq } }

/-- `WRESET` (R161): the write-side registers take their values of R151. -/
def execWreset (_wrValid _fullW : Bool) (_d : Byte) (s : State) : Host.Outcome State Fault Refusal :=
  .next s.resetWrite

end Sys2Proof.Machine
end

