-- ==== Sys2Proof/Machine/FrameCheck.lean ====
section
/-! DEFINITION. The frame capture, checksum and range policy family (41_frame_check.md): CAPTURE, PAD, LAST,
LAST_UNREACHABLE, CHECK_OK, CHECK_BAD. Each meaning starts from the `clk` cycle's defaults (`State.tick`, R4). -/

namespace Sys2Proof.Machine

/-- `CAPTURE` (R120): `pl[idx] <- b`, `sum <- add8(sum, b)`, `idx <- idx + 1`; the index is the key's field
(DEDUCED, safe, notes/assumptions/12.md). -/
def execCapture (i : BitVec 2) (b : Byte) (s : State) : Host.Outcome State Fault Refusal :=
  .next (s.tick.setCore
    { s.core with pl := s.core.pl.set i b, sum := add8 s.core.sum b, idx := i.setWidth 3 + 1 })

/-- `PAD` (R121): `sum <- add8(sum, b)`, `idx <- 5`. -/
def execPad (b : Byte) (s : State) : Host.Outcome State Fault Refusal :=
  .next (s.tick.setCore { s.core with sum := add8 s.core.sum b, idx := 5 })

/-- `LAST` (R122): `sum <- add8(sum, b)`, `idx <- 0`, `st <- CSUM`. -/
def execLast (b : Byte) (s : State) : Host.Outcome State Fault Refusal :=
  .next (s.tick.setCore { s.core with sum := add8 s.core.sum b, idx := 0, st := .csum })

/-- `LAST_UNREACHABLE` (R123): exactly the effect of R122. -/
def execLastUnreachable (_i : BitVec 1) (b : Byte) (s : State) : Host.Outcome State Fault Refusal :=
  .next (s.tick.setCore { s.core with sum := add8 s.core.sum b, idx := 0, st := .csum })

/-- `CHECK_OK` (R130): apply the range policy to the decoded distance and strength, `st <- HUNT`. -/
def execCheckOk (_idx : BitVec 3) (_b : Byte) (s : State) : Host.Outcome State Fault Refusal :=
  .next ((s.tick.setCore { s.core with st := .hunt }).applyPolicy (rawDistance s.core.pl) (rawStrength s.core.pl))

/-- `CHECK_BAD` (R134): `event(CSUM_ERR)`, `st <- HUNT`; the outputs keep the previous reading. -/
def execCheckBad (_idx : BitVec 3) (_b : Byte) (s : State) : Host.Outcome State Fault Refusal :=
  .next ((s.tick.setCore { s.core with st := .hunt }).event .csumErr)

end Sys2Proof.Machine
end

