-- ==== Sys2Proof/Machine/Reset.lean ====
section
/-! DEFINITION. RESET (70_reset_and_hazards.md): a `clk` edge with `rst = 1`. -/

namespace Sys2Proof.Machine

/-- `RESET` (R200): every core and output register takes its value of R46; with `CDC_MODE = ASYNC_FIFO` the read side is
reset too (R162). The other port bits are not read, and a byte presented is lost. -/
def execReset (_inValid : Bool) (_d : Byte) (s : State) : Host.Outcome State Fault Refusal :=
  let t := { s with core := Core.reset, out := Outputs.reset }
  .next (match s.cfg.cdcMode with
         | .none => t
         | .asyncFifo => t.resetRead)

end Sys2Proof.Machine
end

