-- ==== Sys2Proof/Machine/Sync.lean ====
section
/-! DEFINITION. The header synchronization family (40_sync.md): IDLE, SYNC1, SKIP, SYNC2, DESYNC. Each meaning starts
from the `clk` cycle's defaults (`State.tick`, R4). None can fault (R180). -/

namespace Sys2Proof.Machine

/-- `IDLE` (R100): nothing but the defaults; `in_data` is not read. -/
def execIdle (_d : Byte) (s : State) : Host.Outcome State Fault Refusal :=
  .next s.tick

/-- `SYNC1` (R101): `st <- HDR2`, `sum <- b`. -/
def execSync1 (_idx : BitVec 3) (b : Byte) (s : State) : Host.Outcome State Fault Refusal :=
  .next (s.tick.setCore { s.core with st := .hdr2, sum := b })

/-- `SKIP` (R103): the byte is discarded. -/
def execSkip (_idx : BitVec 3) (_b : Byte) (s : State) : Host.Outcome State Fault Refusal :=
  .next s.tick

/-- `SYNC2` (R102): `st <- BODY`, `idx <- 0`, `sum <- add8(sum, b)`. -/
def execSync2 (_idx : BitVec 3) (b : Byte) (s : State) : Host.Outcome State Fault Refusal :=
  .next (s.tick.setCore { s.core with st := .body, idx := 0, sum := add8 s.core.sum b })

/-- `DESYNC` (R104): `st <- HUNT`, `event(SYNC_FAIL)`; the byte is not tested again (R106). -/
def execDesync (_idx : BitVec 3) (_b : Byte) (s : State) : Host.Outcome State Fault Refusal :=
  .next ((s.tick.setCore { s.core with st := .hunt }).event .syncFail)

end Sys2Proof.Machine
end

