-- ==== Sys2Proof/Syntax.lean ====
section
/-! DEFINITION. The operations of the block: one constructor for each row of spec/opcode_table.json. The block has no
program (00_scope.md section 1); an operation is what one unit of the block does at one clock edge. The operands of a
constructor are the fields its encoding leaves open: of the 13-bit decode key (R85), of the core port word
`{rst, in_valid, in_data}`, or of the write port word `{wrst, wr_valid, full_w, wr_data}`. -/

namespace Sys2Proof

/-- One operation of the FrameDecoder; one constructor per row of spec/opcode_table.json. -/
inductive Instr where
  /-- `SYNC1` (R101): first header byte found. `idx` is key[10:8], not covered by the row's mask. -/
  | sync1 (idx : BitVec 3) (b : Byte)
  /-- `SKIP` (R103): a byte that cannot start a frame. -/
  | skip (idx : BitVec 3) (b : Byte)
  /-- `SYNC2` (R102): second header byte found. -/
  | sync2 (idx : BitVec 3) (b : Byte)
  /-- `DESYNC` (R104): the byte after a first header byte is no header byte. -/
  | desync (idx : BitVec 3) (b : Byte)
  /-- `CAPTURE` (R120): a distance or strength byte for `pl[i]`; `i` is key[9:8], key[10] is 0. -/
  | capture (i : BitVec 2) (b : Byte)
  /-- `PAD` (R121): payload byte 4, summed only. -/
  | pad (b : Byte)
  /-- `LAST` (R122): payload byte 5, the last summed byte. -/
  | last (b : Byte)
  /-- `LAST_UNREACHABLE` (R123): `BODY` with `idx` 6 or 7; `i` is key[8]. -/
  | lastUnreachable (i : BitVec 1) (b : Byte)
  /-- `CHECK_OK` (R130): the checksum byte equals `sum`. -/
  | checkOk (idx : BitVec 3) (b : Byte)
  /-- `CHECK_BAD` (R134): the checksum byte differs from `sum`. -/
  | checkBad (idx : BitVec 3) (b : Byte)
  /-- `IDLE` (R100): a `clk` edge with no accepted byte; `d` is `in_data`, which is not read. -/
  | idle (d : Byte)
  /-- `RESET` (R200, R162): a `clk` edge with `rst = 1`; the other port bits are not read. -/
  | reset (inValid : Bool) (d : Byte)
  /-- `RPOP` (R160): the FIFO's read pointer advances as the core takes the head byte `d`. -/
  | rpop (d : Byte)
  /-- `RSYNC` (R155): the write pointer moves one stage toward the read side. -/
  | rsync (inValid : Bool) (d : Byte)
  /-- `WPUSH` (R152): the byte `d` enters the FIFO. -/
  | wpush (d : Byte)
  /-- `WDROP` (R153): the byte `d` is lost because the write side sees the FIFO full. -/
  | wdrop (d : Byte)
  /-- `WSYNC` (R154): the read pointer moves one stage toward the write side. -/
  | wsync (wrValid fullW : Bool) (d : Byte)
  /-- `WRESET` (R161): a `wclk` edge with `wrst = 1`. -/
  | wreset (wrValid fullW : Bool) (d : Byte)
  deriving DecidableEq, Repr

end Sys2Proof
end

