-- ==== Sys2Proof/Machine/Dispatch.lean ====
section
/-! DEFINITION. One arm per operation: each a call of its meaning. -/

namespace Sys2Proof.Machine

def exec (i : Instr) (s : State) : Host.Outcome State Fault Refusal :=
  match i with
  | .sync1 idx b => Sys2Proof.Machine.execSync1 idx b s
  | .skip idx b => Sys2Proof.Machine.execSkip idx b s
  | .sync2 idx b => Sys2Proof.Machine.execSync2 idx b s
  | .desync idx b => Sys2Proof.Machine.execDesync idx b s
  | .capture k b => Sys2Proof.Machine.execCapture k b s
  | .pad b => Sys2Proof.Machine.execPad b s
  | .last b => Sys2Proof.Machine.execLast b s
  | .lastUnreachable k b => Sys2Proof.Machine.execLastUnreachable k b s
  | .checkOk idx b => Sys2Proof.Machine.execCheckOk idx b s
  | .checkBad idx b => Sys2Proof.Machine.execCheckBad idx b s
  | .idle d => Sys2Proof.Machine.execIdle d s
  | .reset v d => Sys2Proof.Machine.execReset v d s
  | .rpop d => Sys2Proof.Machine.execRpop d s
  | .rsync v d => Sys2Proof.Machine.execRsync v d s
  | .wpush d => Sys2Proof.Machine.execWpush d s
  | .wdrop d => Sys2Proof.Machine.execWdrop d s
  | .wsync v f d => Sys2Proof.Machine.execWsync v f d s
  | .wreset v f d => Sys2Proof.Machine.execWreset v f d s

end Sys2Proof.Machine
end

