-- ==== Sys2Proof/Decode.lean ====
section
/-! DEFINITION. Decoding and encoding. The spec gives three encodings (30_encoding.md section 3, opcode_table.json):
the 13-bit decode key `{st, idx, b}` of the core (R85), the 10-bit core port word `{rst, in_valid, in_data}`, and the
11-bit write port word `{wrst, wr_valid, full_w, wr_data}`. At one clock edge several units of the block each look at
the same port word (an RPOP, an RSYNC and the core's own operation share an edge), so a word alone does not say which
unit reads it. An EVENT WORD of the model is the spec's word with the reading unit's number in bits 15 to 13
(DESIGN CHOICE, notes/assumptions/3.md); unit 0 is the key, so a key row of the table is its own event word. -/

namespace Sys2Proof

/-- Why the decoder refuses an event word. -/
inductive Reject where
  /-- Bits 15 to 13 name no unit of the block (6 and 7). -/
  | unknownUnit
  /-- A bit above the format's width is set. -/
  | strayBits
  /-- The unit does nothing at an edge with these port signals: no row of the table for this unit matches. -/
  | notSelected
  /-- The unit exists only with `CDC_MODE = ASYNC_FIFO` (R87). -/
  | fifoAbsent
  deriving DecidableEq, Repr

/-- An event word: the unit's number in bits 15 to 13, the spec's word below. -/
abbrev EventWord := BitVec 16

/-- The decode key `key[12:11] = st`, `key[10:8] = idx`, `key[7:0] = b` (R85). -/
def keyBits (st : BitVec 2) (idx : BitVec 3) (b : Byte) : BitVec 13 := (st ++ idx ++ b : BitVec (2 + 3 + 8))

/-- The core port word `{rst, in_valid, in_data}` (opcode_table.json, row IDLE). -/
def corePortBits (rst inValid : Bool) (d : Byte) : BitVec 10 :=
  (BitVec.ofBool rst ++ BitVec.ofBool inValid ++ d : BitVec (1 + 1 + 8))

/-- The write port word `{wrst, wr_valid, full_w, wr_data}` (opcode_table.json, row WPUSH). -/
def writePortBits (wrst wrValid fullW : Bool) (d : Byte) : BitVec 11 :=
  (BitVec.ofBool wrst ++ BitVec.ofBool wrValid ++ BitVec.ofBool fullW ++ d : BitVec (1 + 1 + 1 + 8))

/-- Event word of the core reading a decode key (unit 0). -/
def keyWord (key : BitVec 13) : EventWord := ((0 : BitVec 3) ++ key : BitVec (3 + 13))

/-- Event word of a unit reading the core port word. -/
def corePortWord (unit : BitVec 3) (p : BitVec 10) : EventWord :=
  (unit ++ (0 : BitVec 3) ++ p : BitVec (3 + 3 + 10))

/-- Event word of a unit reading the write port word. -/
def writePortWord (unit : BitVec 3) (p : BitVec 11) : EventWord :=
  (unit ++ (0 : BitVec 2) ++ p : BitVec (3 + 2 + 11))

/-- Unit 1: the core, at an edge with no accepted byte (IDLE, RESET). -/
def coreUnit : BitVec 3 := 1
/-- Unit 2: the FIFO's read pointer (RPOP). -/
def popUnit : BitVec 3 := 2
/-- Unit 3: the synchronizer into `clk` (RSYNC). -/
def readSyncUnit : BitVec 3 := 3
/-- Unit 4: the FIFO's write port and pointer (WPUSH, WDROP, WRESET). -/
def writeUnit : BitVec 3 := 4
/-- Unit 5: the synchronizer into `wclk` (WSYNC). -/
def writeSyncUnit : BitVec 3 := 5

/-- The operation a decode key selects (R86), by its fields. `header` is the parameter `HEADER`, `sum` the register the
last two rows compare the byte with. Total: every key selects exactly one operation (R86, R88). -/
def decodeKey (header sum : Byte) (key : BitVec 13) : Instr :=
  let st : BitVec 2 := key.extractLsb' 11 2
  let idx : BitVec 3 := key.extractLsb' 8 3
  let b : Byte := key.extractLsb' 0 8
  if st = 0b00#2 then
    if b = header then .sync1 idx b else .skip idx b
  else if st = 0b01#2 then
    if b = header then .sync2 idx b else .desync idx b
  else if st = 0b10#2 then
    if key.extractLsb' 10 1 = 0#1 then .capture (key.extractLsb' 8 2) b
    else if idx = 4#3 then .pad b
    else if idx = 5#3 then .last b
    else .lastUnreachable (key.extractLsb' 8 1) b
  else
    if b = sum then .checkOk idx b else .checkBad idx b

/-- What a unit does at a `clk` edge, from the core port word `{rst, in_valid, in_data}` (rows IDLE, RESET, RPOP, RSYNC).
The core with an accepted byte (`rst = 0`, `in_valid = 1`) is decoded by its key instead (R85). -/
def decodeCorePort (cfg : Config) (unit : BitVec 3) (p : BitVec 10) : Except Reject Instr :=
  let rst := p.getLsbD 9
  let inValid := p.getLsbD 8
  let d : Byte := p.extractLsb' 0 8
  if unit = coreUnit then
    if rst then .ok (.reset inValid d) else if inValid then .error .notSelected else .ok (.idle d)
  else if cfg.cdcMode ≠ .asyncFifo then .error .fifoAbsent
  else if unit = popUnit then
    if rst then .error .notSelected else if inValid then .ok (.rpop d) else .error .notSelected
  else
    if rst then .error .notSelected else .ok (.rsync inValid d)

/-- What a unit does at a `wclk` edge, from the write port word `{wrst, wr_valid, full_w, wr_data}` (rows WPUSH, WDROP,
WSYNC, WRESET). -/
def decodeWritePort (cfg : Config) (unit : BitVec 3) (p : BitVec 11) : Except Reject Instr :=
  let wrst := p.getLsbD 10
  let wrValid := p.getLsbD 9
  let fullW := p.getLsbD 8
  let d : Byte := p.extractLsb' 0 8
  if cfg.cdcMode ≠ .asyncFifo then .error .fifoAbsent
  else if unit = writeUnit then
    if wrst then .ok (.wreset wrValid fullW d)
    else if wrValid then (if fullW then .ok (.wdrop d) else .ok (.wpush d))
    else .error .notSelected
  else
    if wrst then .error .notSelected else .ok (.wsync wrValid fullW d)

/-- The operation an event word stands for. Total; a word that stands for none is rejected by name. `sum` is the
register of R25, read by the run-time conditions of rows 9 and 10 of R86. -/
def decode (cfg : Config) (sum : Byte) (w : EventWord) : Except Reject Instr :=
  let unit : BitVec 3 := w.extractLsb' 13 3
  if unit = 0#3 then .ok (decodeKey cfg.header sum (w.extractLsb' 0 13))
  else if unit = coreUnit ∨ unit = popUnit ∨ unit = readSyncUnit then
    if w.extractLsb' 10 3 = 0#3 then decodeCorePort cfg unit (w.extractLsb' 0 10) else .error .strayBits
  else if unit = writeUnit ∨ unit = writeSyncUnit then
    if w.extractLsb' 11 2 = 0#2 then decodeWritePort cfg unit (w.extractLsb' 0 11) else .error .strayBits
  else .error .unknownUnit

/-- `decode` with the reason of a rejection forgotten: a unit whose word is rejected does nothing at that edge. -/
def decode? (cfg : Config) (sum : Byte) (w : EventWord) : Option Instr :=
  match decode cfg sum w with
  | .ok i => some i
  | .error _ => none

/-- The event word of an operation, from the same rows of opcode_table.json: for the key rows the `match` bits with the
row's open fields filled in, for the port rows the `encoding` string with its open bits filled in. -/
def encode : Instr → EventWord
  | .sync1 idx b => keyWord (keyBits 0b00 idx b)
  | .skip idx b => keyWord (keyBits 0b00 idx b)
  | .sync2 idx b => keyWord (keyBits 0b01 idx b)
  | .desync idx b => keyWord (keyBits 0b01 idx b)
  | .capture i b => keyWord (keyBits 0b10 ((0#1 ++ i : BitVec (1 + 2))) b)
  | .pad b => keyWord (keyBits 0b10 4 b)
  | .last b => keyWord (keyBits 0b10 5 b)
  | .lastUnreachable i b => keyWord (keyBits 0b10 ((3#2 ++ i : BitVec (2 + 1))) b)
  | .checkOk idx b => keyWord (keyBits 0b11 idx b)
  | .checkBad idx b => keyWord (keyBits 0b11 idx b)
  | .idle d => corePortWord coreUnit (corePortBits false false d)
  | .reset v d => corePortWord coreUnit (corePortBits true v d)
  | .rpop d => corePortWord popUnit (corePortBits false true d)
  | .rsync v d => corePortWord readSyncUnit (corePortBits false v d)
  | .wpush d => writePortWord writeUnit (writePortBits false true false d)
  | .wdrop d => writePortWord writeUnit (writePortBits false true true d)
  | .wsync v f d => writePortWord writeSyncUnit (writePortBits false v f d)
  | .wreset v f d => writePortWord writeUnit (writePortBits true v f d)

/-- One row of the decode table of R86: it matches a key when `key &&& mask = pattern`, and its run-time condition on
the `sum` register (rows 9 and 10) holds. -/
structure KeyRow where
  /-- The row's `match` column. -/
  pattern : BitVec 13
  /-- The row's `mask` column. -/
  mask : BitVec 13
  /-- The row's `cond` column: none, `b = sum` (true) or `b != sum` (false). -/
  cond : Option Bool
  deriving DecidableEq, Repr

/-- The ten rows of R86 in their order, for a given `HEADER` (rows 1 and 3 carry it in their low byte). -/
def keyTable (header : Byte) : List KeyRow :=
  [ ⟨0x0000#13 ||| header.setWidth 13, 0x18FF, none⟩, ⟨0x0000, 0x1800, none⟩,
    ⟨0x0800#13 ||| header.setWidth 13, 0x18FF, none⟩, ⟨0x0800, 0x1800, none⟩,
    ⟨0x1000, 0x1C00, none⟩, ⟨0x1400, 0x1F00, none⟩, ⟨0x1500, 0x1F00, none⟩, ⟨0x1600, 0x1E00, none⟩,
    ⟨0x1800, 0x1800, some true⟩, ⟨0x1800, 0x1800, some false⟩ ]

/-- Does the row match the key, with the `sum` register at `sum`? -/
def KeyRow.hits (r : KeyRow) (sum : Byte) (key : BitVec 13) : Bool :=
  decide (key &&& r.mask = r.pattern) &&
    (match r.cond with
     | none => true
     | some eq => decide (key.extractLsb' 0 8 = sum) == eq)

/-- The number (1 to 10) of the first row of R86 that matches, 0 if none does. -/
def firstRow (header sum : Byte) (key : BitVec 13) : Nat :=
  match (keyTable header).findIdx? (fun r => r.hits sum key) with
  | some n => n + 1
  | none => 0

/-- The number of an operation's row in R86; 0 for the operations no key selects (R87). -/
def Instr.keyRow : Instr → Nat
  | .sync1 _ _ => 1
  | .skip _ _ => 2
  | .sync2 _ _ => 3
  | .desync _ _ => 4
  | .capture _ _ => 5
  | .pad _ => 6
  | .last _ => 7
  | .lastUnreachable _ _ => 8
  | .checkOk _ _ => 9
  | .checkBad _ _ => 10
  | .idle _ => 0
  | .reset _ _ => 0
  | .rpop _ => 0
  | .rsync _ _ => 0
  | .wpush _ => 0
  | .wdrop _ => 0
  | .wsync _ _ _ => 0
  | .wreset _ _ _ => 0

/-- The unit of the block that performs an operation: the unit number of its event word. -/
def Instr.unit : Instr → BitVec 3
  | .sync1 _ _ => 0
  | .skip _ _ => 0
  | .sync2 _ _ => 0
  | .desync _ _ => 0
  | .capture _ _ => 0
  | .pad _ => 0
  | .last _ => 0
  | .lastUnreachable _ _ => 0
  | .checkOk _ _ => 0
  | .checkBad _ _ => 0
  | .idle _ => coreUnit
  | .reset _ _ => coreUnit
  | .rpop _ => popUnit
  | .rsync _ _ => readSyncUnit
  | .wpush _ => writeUnit
  | .wdrop _ => writeUnit
  | .wsync _ _ _ => writeSyncUnit
  | .wreset _ _ _ => writeUnit

/-- The record opcode_table.json is written for: `HEADER = 0x59`, with the FIFO rows present. -/
def tableConfig : Config := { Config.default with cdcMode := .asyncFifo }

/-- The operation the decoder reads from an instruction word of the opcode table (bit 0 least significant): the word is
taken as an event word, so a decode key stands for itself, under the table's parameters and with the `sum` register at
its reset value `0x00` (R46), which decides between the two rows that share a key pattern (notes/assumptions/4.md). -/
def decodeTableWord (nbits w : Nat) : Option Instr :=
  if nbits ≤ 16 ∧ w < 2 ^ nbits then decode? tableConfig 0x00 (BitVec.ofNat 16 w) else none

end Sys2Proof
end

