-- ==== Sys2Proof/Machine/Fetch.lean ====
section
/-! DEFINITION. Which operations one clock edge selects: the port words are formed from the edge and the registers of the
cycle, and each unit of the block decodes its word (30_encoding.md section 3; 42_cdc_fifo.md sections 3 and 4). -/

namespace Sys2Proof.Machine

/-- `fifo_mem[rptr[A-1:0]]`, the byte at the FIFO's read port (R156). A slot without a value (R151) shows the bits `d` that
the environment put on the edge: the byte is then not accepted, and no operation reads it (I10; DESIGN CHOICE, safe,
notes/assumptions/13.md). -/
def headByte (s : State) (d : Byte) : Byte := (Memory.read s.mem (slotOf s.cfg s.rd.rptr)).getD d

/-- The core's input signals as the FIFO gives them in every `clk` cycle, with `rst = 1` too:
`in_valid = (wview != rptr)`, `in_data = fifo_mem[rptr[A-1:0]]` (R156). -/
def fifoPort (s : State) (c : ClkIn) : ClkIn := { c with inValid := notEmpty s, inData := headByte s c.inData }

/-- The core's input ports as the core sees them in this `clk` cycle: the block's ports with `CDC_MODE = NONE` (R32), the
FIFO's read port with `CDC_MODE = ASYNC_FIFO` (R156). A byte that would be accepted after a one-sided reset is refused
(R202), and one from an unwritten slot is a fault (R151); of a byte that is both the spec does not say which, and it is
refused here (DESIGN CHOICE, safe, notes/assumptions/22.md). -/
def readPort (s : State) (c : ClkIn) : Host.Outcome ClkIn Fault Refusal :=
  match s.cfg.cdcMode with
  | .none => .next c
  | .asyncFifo =>
    if (fifoPort s c).acc then
      if s.agree then
        if (Memory.read s.mem (slotOf s.cfg s.rd.rptr)).isSome then .next (fifoPort s c) else .fault .unwrittenSlot
      else .refused .oneSidedReset
    else .next (fifoPort s c)

/-- The core's event word of this cycle: its decode key when a byte is accepted (R85), else the port word. -/
def coreWord (s : State) (p : ClkIn) : EventWord :=
  if p.acc then keyWord (keyBits s.core.st.code s.core.idx p.inData)
  else corePortWord coreUnit (corePortBits p.rst p.inValid p.inData)

/-- The decoded operation of a unit in this cycle, as a list of at most one. -/
def opOf (s : State) (w : EventWord) : List Instr := (decode? s.cfg s.core.sum w).toList

/-- The core's and the read pointer's operations at a `clk` edge with the ports at `p` (R86, R87, R160). -/
def coreOps (s : State) (p : ClkIn) : List Instr :=
  opOf s (coreWord s p) ++ opOf s (corePortWord popUnit (corePortBits p.rst p.inValid p.inData))

/-- The read synchronizer's operation at a `clk` edge (R155). -/
def readSyncOps (s : State) (p : ClkIn) : List Instr :=
  opOf s (corePortWord readSyncUnit (corePortBits p.rst p.inValid p.inData))

/-- The write port word of this cycle, `full_w` as the write side sees it (42_cdc_fifo.md section 3). -/
def writePort (s : State) (w : WclkIn) : BitVec 11 := writePortBits w.wrst w.wrValid (fullW s) w.wrData

/-- The write pointer's operation at a `wclk` edge (R152, R153, R161). -/
def writeOps (s : State) (w : WclkIn) : List Instr := opOf s (writePortWord writeUnit (writePort s w))

/-- The write synchronizer's operation at a `wclk` edge (R154). -/
def writeSyncOps (s : State) (w : WclkIn) : List Instr := opOf s (writePortWord writeSyncUnit (writePort s w))

/-- Put one synchronizer's operation before the others (it samples the other side's pointer as it was) or after them (as
it has become); used for coincident edges only (R154, R165; DEDUCED, notes/assumptions/9.md). -/
def placeSync (new : Bool) (sync rest : List Instr) : List Instr := if new then rest ++ sync else sync ++ rest

/-- The operations of one clock edge, in an order in which running them one after the other is running them at once:
every condition is tested, and every port word formed, from the registers before the edge (R4; DEDUCED, safe,
notes/assumptions/11.md). A `wclk` edge without the FIFO is refused (R42; DEDUCED, safe, notes/assumptions/10.md). -/
def fetch (s : State) (e : Edge) : Host.Outcome (List Instr) Fault Refusal :=
  match e with
  | .clk c =>
    match readPort s c with
    | .next p => .next (coreOps s p ++ readSyncOps s p)
    | .fault r => .fault r
    | .refused r => .refused r
  | .wclk w =>
    match s.cfg.cdcMode with
    | .none => .refused .asynchronousProducer
    | .asyncFifo => .next (writeOps s w ++ writeSyncOps s w)
  | .both c w rNew wNew =>
    match s.cfg.cdcMode with
    | .none => .refused .asynchronousProducer
    | .asyncFifo =>
      match readPort s c with
      | .next p =>
        .next (placeSync rNew (readSyncOps s p) (placeSync wNew (writeSyncOps s w) (coreOps s p ++ writeOps s w)))
      | .fault r => .fault r
      | .refused r => .refused r

/-- Put an edge in front of the coming ones. -/
def State.pushEdge (s : State) (e : Edge) : State := { s with inputs := e :: s.inputs }

/-- Set the last stage of a synchronizer chain. -/
def setLastStage (q : List Nat) (g : Nat) : List Nat := q.dropLast ++ [g]

/-- Make the FIFO's read port show these signals: the head slot holds `d`, the FIFO looks empty or not, and is in
agreement if the byte is to be accepted. -/
def State.showHead (s : State) (rst valid : Bool) (d : Byte) : State :=
  { s with mem := Memory.write s.mem (slotOf s.cfg s.rd.rptr) d
           rd := { s.rd with
             wq := setLastStage s.rd.wq (gray (if valid then ptrSucc s.cfg s.rd.rptr else s.rd.rptr)) }
           agree := s.agree || (valid && !rst) }

/-- Line up a `clk` edge at which the core sees these input signals: on the ports, or from the FIFO. -/
def State.presentInput (s : State) (rst valid : Bool) (d : Byte) : State :=
  match s.cfg.cdcMode with
  | .none => s.pushEdge (.clk ⟨rst, valid, d⟩)
  | .asyncFifo => (s.showHead rst valid d).pushEdge (.clk ⟨rst, valid, d⟩)

/-- Build the block with the FIFO: the FIFO's operations do not exist without it (R87). -/
def State.withFifo (s : State) : State := { s with cfg := { s.cfg with cdcMode := .asyncFifo } }

/-- Make the write side see the FIFO full, or empty. -/
def State.showFull (s : State) (full : Bool) : State :=
  let r := if full then (s.wr.wptr + s.cfg.depth) % s.cfg.ptrMod else s.wr.wptr
  { s with wr := { s.wr with rq := setLastStage s.wr.rq (gray r) } }

/-- `s` arranged so that the next step runs the operation of the event word `w`: for a key, `st` and `idx` hold the key's
fields and the byte is presented at the next `clk` edge; for a port word, the next edge carries those port signals
(and the FIFO is present, and shows the occupancy the word names). -/
def State.placeWord (s : State) (nbits w : Nat) : State :=
  let v : EventWord := BitVec.ofNat 16 (w % 2 ^ nbits)
  let unit : BitVec 3 := v.extractLsb' 13 3
  let d : Byte := v.extractLsb' 0 8
  if unit = 0#3 then
    let c := { s.core with st := St.ofCode (v.extractLsb' 11 2), idx := v.extractLsb' 8 3 }
    (s.setCore c).presentInput false true d
  else if unit = coreUnit then s.presentInput (v.getLsbD 9) (v.getLsbD 8) d
  else if unit = popUnit ∨ unit = readSyncUnit then s.withFifo.presentInput (v.getLsbD 9) (v.getLsbD 8) d
  else if unit = writeUnit ∨ unit = writeSyncUnit then
    (s.withFifo.showFull (v.getLsbD 8)).pushEdge (.wclk ⟨v.getLsbD 10, v.getLsbD 9, d⟩)
  else s

end Sys2Proof.Machine
end

