-- ==== Sys2Proof/Machine/ResetLog.lean ====
section
/-! DEFINITION. The model's own record of resets: when both sides of the FIFO have been reset together (R201), and when a
reset of one side alone breaks their agreement (R202). It is kept edge by edge beside the operations, which write the
registers of the spec only (DEDUCED, safe, notes/assumptions/6.md). -/

namespace Sys2Proof.Machine

/-- The edges of a side's latest reset interval after an edge at which its reset has this level, if its clock rises: one
more while it goes on, one when it begins. -/
def countEdges (limit run : Nat) (held : Bool) : Option Bool → Nat
  | some true => min limit (if held then run + 1 else 1)
  | some false => run
  | none => run

/-- At an edge with these levels of `rst` and `wrst` it shows that the two latest reset intervals overlap: both resets are
1 at one instant, or one reset is 1 at two edges of its clock in a row and the other was 1 at an edge between them. -/
def ResetLog.meets (l : ResetLog) (rst wrst : Option Bool) : Bool :=
  (rst == some true && wrst == some true) ||
  (rst == some true && l.rstHeld && l.meeting == .wrstSince) ||
  (wrst == some true && l.wrstHeld && l.meeting == .rstSince)

/-- A reset interval of either side begins at this edge. -/
def ResetLog.begins (l : ResetLog) (rst wrst : Option Bool) : Bool :=
  (rst == some true && !l.rstHeld) || (wrst == some true && !l.wrstHeld)

/-- What is known after an edge that does not itself show an overlap. -/
def Meeting.pass (m : Meeting) : Option Bool → Option Bool → Meeting
  | some true, none => .rstSince
  | some false, none => if m = .rstSince then .rstSince else .apart
  | none, some true => .wrstSince
  | none, some false => if m = .wrstSince then .wrstSince else .apart
  | some _, some _ => .apart
  | none, none => m

/-- The record after an edge with these levels of `rst` and `wrst`, `limit` the number of edges a reset needs. -/
def ResetLog.next (l : ResetLog) (limit : Nat) (rst wrst : Option Bool) : ResetLog :=
  { rstHeld := rst.getD l.rstHeld
    wrstHeld := wrst.getD l.wrstHeld
    rstEdges := countEdges limit l.rstEdges l.rstHeld rst
    wrstEdges := countEdges limit l.wrstEdges l.wrstHeld wrst
    meeting :=
      if l.meets rst wrst || (l.meeting == .overlapped && !l.begins rst wrst) then .overlapped
      else l.meeting.pass rst wrst }

/-- A joint reset as R201 asks for it: the latest reset interval of each side was at least `limit` edges long, and the two
overlapped. -/
def ResetLog.joint (l : ResetLog) (limit : Nat) : Bool :=
  l.meeting == .overlapped && decide (limit ≤ l.rstEdges) && decide (limit ≤ l.wrstEdges)

/-- Does the edge `e`, which led from `s` to the registers of `t`, reset one side alone and break the FIFO (R202)? A reset
of the read side does if it begins while `wptr` is not zero; one of the write side if `rptr` is not zero, or if a pointer
or a stage of either chain is not zero after it. -/
def breaksAgreement (e : Edge) (s t : State) : Bool :=
  if e.rstLevel = some true ∧ e.wrstLevel = some true then false
  else if e.rstLevel = some true then !s.resets.rstHeld && s.wr.wptr != 0
  else if e.wrstLevel = some true then s.rd.rptr != 0 || !pointersZero t
  else false

/-- Bring the record up to date after the edge `e`, whose operations led from `s` to `t`. Without the FIFO there is nothing
to record. -/
def State.noteEdge (s : State) (e : Edge) (t : State) : State :=
  match s.cfg.cdcMode with
  | .none => t
  | .asyncFifo =>
    let l := s.resets.next (s.cfg.syncStages + 1) e.rstLevel e.wrstLevel
    { t with resets := l
             agree := l.joint (s.cfg.syncStages + 1) || (s.agree && !breaksAgreement e s t) }

end Sys2Proof.Machine
end

