-- ==== Sys2Proof/Machine/Execute.lean ====
section
/-! DEFINITION. Running the operations of one clock edge. -/

namespace Sys2Proof.Machine

/-- Run the operations of an edge one after the other, stopping at the first that does not answer a next state. -/
def execAll : List Instr → State → Host.Outcome State Fault Refusal
  | [], s => .next s
  | i :: is, s =>
    match exec i s with
    | .next t => execAll is t
    | .fault r => .fault r
    | .refused r => .refused r

/-- End the edge `e` that began in `s`: its operations have answered, and the model's record of resets follows. -/
def closeEdge (e : Edge) (s : State) : Host.Outcome State Fault Refusal → Host.Outcome State Fault Refusal
  | .next t => .next (s.noteEdge e t)
  | .fault r => .fault r
  | .refused r => .refused r

/-- One clock edge: select its operations from the registers before the edge, run them (R4), and record its resets. -/
def runEdge (e : Edge) (s : State) : Host.Outcome State Fault Refusal :=
  match fetch s e with
  | .next is => closeEdge e s (execAll is s)
  | .fault r => .fault r
  | .refused r => .refused r

end Sys2Proof.Machine
end

