-- ==== Sys2Proof/Machine/Step.lean ====
section
/-! DEFINITION. One step is one clock edge: the next of the edges the environment has lined up is taken and run. With
none lined up no clock edge comes, and every register holds its value (R190). -/

namespace Sys2Proof.Machine

/-- One step of the block. -/
def step (s : State) : Host.Outcome State Fault Refusal :=
  match s.inputs with
  | [] => .next s
  | e :: rest => runEdge e { s with inputs := rest }

/-- `s` with the instruction word `w` placed where the next step selects its operation. -/
def State.withFetchWord (s : State) (nbits w : Nat) : State := s.placeWord nbits w

end Sys2Proof.Machine
end

