-- ==== Sys2Proof/Machine/Frame.lean ====
section
/-! DEFINITION. The frame format: the nine bytes of a frame (R80), the checksum test (R83) and the encoding of a reading
as a frame (R84). -/

namespace Sys2Proof.Machine

/-- The sum modulo 256 of a list of bytes (R5). -/
def sumBytes (bs : List Byte) : Byte := bs.foldl add8 0x00

/-- `csum_ok(f)`: nine bytes whose first eight sum, modulo 256, to the ninth (R83). -/
def csumOk (f : List Byte) : Bool := decide (f.length = 9) && decide (sumBytes (f.take 8) = f.getD 8 0x00)

/-- The low byte of a 16-bit value. -/
def lowByte (v : Half) : Byte := v.extractLsb' 0 8

/-- The high byte of a 16-bit value. -/
def highByte (v : Half) : Byte := v.extractLsb' 8 8

/-- The first eight bytes of `FRAME(d, s, p4, p5)` (R84). -/
def frameHead (h : Byte) (d s : Half) (p4 p5 : Byte) : List Byte :=
  [h, h, lowByte d, highByte d, lowByte s, highByte s, p4, p5]

/-- `FRAME(d, s, p4, p5)` for the header byte `h` (R84). -/
def frame (h : Byte) (d s : Half) (p4 p5 : Byte) : List Byte :=
  frameHead h d s p4 p5 ++ [sumBytes (frameHead h d s p4 p5)]

/-- `BADFRAME(d, s, p4, p5)`: the checksum byte replaced by `(checksum + 1) mod 256` (R93). -/
def badFrame (h : Byte) (d s : Half) (p4 p5 : Byte) : List Byte :=
  frameHead h d s p4 p5 ++ [add8 (sumBytes (frameHead h d s p4 p5)) 0x01]

end Sys2Proof.Machine
end

