-- ==== Sys2Proof/Machine/Stream.lean ====
section
/-! DEFINITION. The reference stream function of R135, the software decoder it corresponds to (R105), and the history of
the current candidate frame that R27 speaks of. The machine's own meanings do not call these: that they agree is stated
in Certificates/Slice0/Obligations.lean. -/

namespace Sys2Proof.Machine

/-- A non-`NONE` output of R135. -/
inductive Out where
  /-- `READ(d, s)`. -/
  | read (d s : Half)
  /-- `EV(code)`. -/
  | ev (c : Ev)
  deriving DecidableEq, Repr

/-- `policy(cfg, d, s)` of R135. -/
def streamPolicy (cfg : Config) (d s : Half) : Out :=
  match cfg.policy with
  | .reject => if cfg.rejLo < d ∧ d < cfg.rejHi then .read d s else .ev .rangeDrop
  | .clamp => .read (if d ≤ cfg.clampCeil then d else cfg.clampCeil) s

/-- `step(cfg, c, b)` of R135; `none` is its `NONE`. -/
def streamStep (cfg : Config) (c : Core) (b : Byte) : Core × Option Out :=
  match c.st with
  | .hunt => if b = cfg.header then ({ c with st := .hdr2, sum := b }, none) else (c, none)
  | .hdr2 =>
    if b = cfg.header then ({ c with st := .body, idx := 0, sum := add8 c.sum b }, none)
    else ({ c with st := .hunt }, some (.ev .syncFail))
  | .body =>
    if c.idx < 4#3 then
      ({ c with pl := c.pl.set (c.idx.extractLsb' 0 2) b, idx := c.idx + 1, sum := add8 c.sum b }, none)
    else if c.idx = 4#3 then ({ c with idx := 5, sum := add8 c.sum b }, none)
    else ({ c with st := .csum, idx := 0, sum := add8 c.sum b }, none)
  | .csum =>
    if b = c.sum then
      ({ c with st := .hunt },
        some (streamPolicy cfg (littleEndian c.pl.p0 c.pl.p1) (littleEndian c.pl.p2 c.pl.p3)))
    else ({ c with st := .hunt }, some (.ev .csumErr))

/-- The core after a list of accepted bytes. -/
def streamCore (cfg : Config) : Core → List Byte → Core
  | c, [] => c
  | c, b :: bs => streamCore cfg (streamStep cfg c b).1 bs

/-- `decode_stream(cfg, c0, [b1, ..., bn])` of R135: the non-`NONE` outputs, in order. -/
def decodeStream (cfg : Config) : Core → List Byte → List Out
  | _, [] => []
  | c, b :: bs => (streamStep cfg c b).2.toList ++ decodeStream cfg (streamStep cfg c b).1 bs

/-- What the output registers show in one cycle, as an output of R135: a reading, an event, or nothing. -/
def outOf (o : Outputs) : Option Out :=
  if o.rdValid then some (.read o.rdDistance o.rdStrength) else if o.ev = .none then none else some (.ev o.ev)

/-- The readings among a list of outputs. -/
def readingsOf : List Out → List (Half × Half)
  | [] => []
  | .read d s :: os => (d, s) :: readingsOf os
  | .ev _ :: os => readingsOf os

/-- The reading one full software frame yields under a policy, if any (source section 4.1 steps 5 to 7 as quoted in R83,
R131 and R133). `f` is the frame's nine bytes. -/
def softwareFrame (cfg : Config) (f : List Byte) : List (Half × Half) :=
  let d := littleEndian (f.getD 2 0) (f.getD 3 0)
  let s := littleEndian (f.getD 4 0) (f.getD 5 0)
  if csumOk f then
    match cfg.policy with
    | .reject => if cfg.rejLo < d ∧ d < cfg.rejHi then [(d, s)] else []
    | .clamp => [(if cfg.clampCeil ≤ d then cfg.clampCeil else d, s)]
  else []

/-- The readings of repeated calls of the software FrameDecoder of R105 on a byte stream. A call consumes 1 byte (not a
header), 2 bytes (header, then another byte) or 9 bytes (a frame); a call that would read past the stream's end is not
made (R105 does not cover it). -/
def softwareReadings (cfg : Config) : List Byte → List (Half × Half)
  | [] => []
  | b0 :: r0 =>
    if b0 = cfg.header then
      match r0 with
      | [] => []
      | b1 :: r1 =>
        if b1 = cfg.header then
          match r1 with
          | b2 :: b3 :: b4 :: b5 :: b6 :: b7 :: b8 :: r8 =>
            softwareFrame cfg [b0, b1, b2, b3, b4, b5, b6, b7, b8] ++ softwareReadings cfg r8
          | _ => []
        else softwareReadings cfg r1
    else softwareReadings cfg r0

/-- The bytes `f[0], f[1], ...` of the current candidate frame after a list of accepted bytes (R27): empty in `HUNT`,
else one more byte than before. `f` is what was gathered so far, `c` the core. -/
def candidateFrame (cfg : Config) : Core → List Byte → List Byte → List Byte
  | _, f, [] => f
  | c, f, b :: bs =>
    let c' := (streamStep cfg c b).1
    candidateFrame cfg c' (if c'.st = .hunt then [] else f ++ [b]) bs

end Sys2Proof.Machine
end

