-- ==== Sys2Proof/Machine/Run.lean ====
section
/-! DEFINITION. Runs of the block: what the outside observes (R49), the outputs over a run, the bytes that enter and
leave the FIFO over a run (R157), and the stimulus statements of R93. -/

namespace Sys2Proof.Machine

/-- The edges at which `clk` rises. -/
def Edge.hasClk : Edge → Bool
  | .clk _ => true
  | .wclk _ => false
  | .both _ _ _ _ => true

/-- Every reset whose clock rises at this edge is asserted. -/
def Edge.allReset : Edge → Bool
  | .clk c => c.rst
  | .wclk w => w.wrst
  | .both c w _ _ => c.rst && w.wrst

/-- No reset is asserted at this edge. -/
def Edge.noReset : Edge → Bool
  | .clk c => !c.rst
  | .wclk w => !w.wrst
  | .both c w _ _ => !c.rst && !w.wrst

/-- The observation of R49: the output ports, `wr_ovf` among them when the FIFO is present. -/
structure Obs where
  /-- The core's output ports. -/
  out : Outputs
  /-- `wr_ovf`, a port only with `CDC_MODE = ASYNC_FIFO` (R33). -/
  wrOvf : Option Bool
  deriving DecidableEq, Repr

/-- What the outside sees of a state (R49). -/
def observe (s : State) : Obs :=
  { out := s.out, wrOvf := if s.cfg.cdcMode = .asyncFifo then some s.wr.wrOvf else none }

/-- The observations after each of the next `k` steps: one for each edge of either clock. R49 says "over cycles" and not
how the outputs of the `clk` domain and `wr_ovf` of the `wclk` domain form one sequence, nor whether a stopped clock adds to
it: an edge that leaves a clock's outputs alone shows them again, and so does a step with no edge lined up (DESIGN CHOICE,
safe, notes/assumptions/19.md). -/
def observeOver : Nat → State → List Obs
  | 0, _ => []
  | k + 1, s =>
    match step s with
    | .next t => observe t :: observeOver k t
    | .fault _ => []
    | .refused _ => []

/-- The outputs (readings and events) of the next `k` steps, one cycle's output after each `clk` edge (R135). -/
def outsOver : Nat → State → List Out
  | 0, _ => []
  | k + 1, s =>
    match step s with
    | .next t => (if (s.inputs.head?.map Edge.hasClk).getD false then (outOf t.out).toList else []) ++ outsOver k t
    | .fault _ => []
    | .refused _ => []

/-- One `clk` edge that presents the byte `b` (R93, `BYTE xx`). -/
def byteEdge (b : Byte) : Edge := .clk ⟨false, true, b⟩

/-- `clk` edges that present these bytes back to back (R93, `BYTES`). -/
def byteEdges (bs : List Byte) : List Edge := bs.map byteEdge

/-- The bytes the core accepts over a list of `clk` cycles (R40). -/
def acceptedBytes (cs : List ClkIn) : List Byte := (cs.filter ClkIn.acc).map ClkIn.inData

/-- The operations the next edge selects; none if there is no edge or it is stopped. -/
def nextOps (s : State) : List Instr :=
  match s.inputs with
  | [] => []
  | e :: _ =>
    match fetch s e with
    | .next is => is
    | .fault _ => []
    | .refused _ => []

/-- The byte a WPUSH writes. -/
def pushedByte : Instr → Option Byte
  | .wpush d => some d
  | _ => none

/-- The byte an RPOP delivers. -/
def poppedByte : Instr → Option Byte
  | .rpop d => some d
  | _ => none

/-- The bytes that `sel` picks from the operations of the next `k` steps, in order. -/
def bytesOver (sel : Instr → Option Byte) : Nat → State → List Byte
  | 0, _ => []
  | k + 1, s =>
    match step s with
    | .next t => (nextOps s).filterMap sel ++ bytesOver sel k t
    | .fault _ => []
    | .refused _ => []

/-- The bytes in the FIFO, oldest first: slots `rptr` to `wptr - 1` (R150, R164). -/
def queueOf (s : State) : List Byte :=
  (List.range (ptrDist s.cfg s.rd.rptr s.wr.wptr)).filterMap
    (fun k => Memory.read s.mem (slotOf s.cfg (s.rd.rptr + k)))

/-- A statement of a stimulus script (R93). -/
inductive Stimulus where
  /-- `RESET`: one `clk` cycle with `rst = 1`, `in_valid = 0`. -/
  | reset
  /-- `BYTE xx`. -/
  | byte (b : Byte)
  /-- `BYTES xx yy ...`. -/
  | bytes (bs : List Byte)
  /-- `IDLE n`. -/
  | idle (n : Nat)
  /-- `FRAME(d, s, p4, p5)`. -/
  | frame (d s : Half) (p4 p5 : Byte)
  /-- `BADFRAME(d, s, p4, p5)`. -/
  | badFrame (d s : Half) (p4 p5 : Byte)
  /-- `WBYTE xx`: one `wclk` cycle. -/
  | wbyte (b : Byte)
  deriving DecidableEq, Repr

/-- The edges one statement stands for, with the header byte `h` (R93). R93 gives no `in_data` for `RESET` and `IDLE n`;
the data bits are `0x00` here (I10; DESIGN CHOICE, safe, notes/assumptions/20.md). R93 gives no ratio of the two clocks
either (I14): `WBYTE` is one `wclk` edge with no `clk` edge in it, every other statement `clk` edges with no `wclk` edge in
them (DESIGN CHOICE, unsafe, notes/assumptions/21.md). -/
def Stimulus.edges (h : Byte) : Stimulus → List Edge
  | .reset => [.clk ⟨true, false, 0x00⟩]
  | .byte b => [byteEdge b]
  | .bytes bs => byteEdges bs
  | .idle n => List.replicate n (.clk ⟨false, false, 0x00⟩)
  | .frame d s p4 p5 => byteEdges (Sys2Proof.Machine.frame h d s p4 p5)
  | .badFrame d s p4 p5 => byteEdges (Sys2Proof.Machine.badFrame h d s p4 p5)
  | .wbyte b => [.wclk ⟨false, true, b⟩]

/-- The edges of a script (R93). -/
def scriptEdges (h : Byte) (p : List Stimulus) : List Edge := p.flatMap (Stimulus.edges h)

end Sys2Proof.Machine
end

