-- ==== Sys2Proof/Machine/Abstract.lean ====
section
/-! DEFINITION. The abstract FIFO model of R164, for a reader who does not model two clocks: a queue of bytes, each
side's view of the other's pointer, three kinds of step in any order, and the fairness of the views. The machine itself
runs the registers of R150; that its edges are runs of the abstract model, and the beginnings of fair behaviours of it,
is stated in Certificates/Slice0/Obligations.lean. -/

namespace Sys2Proof.Machine

/-- The abstract state of R164 with the core it feeds. -/
structure AbsFifo where
  /-- `Q`: the bytes written and not yet popped, oldest first. -/
  queue : List Byte
  /-- `wptr`. -/
  wptr : Nat
  /-- `rptr`. -/
  rptr : Nat
  /-- `rv`: the write side's view of `rptr`. -/
  rv : Nat
  /-- `wv`: the read side's view of `wptr`. -/
  wv : Nat
  /-- `wr_ovf`. -/
  ovf : Bool
  /-- The core. -/
  core : Core
  deriving DecidableEq, Repr

/-- Step (a) of R164: append the byte if `wptr - rv < DEPTH`, else drop it and set `wr_ovf`. -/
def AbsFifo.write (cfg : Config) (b : Byte) (a : AbsFifo) : AbsFifo :=
  if ptrDist cfg a.rv a.wptr < cfg.depth then { a with queue := a.queue ++ [b], wptr := ptrSucc cfg a.wptr }
  else { a with ovf := true }

/-- One step of R164, with the outputs it produces. -/
inductive AbsStep (cfg : Config) : AbsFifo → List Out → AbsFifo → Prop where
  /-- (a) A write step. -/
  | write (a : AbsFifo) (b : Byte) : AbsStep cfg a [] (a.write cfg b)
  /-- (b) A read step: if `rptr != wv`, the head of the queue is popped and fed to the core (R135). -/
  | read (a : AbsFifo) (b : Byte) (q : List Byte) (hne : a.rptr ≠ a.wv) (hq : a.queue = b :: q) :
      AbsStep cfg a (streamStep cfg a.core b).2.toList
        { a with queue := q, rptr := ptrSucc cfg a.rptr, core := (streamStep cfg a.core b).1 }
  /-- (c) A sync step: each view moves to any value between its current value and the pointer it follows. -/
  | sync (a : AbsFifo) (rv' wv' : Nat) (hr : rv' < cfg.ptrMod) (hw : wv' < cfg.ptrMod)
      (hrv : ptrDist cfg a.rv rv' ≤ ptrDist cfg a.rv a.rptr)
      (hwv : ptrDist cfg a.wv wv' ≤ ptrDist cfg a.wv a.wptr) :
      AbsStep cfg a [] { a with rv := rv', wv := wv' }

/-- Any number of steps of R164, with the outputs of all of them in order. -/
inductive AbsRun (cfg : Config) : AbsFifo → List Out → AbsFifo → Prop where
  /-- No step. -/
  | done (a : AbsFifo) : AbsRun cfg a [] a
  /-- One step, then more. -/
  | more (a b c : AbsFifo) (o p : List Out) (h : AbsStep cfg a o b) (r : AbsRun cfg b p c) : AbsRun cfg a (o ++ p) c

/-- An unending behaviour of the abstract model: the `n`-th step leads from `a n` to `a (n + 1)` with the outputs `o n`. A
sync step that moves no view is a step of R164 (c), so a behaviour may pause. -/
def AbsBehaves (cfg : Config) (a : Nat → AbsFifo) (o : Nat → List Out) : Prop := ∀ n, AbsStep cfg (a n) (o n) (a (n + 1))

/-- The fairness of R164: every view that lags behind the pointer it follows is eventually advanced. -/
def AbsFair (a : Nat → AbsFifo) : Prop :=
  ∀ n, ((a n).rv ≠ (a n).rptr → ∃ m, n < m ∧ (a m).rv ≠ (a n).rv) ∧
    ((a n).wv ≠ (a n).wptr → ∃ m, n < m ∧ (a m).wv ≠ (a n).wv)

/-- The abstract state a machine state stands for. -/
def AbsFifo.ofState (s : State) : AbsFifo :=
  { queue := queueOf s, wptr := s.wr.wptr, rptr := s.rd.rptr, rv := rview s, wv := wview s, ovf := s.wr.wrOvf,
    core := s.core }

end Sys2Proof.Machine
end

