-- ==== Sys2Proof/WellFormed.lean ====
section
/-! DEFINITION. When an operation is one the decode table can select: the conditions of R86 that its operands do not
already carry, and, for the FIFO operations, that the block is built with the FIFO (R87). -/

namespace Sys2Proof

/-- The operation's condition in R86 and R87, given the build-time record and the running sum the key is compared with:
the header test of rows 1 to 4, the sum test of rows 9 and 10, and the presence of the FIFO. -/
def Instr.wf (cfg : Config) (sum : Byte) : Instr → Bool
  | .sync1 _ b => decide (b = cfg.header)
  | .skip _ b => decide (b ≠ cfg.header)
  | .sync2 _ b => decide (b = cfg.header)
  | .desync _ b => decide (b ≠ cfg.header)
  | .capture _ _ => true
  | .pad _ => true
  | .last _ => true
  | .lastUnreachable _ _ => true
  | .checkOk _ b => decide (b = sum)
  | .checkBad _ b => decide (b ≠ sum)
  | .idle _ => true
  | .reset _ _ => true
  | .rpop _ => decide (cfg.cdcMode = .asyncFifo)
  | .rsync _ _ => decide (cfg.cdcMode = .asyncFifo)
  | .wpush _ => decide (cfg.cdcMode = .asyncFifo)
  | .wdrop _ => decide (cfg.cdcMode = .asyncFifo)
  | .wsync _ _ _ => decide (cfg.cdcMode = .asyncFifo)
  | .wreset _ _ _ => decide (cfg.cdcMode = .asyncFifo)

end Sys2Proof
end

