-- ==== Sys2Proof/Safety.lean ====
section
/-! DEFINITION. The terms the statements use: the invariants of the core (R24, R27) and of the FIFO (R150, R157, R163),
and what a safe step is. -/

namespace Sys2Proof.Machine

/-- The next step answers a next state: no fault and no refusal. -/
def SafeStep (s : State) : Prop := ∃ t, step s = .next t

/-- The sum of the two header bytes and the first `n` payload bytes, modulo 256. -/
def headSum (h : Byte) (p : Payload) (n : Nat) : Byte := sumBytes ([h, h] ++ [p.p0, p.p1, p.p2, p.p3].take n)

/-- The part of R24 and R27 that the core's registers alone can show: the index is 0 outside `BODY` and at most 5 in it,
and the running sum is that of the header bytes and of the payload bytes still held. -/
abbrev CoreInv (cfg : Config) (c : Core) : Prop :=
  (c.st = .hunt → c.idx = 0) ∧
  (c.st = .hdr2 → c.idx = 0 ∧ c.sum = cfg.header) ∧
  (c.st = .body → c.idx ≤ 5#3 ∧ (c.idx ≤ 4#3 → c.sum = headSum cfg.header c.pl c.idx.toNat)) ∧
  (c.st = .csum → c.idx = 0)

/-- The FIFO's registers are well formed, whatever happened before: pointers and stages below `2^(A+1)`, Gray copies in
step, both chains `N` stages long, the storage canonical and within the FIFO's slots, and a side in its reset
interval with its pointer and its chain at zero. -/
abbrev FifoShape (s : State) : Prop :=
  s.cfg.wf = true ∧
  s.wr.wptr < s.cfg.ptrMod ∧ s.wr.wptrG = gray s.wr.wptr ∧
  s.rd.rptr < s.cfg.ptrMod ∧ s.rd.rptrG = gray s.rd.rptr ∧
  s.wr.rq.length = s.cfg.syncStages ∧ (∀ g ∈ s.wr.rq, g < s.cfg.ptrMod) ∧
  s.rd.wq.length = s.cfg.syncStages ∧ (∀ g ∈ s.rd.wq, g < s.cfg.ptrMod) ∧
  Memory.wf s.mem ∧ (∀ x ∈ s.mem, x.1 < s.cfg.depth) ∧
  (s.resets.rstHeld = true → s.rd.rptr = 0 ∧ ∀ g ∈ s.rd.wq, g = 0) ∧
  (s.resets.wrstHeld = true → s.wr.wptr = 0 ∧ ∀ g ∈ s.wr.rq, g = 0)

/-- The pointers in the order they were written: the write side's view and what is on its way to it, `rptr`, the read
side's view and what is on its way to it, `wptr` (R157, R163, R165). -/
def pointerChain (s : State) : List Nat :=
  s.wr.rq.reverse.map (bin s.cfg.ptrWidth) ++ [s.rd.rptr] ++ s.rd.wq.reverse.map (bin s.cfg.ptrWidth) ++ [s.wr.wptr]

/-- The FIFO is in agreement: the chain of pointers rises from the write side's view, the occupancy is at most `DEPTH`,
and every slot from `rptr` to `wptr` was written (R163). -/
abbrev FifoAgrees (s : State) : Prop :=
  ((pointerChain s).map (ptrDist s.cfg (rview s))).Pairwise (· ≤ ·) ∧
  occW s ≤ s.cfg.depth ∧
  ∀ k < ptrDist s.cfg s.rd.rptr s.wr.wptr, (Memory.read s.mem (slotOf s.cfg (s.rd.rptr + k))).isSome = true

/-- The latest reset intervals of the two sides overlap, or will be seen to if the one still going on goes on. -/
abbrev ResetLog.joined (l : ResetLog) : Prop :=
  l.meeting = .overlapped ∨ (l.meeting = .wrstSince ∧ l.rstHeld = true) ∨ (l.meeting = .rstSince ∧ l.wrstHeld = true)

/-- The FIFO invariant: well-formed registers, and agreement of the pointers unless a one-sided reset broke it (R202), and
again from the instant at which the resets of both sides overlap (R201). -/
abbrev FifoInv (s : State) : Prop := FifoShape s ∧ (s.agree = true ∨ s.resets.joined → FifoAgrees s)

/-- Over a list of edges a reset with this level is held from the `i`-th edge to the `j`-th: it is 1 at both of them, never
0 between them, and 1 at `n` edges of its clock or more. -/
def HeldFrom (level : Edge → Option Bool) (es : List Edge) (i j n : Nat) : Prop :=
  i ≤ j ∧ es[i]?.bind level = some true ∧ es[j]?.bind level = some true ∧
  (∀ k, i ≤ k → k ≤ j → es[k]?.bind level ≠ some false) ∧
  n ≤ (((es.drop i).take (j + 1 - i)).filter fun e => level e == some true).length

/-- Over a list of edges both sides are reset together: each reset is held for `n` edges of its clock or more, and the two
intervals overlap (R201). -/
def JointReset (n : Nat) (es : List Edge) : Prop :=
  ∃ i j k l, HeldFrom Edge.rstLevel es i j n ∧ HeldFrom Edge.wrstLevel es k l n ∧ i ≤ l ∧ k ≤ j

/-- A reading and an event never share a cycle (R31). -/
abbrev OutputInv (s : State) : Prop := s.out.rdValid = true → s.out.ev = .none

end Sys2Proof.Machine
end

