-- ==== Sys2Proof/Certificates/Slice0/Obligations.lean ====
section
/-! DEFINITION. The statements for the provers. Each says which rule of spec/ it formalises; a clause that rests on a
choice of the model names its log entry (notes/assumptions/<n>.md). -/

open Sys2Proof Sys2Proof.Machine

-- ---------------------------------------------------------------- encoding

/-- Words written out from the table of R86 and opcode_table.json decode to the operation they stand for. -/
def Obligations.SampleWordsDecodeToTheirOperation : Prop :=
  decode tableConfig 0xC0 0x0059#16 = .ok (.sync1 0 0x59) ∧
  decode tableConfig 0xC0 0x0012#16 = .ok (.skip 0 0x12) ∧
  decode tableConfig 0xC0 0x0859#16 = .ok (.sync2 0 0x59) ∧
  decode tableConfig 0xC0 0x0812#16 = .ok (.desync 0 0x12) ∧
  decode tableConfig 0xC0 0x1204#16 = .ok (.capture 2 0x04) ∧
  decode tableConfig 0xC0 0x1459#16 = .ok (.pad 0x59) ∧
  decode tableConfig 0xC0 0x15FF#16 = .ok (.last 0xFF) ∧
  decode tableConfig 0xC0 0x1700#16 = .ok (.lastUnreachable 1 0x00) ∧
  decode tableConfig 0xC0 0x18C0#16 = .ok (.checkOk 0 0xC0) ∧
  decode tableConfig 0xC0 0x18C1#16 = .ok (.checkBad 0 0xC1)

/-- Decoding the encoding of a well-formed operation gives the operation back, every operand at every value (R85 to
R87; the unit number in the event word is the model's, notes/assumptions/3.md). -/
def Obligations.DecodeInvertsEncode : Prop :=
  ∀ (cfg : Config) (sum : Byte) (i : Instr), i.wf cfg sum = true → decode cfg sum (encode i) = .ok i

/-- What the decoder accepts is well formed, and encodes to the very word it was read from: no bit is dropped. -/
def Obligations.DecodedOperationReencodes : Prop :=
  ∀ (cfg : Config) (sum : Byte) (w : EventWord) (i : Instr),
    decode cfg sum w = .ok i → i.wf cfg sum = true ∧ encode i = w

/-- The core's decoder selects, for every key, the first matching row of the table of R86, and some row matches. -/
def Obligations.KeyDecodeFollowsPriorityTable : Prop :=
  ∀ (header sum : Byte) (key : BitVec 13),
    (decodeKey header sum key).keyRow = firstRow header sum key ∧
    1 ≤ firstRow header sum key ∧ firstRow header sum key ≤ 10

-- ---------------------------------------------------------------- the step

/-- With `CDC_MODE = NONE` a step at a `clk` edge runs the one operation the core's word decodes to, the edge taken off
the coming ones (R85, R184). -/
def Obligations.StepRunsTheDecodedOperation : Prop :=
  ∀ (s : State) (c : ClkIn) (rest : List Edge) (i : Instr),
    s.cfg.cdcMode = .none → s.inputs = .clk c :: rest →
    decode s.cfg s.core.sum (coreWord s c) = .ok i → i.wf s.cfg s.core.sum = true →
    step s = exec i { s with inputs := rest }

/-- With the FIFO a `clk` edge runs the core's operation, RPOP when a byte is accepted, and RSYNC when `rst = 0`; a `wclk`
edge runs WRESET, or WPUSH or WDROP when a byte is presented, and WSYNC when `wrst = 0`; an edge of both clocks runs all of
these, each synchronizer before the pointers move or after, as the edge says (R87, R152 to R155, R160 to R162; the choice
at coincident edges is notes/assumptions/9.md). `closeEdge` then records the edge's resets, and writes nothing but the
model's own `agree` and `resets` (notes/assumptions/6.md). -/
def Obligations.StepRunsTheFifoEdgeOperations : Prop :=
  (∀ (s : State) (c p : ClkIn) (rest : List Edge) (i : Instr),
    s.cfg.cdcMode = .asyncFifo → s.inputs = .clk c :: rest → readPort s c = .next p →
    decode s.cfg s.core.sum (coreWord s p) = .ok i →
    step s = closeEdge (.clk c) { s with inputs := rest } (execAll
      (i :: (if p.rst then [] else if p.inValid then [.rpop p.inData, .rsync true p.inData]
             else [.rsync false p.inData]))
      { s with inputs := rest })) ∧
  (∀ (s : State) (w : WclkIn) (rest : List Edge),
    s.cfg.cdcMode = .asyncFifo → s.inputs = .wclk w :: rest →
    step s = closeEdge (.wclk w) { s with inputs := rest } (execAll
      (if w.wrst then [.wreset w.wrValid (fullW s) w.wrData]
       else (if w.wrValid then [if fullW s then .wdrop w.wrData else .wpush w.wrData] else []) ++
         [.wsync w.wrValid (fullW s) w.wrData])
      { s with inputs := rest })) ∧
  (∀ (s : State) (c p : ClkIn) (w : WclkIn) (rNew wNew : Bool) (rest : List Edge) (i : Instr),
    s.cfg.cdcMode = .asyncFifo → s.inputs = .both c w rNew wNew :: rest → readPort s c = .next p →
    decode s.cfg s.core.sum (coreWord s p) = .ok i →
    let pops := if p.rst then [] else if p.inValid then [Instr.rpop p.inData] else []
    let rsync := if p.rst then [] else [Instr.rsync p.inValid p.inData]
    let writes := if w.wrst then [Instr.wreset w.wrValid (fullW s) w.wrData]
      else if w.wrValid then [if fullW s then .wdrop w.wrData else .wpush w.wrData] else []
    let wsync := if w.wrst then [] else [Instr.wsync w.wrValid (fullW s) w.wrData]
    step s = closeEdge (.both c w rNew wNew) { s with inputs := rest } (execAll
      ((if rNew then [] else rsync) ++ (if wNew then [] else wsync) ++ (i :: pops ++ writes) ++
        (if wNew then wsync else []) ++ (if rNew then rsync else []))
      { s with inputs := rest })) ∧
  (∀ (e : Edge) (s t : State), ∃ (agree : Bool) (l : ResetLog),
    closeEdge e s (.next t) = .next { t with agree := agree, resets := l })

/-- With the FIFO the core's input is the FIFO's head in every `clk` cycle (R156): `in_valid = (wview != rptr)`, with
`rst = 1` too, and `in_data` is the byte in slot `rptr[A-1:0]` where that slot has a value. A byte to be accepted needs a
FIFO in agreement. The data bits of a slot without a value are the environment's, which is the model's choice
(notes/assumptions/13.md); no byte is then accepted. -/
def Obligations.ReadPortShowsTheFifoHead : Prop :=
  ∀ (s : State) (c : ClkIn), s.cfg.cdcMode = .asyncFifo →
    let head := Memory.read s.mem (s.rd.rptr % 2 ^ s.cfg.fifoAw)
    (wview s = s.rd.rptr → readPort s c = .next { c with inValid := false, inData := head.getD c.inData }) ∧
    (wview s ≠ s.rd.rptr → c.rst = true →
      readPort s c = .next { c with inValid := true, inData := head.getD c.inData }) ∧
    (wview s ≠ s.rd.rptr → c.rst = false → s.agree = true →
      ∀ b, head = some b → readPort s c = .next { c with inValid := true, inData := b })

/-- With no clock edge to come every register holds its value (R190). That a stopped clock is a step with no edge lined up,
and that such a step answers the same state, is the model's choice (notes/assumptions/5.md). -/
def Obligations.StoppedClockHoldsEverything : Prop :=
  ∀ s : State, s.inputs = [] → step s = .next s

/-- The operations of one edge of one clock may be run in any order: no two write the same register and each reads the
registers as they were before the edge (R4, 00_scope.md section 5). -/
def Obligations.OperationsOfOneEdgeCommute : Prop :=
  ∀ (s : State) (e : Edge) (is js : List Instr),
    ((∃ c, e = .clk c) ∨ (∃ w, e = .wclk w)) → fetch s e = .next is → js.Perm is →
    execAll js s = execAll is s

-- ---------------------------------------------------------------- what each operation does

/-- IDLE and SKIP change nothing but the two pulses, which return to 0 (R100, R103). The unit number in IDLE's event word is
the model's (notes/assumptions/3.md). -/
def Obligations.IdleAndSkipOnlyClearThePulses : Prop :=
  ∀ (s : State) (d b h : Byte) (idx : BitVec 3),
    decode s.cfg s.core.sum (corePortWord coreUnit (corePortBits false false d)) = .ok (.idle d) ∧
    exec (.idle d) s = .next { s with out := { s.out with rdValid := false, ev := .none } } ∧
    (b ≠ h → decodeKey h s.core.sum (keyBits St.hunt.code idx b) = .skip idx b) ∧
    exec (.skip idx b) s = .next { s with out := { s.out with rdValid := false, ev := .none } }

/-- SYNC1 (R101): in `HUNT` the byte `H` selects it; `st <- HDR2`, `sum <- b`. -/
def Obligations.Sync1StartsTheSum : Prop :=
  ∀ (s : State) (h b : Byte) (idx : BitVec 3),
    decodeKey h s.core.sum (keyBits St.hunt.code idx h) = .sync1 idx h ∧
    exec (.sync1 idx b) s = .next { s with
      core := { s.core with st := .hdr2, sum := b }
      out := { s.out with rdValid := false, ev := .none } }

/-- SYNC2 (R102): in `HDR2` the byte `H` selects it; `st <- BODY`, `idx <- 0`, `sum <- sum + b mod 256`. -/
def Obligations.Sync2EntersTheBody : Prop :=
  ∀ (s : State) (h b : Byte) (idx : BitVec 3),
    decodeKey h s.core.sum (keyBits St.hdr2.code idx h) = .sync2 idx h ∧
    exec (.sync2 idx b) s = .next { s with
      core := { s.core with st := .body, idx := 0, sum := s.core.sum + b }
      out := { s.out with rdValid := false, ev := .none } }

/-- DESYNC (R104): in `HDR2` any other byte selects it; `st <- HUNT`, `ev = SYNC_FAIL` in the next cycle. -/
def Obligations.DesyncReturnsToHunt : Prop :=
  ∀ (s : State) (h b : Byte) (idx : BitVec 3),
    (b ≠ h → decodeKey h s.core.sum (keyBits St.hdr2.code idx b) = .desync idx b) ∧
    exec (.desync idx b) s = .next { s with
      core := { s.core with st := .hunt }
      out := { s.out with rdValid := false, ev := .syncFail } }

/-- CAPTURE (R120): in `BODY` with `idx` 0 to 3 any byte selects it; `pl[idx] <- b`, `sum <- sum + b mod 256`,
`idx <- idx + 1`; the other payload registers keep their values. That the index is the operation's field, also in a state
whose register `idx` differs from it, is the model's reading (notes/assumptions/12.md). -/
def Obligations.CaptureStoresAndSums : Prop :=
  ∀ (s : State) (h b : Byte) (i : BitVec 2),
    decodeKey h s.core.sum (keyBits St.body.code (i.setWidth 3) b) = .capture i b ∧
    (∃ pl : Payload, pl.get i = b ∧ (∀ j, j ≠ i → pl.get j = s.core.pl.get j) ∧
      exec (.capture i b) s = .next { s with
        core := { s.core with pl := pl, sum := s.core.sum + b, idx := i.setWidth 3 + 1 }
        out := { s.out with rdValid := false, ev := .none } })

/-- PAD (R121): in `BODY` with `idx = 4` any byte selects it; it enters `sum` and is not stored. -/
def Obligations.PadOnlySums : Prop :=
  ∀ (s : State) (h b : Byte),
    decodeKey h s.core.sum (keyBits St.body.code 4 b) = .pad b ∧
    exec (.pad b) s = .next { s with
      core := { s.core with sum := s.core.sum + b, idx := 5 }
      out := { s.out with rdValid := false, ev := .none } }

/-- LAST (R122) at `idx = 5`, and its twin at the unreachable indices 6 and 7 (R123): `sum <- sum + b mod 256`,
`idx <- 0`, `st <- CSUM`. -/
def Obligations.LastEntersTheChecksum : Prop :=
  ∀ (s : State) (h b : Byte) (k : BitVec 1),
    decodeKey h s.core.sum (keyBits St.body.code 5 b) = .last b ∧
    decodeKey h s.core.sum (keyBits St.body.code (3#2 ++ k : BitVec (2 + 1)) b) = .lastUnreachable k b ∧
    exec (.last b) s = .next { s with
      core := { s.core with sum := s.core.sum + b, idx := 0, st := .csum }
      out := { s.out with rdValid := false, ev := .none } } ∧
    exec (.lastUnreachable k b) s = exec (.last b) s

/-- CHECK_OK under REJECT (R130, R131, R132): a distance strictly between the bounds is emitted with the strength,
unchanged; any other raises `RANGE_DROP` and leaves the last reading. `st <- HUNT` in both cases. -/
def Obligations.CheckOkRejectsOutOfRange : Prop :=
  ∀ (s : State) (h b : Byte) (idx : BitVec 3),
    (b = s.core.sum → decodeKey h s.core.sum (keyBits St.csum.code idx b) = .checkOk idx b) ∧
    (s.cfg.policy = .reject →
      let d : Half := BitVec.ofNat 16 (s.core.pl.p0.toNat + s.core.pl.p1.toNat * 256)
      let g : Half := BitVec.ofNat 16 (s.core.pl.p2.toNat + s.core.pl.p3.toNat * 256)
      (s.cfg.rejLo < d ∧ d < s.cfg.rejHi → exec (.checkOk idx b) s = .next { s with
        core := { s.core with st := .hunt }
        out := { rdValid := true, rdDistance := d, rdStrength := g, ev := .none } }) ∧
      (¬(s.cfg.rejLo < d ∧ d < s.cfg.rejHi) → exec (.checkOk idx b) s = .next { s with
        core := { s.core with st := .hunt }
        out := { s.out with rdValid := false, ev := .rangeDrop } }))

/-- CHECK_OK under CLAMP (R130, R132, R133): the smaller of the distance and `CLAMP_CEIL` is emitted, the strength
unchanged; `st <- HUNT`. -/
def Obligations.CheckOkClampsTheDistance : Prop :=
  ∀ (s : State) (h b : Byte) (idx : BitVec 3),
    (b = s.core.sum → decodeKey h s.core.sum (keyBits St.csum.code idx b) = .checkOk idx b) ∧
    (s.cfg.policy = .clamp →
      exec (.checkOk idx b) s = .next { s with
        core := { s.core with st := .hunt }
        out := { rdValid := true
                 rdDistance :=
                   BitVec.ofNat 16 (min (s.core.pl.p0.toNat + s.core.pl.p1.toNat * 256) s.cfg.clampCeil.toNat)
                 rdStrength := BitVec.ofNat 16 (s.core.pl.p2.toNat + s.core.pl.p3.toNat * 256)
                 ev := .none } })

/-- CHECK_BAD (R134): in `CSUM` a byte that differs from `sum` selects it; `ev = CSUM_ERR`, `st <- HUNT`, no reading. -/
def Obligations.CheckBadDropsTheFrame : Prop :=
  ∀ (s : State) (h b : Byte) (idx : BitVec 3),
    (b ≠ s.core.sum → decodeKey h s.core.sum (keyBits St.csum.code idx b) = .checkBad idx b) ∧
    exec (.checkBad idx b) s = .next { s with
      core := { s.core with st := .hunt }
      out := { s.out with rdValid := false, ev := .csumErr } }

/-- RESET (R200, R46): every core and output register takes its reset value; with the FIFO the read side too (R162),
and nothing else. -/
def Obligations.ResetClearsCoreAndReadSide : Prop :=
  ∀ (s : State) (v : Bool) (d : Byte),
    decode s.cfg s.core.sum (corePortWord coreUnit (corePortBits true v d)) = .ok (.reset v d) ∧
    (s.cfg.cdcMode = .none → exec (.reset v d) s = .next { s with
      core := { st := .hunt, idx := 0, sum := 0x00, pl := ⟨0x00, 0x00, 0x00, 0x00⟩ }
      out := { rdValid := false, rdDistance := 0, rdStrength := 0, ev := .none } }) ∧
    (s.cfg.cdcMode = .asyncFifo → exec (.reset v d) s = .next { s with
      core := { st := .hunt, idx := 0, sum := 0x00, pl := ⟨0x00, 0x00, 0x00, 0x00⟩ }
      out := { rdValid := false, rdDistance := 0, rdStrength := 0, ev := .none }
      rd := { rptr := 0, rptrG := 0, wq := List.replicate s.cfg.syncStages 0 } })

/-- RPOP (R160): `rptr <- rptr + 1`, `rptr_g <- gray(rptr + 1)`, modulo `2^(A+1)`; nothing else. -/
def Obligations.RpopAdvancesTheReadPointer : Prop :=
  ∀ (s : State) (d : Byte),
    (s.cfg.cdcMode = .asyncFifo →
      decode s.cfg s.core.sum (corePortWord popUnit (corePortBits false true d)) = .ok (.rpop d)) ∧
    exec (.rpop d) s = .next { s with
      rd := { s.rd with rptr := (s.rd.rptr + 1) % 2 ^ (s.cfg.fifoAw + 1)
                        rptrG := gray ((s.rd.rptr + 1) % 2 ^ (s.cfg.fifoAw + 1)) } }

/-- RSYNC (R155) and WSYNC (R154): the first stage takes the other side's Gray pointer, each later stage its
predecessor, and nothing else changes. -/
def Obligations.SynchronizersShiftOneStage : Prop :=
  ∀ (s : State) (v f : Bool) (d : Byte),
    (s.cfg.cdcMode = .asyncFifo →
      decode s.cfg s.core.sum (corePortWord readSyncUnit (corePortBits false v d)) = .ok (.rsync v d) ∧
      decode s.cfg s.core.sum (writePortWord writeSyncUnit (writePortBits false v f d)) = .ok (.wsync v f d)) ∧
    (∃ q : List Nat, q.length = s.rd.wq.length ∧ (∀ k, k < q.length → q[k]? = (s.wr.wptrG :: s.rd.wq)[k]?) ∧
      exec (.rsync v d) s = .next { s with rd := { s.rd with wq := q } }) ∧
    (∃ q : List Nat, q.length = s.wr.rq.length ∧ (∀ k, k < q.length → q[k]? = (s.rd.rptrG :: s.wr.rq)[k]?) ∧
      exec (.wsync v f d) s = .next { s with wr := { s.wr with rq := q } })

/-- WPUSH (R152): the byte goes to slot `wptr[A-1:0]`, every other slot reads as before, and the write pointer and its
Gray copy advance modulo `2^(A+1)`; nothing else changes. -/
def Obligations.WpushStoresTheByte : Prop :=
  ∀ (s : State) (d : Byte), ∃ m : Memory,
    (s.cfg.cdcMode = .asyncFifo →
      decode s.cfg s.core.sum (writePortWord writeUnit (writePortBits false true false d)) = .ok (.wpush d)) ∧
    Memory.read m (s.wr.wptr % 2 ^ s.cfg.fifoAw) = some d ∧
    (∀ a, a ≠ s.wr.wptr % 2 ^ s.cfg.fifoAw → Memory.read m a = Memory.read s.mem a) ∧
    exec (.wpush d) s = .next { s with
      mem := m
      wr := { s.wr with wptr := (s.wr.wptr + 1) % 2 ^ (s.cfg.fifoAw + 1)
                        wptrG := gray ((s.wr.wptr + 1) % 2 ^ (s.cfg.fifoAw + 1)) } }

/-- WDROP (R153): `wr_ovf <- 1` and nothing else; the byte is lost. -/
def Obligations.WdropOnlySetsOverflow : Prop :=
  ∀ (s : State) (d : Byte),
    (s.cfg.cdcMode = .asyncFifo →
      decode s.cfg s.core.sum (writePortWord writeUnit (writePortBits false true true d)) = .ok (.wdrop d)) ∧
    exec (.wdrop d) s = .next { s with wr := { s.wr with wrOvf := true } }

/-- WRESET (R161, R151): the write-side registers are cleared and no slot of `fifo_mem` has a value; the core and the
read side are untouched. That the slots lose their values is the model's reading (notes/assumptions/7.md). -/
def Obligations.WresetClearsTheWriteSide : Prop :=
  ∀ (s : State) (v f : Bool) (d : Byte), ∃ m : Memory,
    (s.cfg.cdcMode = .asyncFifo →
      decode s.cfg s.core.sum (writePortWord writeUnit (writePortBits true v f d)) = .ok (.wreset v f d)) ∧
    (∀ a, Memory.read m a = none) ∧
    exec (.wreset v f d) s = .next { s with
      wr := { wptr := 0, wptrG := 0, rq := List.replicate s.cfg.syncStages 0, wrOvf := false }
      mem := m }

-- ---------------------------------------------------------------- frames

/-- Every operation but WPUSH and WRESET leaves every slot of `fifo_mem` as it was; WPUSH changes only the slot
`slotOf cfg wptr` it stores to (R150, R152). That no slot has a value after WRESET, where R151 calls the contents
unspecified, is the model's reading (notes/assumptions/7.md). -/
def Obligations.StorageChangesOnlyWherePushed : Prop :=
  ∀ (i : Instr) (s t : State), exec i s = .next t →
    (match i with
     | .wpush _ => ∀ a, a ≠ slotOf s.cfg s.wr.wptr → Memory.read t.mem a = Memory.read s.mem a
     | .wreset _ _ _ => ∀ a, Memory.read t.mem a = none
     | _ => ∀ a, Memory.read t.mem a = Memory.read s.mem a)

/-- The core's operations leave the FIFO, and the FIFO's operations leave the core and its outputs; among the FIFO's, the
read side's leave the write side and the write side's leave the read side, and each leaves the registers of its own side
that it does not name (R4, R20, R87, R188). RESET is the one that writes both the core and, with the FIFO, the read side
(R162). No operation writes the model's own record of resets (notes/assumptions/6.md). -/
def Obligations.UnitsWriteOnlyTheirRegisters : Prop :=
  ∀ (i : Instr) (s t : State), exec i s = .next t →
    t.inputs = s.inputs ∧ t.cfg = s.cfg ∧ t.agree = s.agree ∧ t.resets = s.resets ∧
    (match i with
     | .rpop _ => t.core = s.core ∧ t.out = s.out ∧ t.wr = s.wr ∧ t.rd.wq = s.rd.wq
     | .rsync _ _ => t.core = s.core ∧ t.out = s.out ∧ t.wr = s.wr ∧ t.rd.rptr = s.rd.rptr ∧ t.rd.rptrG = s.rd.rptrG
     | .wpush _ => t.core = s.core ∧ t.out = s.out ∧ t.rd = s.rd ∧ t.wr.rq = s.wr.rq ∧ t.wr.wrOvf = s.wr.wrOvf
     | .wdrop _ => t.core = s.core ∧ t.out = s.out ∧ t.rd = s.rd ∧ t.wr.rq = s.wr.rq ∧ t.wr.wptr = s.wr.wptr ∧
         t.wr.wptrG = s.wr.wptrG
     | .wsync _ _ _ => t.core = s.core ∧ t.out = s.out ∧ t.rd = s.rd ∧ t.wr.wptr = s.wr.wptr ∧
         t.wr.wptrG = s.wr.wptrG ∧ t.wr.wrOvf = s.wr.wrOvf
     | .wreset _ _ _ => t.core = s.core ∧ t.out = s.out ∧ t.rd = s.rd
     | .reset _ _ => t.wr = s.wr ∧ (s.cfg.cdcMode = .none → t.rd = s.rd)
     | _ => t.wr = s.wr ∧ t.rd = s.rd)

/-- No step changes the build-time parameters (R3, R71). -/
def Obligations.ParametersNeverChange : Prop :=
  ∀ s t : State, step s = .next t → t.cfg = s.cfg

-- ---------------------------------------------------------------- when a step stops

/-- A step stops in exactly three cases: the core would take a FIFO slot nothing has written (R151, I7), a byte would be
delivered after a one-sided reset (R202, I8), or `wclk` rises in a block without the FIFO (R42, I11). In every other case
it answers a next state (R180). What counts as a one-sided reset is the model's bookkeeping (notes/assumptions/6.md), and
that a byte which is both unwritten and after a one-sided reset is refused is its choice (notes/assumptions/22.md). -/
def Obligations.StepStopsExactlyHere : Prop :=
  ∀ (s : State) (e : Edge) (rest : List Edge), s.inputs = e :: rest →
    let delivers := s.cfg.cdcMode = .asyncFifo ∧ (∃ c, e.clkPart = some c ∧ c.rst = false) ∧ wview s ≠ s.rd.rptr
    let unwritten := delivers ∧ s.agree = true ∧ Memory.read s.mem (slotOf s.cfg s.rd.rptr) = none
    let oneSided := delivers ∧ s.agree = false
    let foreign := s.cfg.cdcMode = .none ∧ ∃ w, e.wclkPart = some w
    (step s = .fault .unwrittenSlot ↔ unwritten) ∧
    (step s = .refused .oneSidedReset ↔ oneSided) ∧
    (step s = .refused .asynchronousProducer ↔ foreign) ∧
    ((∃ t, step s = .next t) ↔ ¬unwritten ∧ ¬oneSided ∧ ¬foreign)

/-- An edge that begins a reset of one side alone while the other side's pointer is not zero breaks the FIFO's agreement
(R202). From a broken FIFO with neither side in reset, agreement comes back only over edges in which both sides are reset
together: each reset held for `N + 1` edges of its clock or more, the two intervals overlapping (R201). A reset of the read
side alone while `wptr` is zero keeps agreement. What the edges show of the intervals, and what is kept of them, is the
model's reading (notes/assumptions/6.md). -/
def Obligations.OneSidedResetLastsUntilJointReset : Prop :=
  (∀ (s t : State) (e : Edge) (rest : List Edge), s.cfg.cdcMode = .asyncFifo → s.inputs = e :: rest → step s = .next t →
    (e.rstLevel = some true → e.wrstLevel ≠ some true → s.resets.rstHeld = false → s.wr.wptr ≠ 0 → t.agree = false) ∧
    (e.wrstLevel = some true → e.rstLevel ≠ some true → s.resets.wrstHeld = false → s.rd.rptr ≠ 0 → t.agree = false) ∧
    (e.rstLevel = some true → e.wrstLevel ≠ some true → s.agree = true → s.wr.wptr = 0 → t.agree = true)) ∧
  (∀ (s t : State) (es rest : List Edge), s.cfg.cdcMode = .asyncFifo → s.inputs = es ++ rest → s.agree = false →
    s.resets.rstHeld = false → s.resets.wrstHeld = false → s.resets.joint (s.cfg.syncStages + 1) = false →
    core.run es.length s = .next t → t.agree = true → JointReset (s.cfg.syncStages + 1) es)

-- ---------------------------------------------------------------- the core over whole cycles

/-- A `clk` cycle that accepts a byte is one application of the reference function of R135: the core takes its state and
the outputs show its output in the next cycle; a reading register it does not write keeps its value (R29, R40, R135). With
the FIFO `wclk` may rise at the same instant. -/
def Obligations.AcceptedByteFollowsReferenceStep : Prop :=
  ∀ (s : State) (e : Edge) (c p : ClkIn) (rest : List Edge),
    s.inputs = e :: rest → e.clkPart = some c → (s.cfg.cdcMode = .none → e = .clk c) →
    readPort s c = .next p → p.acc = true →
    ∃ t, step s = .next t ∧ t.inputs = rest ∧
      t.core = (streamStep s.cfg s.core p.inData).1 ∧ outOf t.out = (streamStep s.cfg s.core p.inData).2 ∧
      (t.out.rdValid = false → t.out.rdDistance = s.out.rdDistance ∧ t.out.rdStrength = s.out.rdStrength)

/-- A `clk` cycle with `rst = 0` and no byte leaves every core register, and `rd_valid` and `ev` become 0 (R41, R100). With
the FIFO `wclk` may rise at the same instant. -/
def Obligations.NoByteKeepsTheCore : Prop :=
  ∀ (s : State) (e : Edge) (c p : ClkIn) (rest : List Edge),
    s.inputs = e :: rest → e.clkPart = some c → (s.cfg.cdcMode = .none → e = .clk c) →
    readPort s c = .next p → p.rst = false → p.inValid = false →
    ∃ t, step s = .next t ∧ t.core = s.core ∧ t.out = { s.out with rdValid := false, ev := .none }

/-- `rst = 1` at a `clk` edge overrides every other input, from every state: the core and the outputs take their reset
values, no byte is taken and nothing is popped (R184, R200, R162). With the FIFO `wclk` may rise at the same instant; if
it does not, the write side and the storage are unchanged. -/
def Obligations.ResetOverridesEveryInput : Prop :=
  ∀ (s : State) (e : Edge) (c : ClkIn) (rest : List Edge),
    s.inputs = e :: rest → e.clkPart = some c → (s.cfg.cdcMode = .none → e = .clk c) → c.rst = true →
    ∃ t, step s = .next t ∧ t.inputs = rest ∧ t.core = Core.reset ∧ t.out = Outputs.reset ∧
      (e = .clk c → t.wr = s.wr ∧ t.mem = s.mem) ∧ (s.cfg.cdcMode = .none → t.rd = s.rd) ∧
      (s.cfg.cdcMode = .asyncFifo → t.rd = ReadSide.reset s.cfg.syncStages)

/-- The reading registers change only with a new reading or a reset of the core (R29); a reset of the write side leaves
them. -/
def Obligations.ReadingRegistersHold : Prop :=
  ∀ (s t : State) (e : Edge) (rest : List Edge), s.inputs = e :: rest →
    (∀ c, e.clkPart = some c → c.rst = false) → step s = .next t → (t.out.rdValid = false ∨ e.hasClk = false) →
    t.out.rdDistance = s.out.rdDistance ∧ t.out.rdStrength = s.out.rdStrength

/-- A reading appears only after a cycle in which the checksum byte of a frame matched, and it obeys the range policy:
under REJECT the raw distance, strictly within the bounds; under CLAMP at most the ceiling, and the raw distance when
that is at most the ceiling; the raw strength in both (R130 to R133, R139). -/
def Obligations.ReadingObeysThePolicy : Prop :=
  ∀ (s t : State) (e : Edge) (rest : List Edge), s.inputs = e :: rest → e.hasClk = true → step s = .next t →
    t.out.rdValid = true →
    s.core.st = .csum ∧ t.core.st = .hunt ∧
    (∃ c p, e.clkPart = some c ∧ readPort s c = .next p ∧ p.acc = true ∧ p.inData = s.core.sum) ∧
    t.out.rdStrength = rawStrength s.core.pl ∧
    (s.cfg.policy = .reject →
      t.out.rdDistance = rawDistance s.core.pl ∧ s.cfg.rejLo < t.out.rdDistance ∧ t.out.rdDistance < s.cfg.rejHi) ∧
    (s.cfg.policy = .clamp →
      t.out.rdDistance ≤ s.cfg.clampCeil ∧
      (t.out.rdDistance = rawDistance s.core.pl ↔ rawDistance s.core.pl ≤ s.cfg.clampCeil))

/-- A reading and an event never share a cycle: every step keeps it (R31). -/
def Obligations.StepKeepsReadingAndEventApart : Prop :=
  ∀ s t : State, OutputInv s → step s = .next t → OutputInv t

/-- Every step keeps the core's invariant (R24, R27). -/
def Obligations.StepKeepsCoreInvariant : Prop :=
  ∀ s t : State, CoreInv s.cfg s.core → step s = .next t → CoreInv t.cfg t.core

/-- The core's invariant and the output invariant hold right after reset, whatever the parameters (R27, R31, R46). -/
def Obligations.ResetHasCoreInvariant : Prop :=
  ∀ cfg : Config, CoreInv cfg (State.resetWith cfg).core ∧ OutputInv (State.resetWith cfg)

/-- R27 with the frame's bytes: after any `clk` cycles without reset from the reset state, with any gaps between the
bytes, the registers hold what R27 says of the bytes `f[0], f[1], ...` of the current candidate frame. -/
def Obligations.RegistersFollowTheCandidateFrame : Prop :=
  ∀ (cfg : Config) (cs : List ClkIn) (rest : List Edge), cfg.cdcMode = .none → (∀ c ∈ cs, c.rst = false) →
    ∃ t, core.run cs.length { State.resetWith cfg with inputs := cs.map Edge.clk ++ rest } = .next t ∧
      let f := candidateFrame cfg Core.reset [] (acceptedBytes cs)
      let c : Machine.Core := t.core
      (c.st = .hunt → c.idx = 0) ∧
      (c.st = .hdr2 → c.idx = 0 ∧ f = [cfg.header] ∧ c.sum = cfg.header) ∧
      (c.st = .body → c.idx.toNat ≤ 5 ∧ f.length = c.idx.toNat + 2 ∧ f.take 2 = [cfg.header, cfg.header] ∧
        c.sum = sumBytes f ∧ ∀ k, k < min c.idx.toNat 4 → some (c.pl.get (BitVec.ofNat 2 k)) = f[2 + k]?) ∧
      (c.st = .csum → c.idx = 0 ∧ f.length = 8 ∧ f.take 2 = [cfg.header, cfg.header] ∧
        c.sum = sumBytes f ∧ ∀ k, k < 4 → some (c.pl.get (BitVec.ofNat 2 k)) = f[2 + k]?)

/-- Over any run of `clk` cycles without reset, with or without a byte in each, the block's outputs are those of
`decode_stream` over the accepted bytes, and so is the core it ends in (R100, R135). -/
def Obligations.RunsFollowTheStreamFunction : Prop :=
  ∀ (s : State) (cs : List ClkIn) (rest : List Edge),
    s.cfg.cdcMode = .none → s.inputs = cs.map Edge.clk ++ rest → (∀ c ∈ cs, c.rst = false) →
    outsOver cs.length s = decodeStream s.cfg s.core (acceptedBytes cs) ∧
    ∃ t, core.run cs.length s = .next t ∧ t.inputs = rest ∧ t.core = streamCore s.cfg s.core (acceptedBytes cs)

/-- Two header bytes accepted from `HUNT` and any seven bytes after them give exactly one output: a reading or
`RANGE_DROP` by the policy if the nine bytes pass the checksum, else `CSUM_ERR`; and the core is in `HUNT` (R137). -/
def Obligations.EveryFrameHasOneOutcome : Prop :=
  ∀ (s : State) (p0 p1 p2 p3 p4 p5 k : Byte) (rest : List Edge),
    let h := s.cfg.header
    let f := [h, h, p0, p1, p2, p3, p4, p5, k]
    let d : Half := p1 ++ p0
    let g : Half := p3 ++ p2
    s.cfg.cdcMode = .none → s.core.st = .hunt → s.inputs = byteEdges f ++ rest →
    (∃ t, core.run 9 s = .next t ∧ t.inputs = rest ∧ (t.core : Machine.Core).st = .hunt) ∧
    outsOver 9 s =
      [if csumOk f then
         (match s.cfg.policy with
          | .reject => if s.cfg.rejLo < d ∧ d < s.cfg.rejHi then .read d g else .ev .rangeDrop
          | .clamp => .read (if s.cfg.clampCeil ≤ d then s.cfg.clampCeil else d) g)
       else .ev .csumErr]

/-- The round trip of R84 and R139: a `FRAME` statement run from `HUNT` emits the reading it encodes when the policy
leaves the distance alone, and a `BADFRAME` statement emits nothing but `CSUM_ERR` (R93). -/
def Obligations.FrameRoundTrip : Prop :=
  ∀ (s : State) (d g : Half) (p4 p5 : Byte) (rest : List Edge),
    s.cfg.cdcMode = .none → s.core.st = .hunt →
    (s.inputs = scriptEdges s.cfg.header [.frame d g p4 p5] ++ rest →
      (s.cfg.policy = .reject → s.cfg.rejLo < d → d < s.cfg.rejHi → outsOver 9 s = [.read d g]) ∧
      (s.cfg.policy = .clamp → d ≤ s.cfg.clampCeil → outsOver 9 s = [.read d g])) ∧
    (s.inputs = scriptEdges s.cfg.header [.badFrame d g p4 p5] ++ rest → outsOver 9 s = [.ev .csumErr])

/-- The checksum detects every change of one byte of `f[2]` to `f[8]`, and neither a reordering of `f[2]` to `f[7]` nor
two changes there that cancel modulo 256 (R138). -/
def Obligations.ChecksumDetectsSingleByteErrors : Prop :=
  (∀ (f : List Byte) (k : Nat) (v : Byte), csumOk f = true → 2 ≤ k → k < 9 → f[k]? ≠ some v →
    csumOk (f.set k v) = false) ∧
  (∀ (h0 h1 c : Byte) (p q : List Byte), p.Perm q → csumOk (h0 :: h1 :: p ++ [c]) = csumOk (h0 :: h1 :: q ++ [c])) ∧
  (∀ (f : List Byte) (j k : Nat) (x y e : Byte), f.length = 9 → 2 ≤ j → j < 8 → 2 ≤ k → k < 8 → j ≠ k →
    f[j]? = some x → f[k]? = some y → csumOk ((f.set j (x + e)).set k (y - e)) = csumOk f)

/-- From any state at all, seven accepted bytes none of which is `HEADER` leave the core in `HUNT` (R107). -/
def Obligations.SevenForeignBytesReturnToHunt : Prop :=
  ∀ (s : State) (bs : List Byte) (rest : List Edge),
    s.cfg.cdcMode = .none → bs.length = 7 → s.cfg.header ∉ bs → s.inputs = byteEdges bs ++ rest →
    ∃ t, core.run 7 s = .next t ∧ (t.core : Machine.Core).st = .hunt

/-- A stray header byte before a frame: the core takes the window (stray, `f[0]`, ..., `f[7]`) as its frame, so `f[1]`
becomes `payload[0]` and `f[7]` is tested as the checksum byte (R108). -/
def Obligations.StrayHeaderShiftsTheWindow : Prop :=
  ∀ (s : State) (d g : Half) (p4 p5 : Byte) (rest : List Edge),
    let h := s.cfg.header
    s.cfg.cdcMode = .none → s.core.st = .hunt →
    s.inputs = scriptEdges h [.byte h, .frame d g p4 p5] ++ rest →
    (∃ t, core.run 9 s = .next t ∧ (t.core : Machine.Core).st = .hunt) ∧
    (p5 ≠ h + h + h + lowByte d + highByte d + lowByte g + highByte g + p4 → outsOver 9 s = [.ev .csumErr]) ∧
    (p5 = h + h + h + lowByte d + highByte d + lowByte g + highByte g + p4 →
      outsOver 9 s = [streamPolicy s.cfg (lowByte d ++ h) (lowByte g ++ highByte d)])

/-- Containment: in `HUNT` the stale `idx`, `sum` and `pl` are forgotten. Two blocks that agree on parameters, outputs and
coming edges, and on the FIFO where there is one, both in `HUNT`, show the same for ever (R183, R49; one observation for
each step is notes/assumptions/19.md). -/
def Obligations.HuntForgetsThePast : Prop :=
  ∀ (s t : State) (k : Nat), t.cfg = s.cfg → t.inputs = s.inputs → t.out = s.out →
    (s.cfg.cdcMode = .asyncFifo →
      t.mem = s.mem ∧ t.wr = s.wr ∧ t.rd = s.rd ∧ t.agree = s.agree ∧ t.resets = s.resets) →
    s.core.st = .hunt → t.core.st = .hunt → observeOver k s = observeOver k t

/-- The readings the block emits are those of the software FrameDecoder's calls on the same bytes, in order (R105). That a
call which would read past the end of the bytes is not made is the model's choice (notes/assumptions/17.md). -/
def Obligations.ReadingsMatchTheSoftware : Prop :=
  ∀ (s : State) (bs : List Byte) (rest : List Edge),
    s.cfg.cdcMode = .none → s.core.st = .hunt → s.inputs = byteEdges bs ++ rest →
    readingsOf (outsOver bs.length s) = softwareReadings s.cfg bs

/-- Two cycles with `rd_valid = 1` are at least 9 `clk` cycles apart, and two cycles with any output at least 2 (R211,
R48), with or without the FIFO: `clk` edges alone are counted, whatever `wclk` edges stand between them. The edges `es`
and the `clk` edge `e'` after them follow the edge whose output `t` shows. -/
def Obligations.OutputsKeepTheirDistance : Prop :=
  ∀ (s t u : State) (e e' : Edge) (es rest : List Edge),
    s.inputs = e :: es ++ e' :: rest → e.hasClk = true → e'.hasClk = true →
    step s = .next t → core.run (es.length + 1) t = .next u →
    (t.out.rdValid = true → (es.filter Edge.hasClk).length ≤ 7 → u.out.rdValid = false) ∧
    (outOf t.out ≠ none → (∀ x ∈ es, x.hasClk = false) → outOf u.out = none)

-- ---------------------------------------------------------------- the FIFO

/-- Every step keeps the FIFO's invariant, at every edge and through every reset (R150, R157, R163; what the invariant
says after a one-sided reset is notes/assumptions/6.md). -/
def Obligations.StepKeepsFifoInvariant : Prop :=
  ∀ s t : State, FifoInv s → step s = .next t → FifoInv t

/-- The FIFO's invariant holds right after reset, for every legal parameter record (R151). That the reset state counts as in
agreement and in its reset interval is the model's bookkeeping (notes/assumptions/6.md). -/
def Obligations.ResetHasFifoInvariant : Prop :=
  ∀ cfg : Config, cfg.wf = true → FifoInv (State.resetWith cfg) ∧ (State.resetWith cfg).agree = true

/-- In agreement, with the FIFO present, no step stops: no unwritten slot is ever read (R151, R163, R180). -/
def Obligations.AgreeingFifoNeverStops : Prop :=
  ∀ s : State, s.cfg.cdcMode = .asyncFifo → FifoInv s → s.agree = true → SafeStep s

/-- In agreement and not full, WPUSH overwrites no waiting byte: every slot from `rptr` to `wptr` reads as before, and the
waiting bytes are those of before followed by the new one (R163). -/
def Obligations.PushNeverHitsAWaitingByte : Prop :=
  ∀ (s : State) (d : Byte), FifoInv s → s.agree = true → fullW s = false →
    ∃ t, exec (.wpush d) s = .next t ∧
      (∀ k < ptrDist s.cfg s.rd.rptr s.wr.wptr,
        slotOf s.cfg (s.rd.rptr + k) ≠ slotOf s.cfg s.wr.wptr ∧
        Memory.read t.mem (slotOf s.cfg (s.rd.rptr + k)) = Memory.read s.mem (slotOf s.cfg (s.rd.rptr + k))) ∧
      queueOf t = queueOf s ++ [d]

/-- The overflow flag is set only by an edge that runs WDROP and cleared only by one that runs WRESET (R158). -/
def Obligations.OverflowFlagIsSticky : Prop :=
  ∀ s t : State, step s = .next t →
    (s.wr.wrOvf = false → t.wr.wrOvf = true → ∃ d, .wdrop d ∈ nextOps s) ∧
    (s.wr.wrOvf = true → t.wr.wrOvf = false → ∃ v f d, .wreset v f d ∈ nextOps s)

/-- `bin` inverts `gray` on pointers of any width, and both stay within it (R159). -/
def Obligations.GrayCodeRoundTrip : Prop :=
  ∀ w n : Nat, n < 2 ^ w → gray n < 2 ^ w ∧ bin w (gray n) = n ∧ bin w n < 2 ^ w ∧ gray (bin w n) = n

/-- The Gray codes of consecutive values, modulo `2^w`, differ in exactly one bit (R159). -/
def Obligations.GrayNeighboursDifferInOneBit : Prop :=
  ∀ w n : Nat, 1 ≤ w → n < 2 ^ w → ∃ k < w, gray n ^^^ gray ((n + 1) % 2 ^ w) = 2 ^ k

/-- Every view that lags is advanced (R154, R155, R164, R165), over any edges without reset. `N` edges of its own clock
bring a side's view up to the other side's pointer when the other clock does not rise; when it does, to a value which that
pointer held at the start or since. So every such run is the beginning of a fair behaviour of the abstract model of R164,
with the same outputs. -/
def Obligations.ViewsCatchUpInNStages : Prop :=
  ∀ (s : State) (es rest : List Edge), s.cfg.cdcMode = .asyncFifo → FifoInv s → s.agree = true →
    s.inputs = es ++ rest → (∀ e ∈ es, e.noReset = true) →
    ∃ t, core.run es.length s = .next t ∧
      (es.length = s.cfg.syncStages → (∀ e ∈ es, ∃ c, e = .clk c) → wview t = s.wr.wptr) ∧
      (es.length = s.cfg.syncStages → (∀ e ∈ es, ∃ w, e = .wclk w) → rview t = s.rd.rptr) ∧
      (s.cfg.syncStages ≤ (es.filter fun e => e.clkPart.isSome).length →
        ∃ j u, j ≤ es.length ∧ core.run j s = .next u ∧ wview t = u.wr.wptr) ∧
      (s.cfg.syncStages ≤ (es.filter fun e => e.wclkPart.isSome).length →
        ∃ j u, j ≤ es.length ∧ core.run j s = .next u ∧ rview t = u.rd.rptr) ∧
      ∃ (a : Nat → AbsFifo) (o : Nat → List Out) (n : Nat), AbsBehaves s.cfg a o ∧ AbsFair a ∧
        a 0 = AbsFifo.ofState s ∧ a n = AbsFifo.ofState t ∧ (List.range n).flatMap o = outsOver es.length s

/-- The loss law: over any run without reset, in agreement, the bytes waiting at the start followed by those pushed are
the bytes popped followed by those waiting at the end; and the core has taken exactly the popped bytes (R69, R157). -/
def Obligations.FifoDeliversInOrder : Prop :=
  ∀ (s : State) (es rest : List Edge), s.cfg.cdcMode = .asyncFifo → FifoInv s → s.agree = true →
    s.inputs = es ++ rest → (∀ e ∈ es, e.noReset = true) →
    ∃ t, core.run es.length s = .next t ∧ t.inputs = rest ∧
      queueOf s ++ bytesOver pushedByte es.length s = bytesOver poppedByte es.length s ++ queueOf t ∧
      (t.core : Machine.Core) = streamCore s.cfg s.core (bytesOver poppedByte es.length s) ∧
      outsOver es.length s = decodeStream s.cfg s.core (bytesOver poppedByte es.length s)

/-- Every edge without reset of a FIFO in agreement is a run of the abstract model of R164, with the same outputs. -/
def Obligations.EdgesRefineTheAbstractFifo : Prop :=
  ∀ (s t : State) (e : Edge) (rest : List Edge), s.cfg.cdcMode = .asyncFifo → FifoInv s → s.agree = true →
    s.inputs = e :: rest → e.noReset = true → step s = .next t →
    AbsRun s.cfg (AbsFifo.ofState s) (outsOver 1 s) (AbsFifo.ofState t)

/-- Reset brings the block to its reset state from any register contents (R200, R201, R203). With the FIFO, any edges that
all assert their reset and include a rise of each clock give every register its reset value, and the storage no value
(notes/assumptions/7.md); if they are a joint reset, the block is in its reset state, which counts as in agreement
(notes/assumptions/6.md). Without the FIFO, one `clk` edge or more with `rst = 1` give every register its reset value. -/
def Obligations.ResetReachesTheResetState : Prop :=
  ∀ (s : State) (es : List Edge), s.inputs = es → (∀ e ∈ es, e.allReset = true) →
    (s.cfg.cdcMode = .asyncFifo → (∃ e ∈ es, e.clkPart ≠ none) → (∃ e ∈ es, e.wclkPart ≠ none) →
      ∃ (agree : Bool) (l : ResetLog),
        core.run es.length s = .next { State.resetWith s.cfg with agree := agree, resets := l }) ∧
    (s.cfg.cdcMode = .asyncFifo → JointReset (s.cfg.syncStages + 1) es →
      core.run es.length s = .next (State.resetWith s.cfg)) ∧
    (s.cfg.cdcMode = .none → es ≠ [] → (∀ e ∈ es, ∃ c, e = .clk c) →
      ∃ t, core.run es.length s = .next t ∧ (t.core : Machine.Core) = Core.reset ∧ t.out = Outputs.reset)

/-- The reset values of R46 and R151, for every parameter record; that no slot of the storage has a value is the model's
reading of R151 (notes/assumptions/7.md). -/
def Obligations.ResetValuesAreThoseOfTheSpec : Prop :=
  ∀ cfg : Config,
    let s := State.resetWith cfg
    s.cfg = cfg ∧ s.core.st.code = 0b00 ∧ s.core.idx = 0 ∧ s.core.sum = 0x00 ∧
    (∀ i, s.core.pl.get i = 0x00) ∧ s.out.rdValid = false ∧ s.out.rdDistance = 0x0000 ∧ s.out.rdStrength = 0x0000 ∧
    s.out.ev.code = 0b00 ∧ s.wr.wptr = 0 ∧ s.wr.wptrG = 0 ∧ s.wr.rq = List.replicate cfg.syncStages 0 ∧
    s.wr.wrOvf = false ∧ s.rd.rptr = 0 ∧ s.rd.rptrG = 0 ∧ s.rd.wq = List.replicate cfg.syncStages 0 ∧
    (∀ a, Memory.read s.mem a = none)
end

