-- ==== Sys2Proof/Laws/Encoding.lean ====
section
/-! SUPPORT. The fields of the words the encoder lays out, and a word put together again from its fields. -/

namespace Sys2Proof

@[simp] theorem keyBits_st (st : BitVec 2) (idx : BitVec 3) (b : Byte) :
    (keyBits st idx b).extractLsb' 11 2 = st := by
  unfold keyBits; grind

@[simp] theorem keyBits_idx (st : BitVec 2) (idx : BitVec 3) (b : Byte) :
    (keyBits st idx b).extractLsb' 8 3 = idx := by
  unfold keyBits; grind

@[simp] theorem keyBits_byte (st : BitVec 2) (idx : BitVec 3) (b : Byte) :
    (keyBits st idx b).extractLsb' 0 8 = b := by
  unfold keyBits; grind

@[simp] theorem keyBits_idx_high (st : BitVec 2) (idx : BitVec 3) (b : Byte) :
    (keyBits st idx b).extractLsb' 10 1 = idx.extractLsb' 2 1 := by
  unfold keyBits; grind

@[simp] theorem keyBits_idx_low2 (st : BitVec 2) (idx : BitVec 3) (b : Byte) :
    (keyBits st idx b).extractLsb' 8 2 = idx.extractLsb' 0 2 := by
  unfold keyBits; grind

@[simp] theorem keyBits_idx_low1 (st : BitVec 2) (idx : BitVec 3) (b : Byte) :
    (keyBits st idx b).extractLsb' 8 1 = idx.extractLsb' 0 1 := by
  unfold keyBits; grind

@[simp] theorem keyWord_unit (k : BitVec 13) :
    (keyWord k).extractLsb' 13 3 = 0#3 := by
  unfold keyWord; grind

@[simp] theorem keyWord_key (k : BitVec 13) :
    (keyWord k).extractLsb' 0 13 = k := by
  unfold keyWord; grind

@[simp] theorem corePortWord_unit (u : BitVec 3) (p : BitVec 10) :
    (corePortWord u p).extractLsb' 13 3 = u := by
  unfold corePortWord; grind

@[simp] theorem corePortWord_spare (u : BitVec 3) (p : BitVec 10) :
    (corePortWord u p).extractLsb' 10 3 = 0#3 := by
  unfold corePortWord; grind

@[simp] theorem corePortWord_port (u : BitVec 3) (p : BitVec 10) :
    (corePortWord u p).extractLsb' 0 10 = p := by
  unfold corePortWord; grind

@[simp] theorem writePortWord_unit (u : BitVec 3) (p : BitVec 11) :
    (writePortWord u p).extractLsb' 13 3 = u := by
  unfold writePortWord; grind

@[simp] theorem writePortWord_spare (u : BitVec 3) (p : BitVec 11) :
    (writePortWord u p).extractLsb' 11 2 = 0#2 := by
  unfold writePortWord; grind

@[simp] theorem writePortWord_port (u : BitVec 3) (p : BitVec 11) :
    (writePortWord u p).extractLsb' 0 11 = p := by
  unfold writePortWord; grind

@[simp] theorem corePortBits_rst (r v : Bool) (d : Byte) :
    (corePortBits r v d)[9] = r := by
  unfold corePortBits; grind

@[simp] theorem corePortBits_valid (r v : Bool) (d : Byte) :
    (corePortBits r v d)[8] = v := by
  unfold corePortBits; grind

@[simp] theorem corePortBits_data (r v : Bool) (d : Byte) :
    (corePortBits r v d).extractLsb' 0 8 = d := by
  unfold corePortBits; grind

@[simp] theorem writePortBits_wrst (r v f : Bool) (d : Byte) :
    (writePortBits r v f d)[10] = r := by
  unfold writePortBits; grind

@[simp] theorem writePortBits_valid (r v f : Bool) (d : Byte) :
    (writePortBits r v f d)[9] = v := by
  unfold writePortBits; grind

@[simp] theorem writePortBits_full (r v f : Bool) (d : Byte) :
    (writePortBits r v f d)[8] = f := by
  unfold writePortBits; grind

@[simp] theorem writePortBits_data (r v f : Bool) (d : Byte) :
    (writePortBits r v f d).extractLsb' 0 8 = d := by
  unfold writePortBits; grind

theorem keyBits_of_fields (k : BitVec 13) :
    keyBits (k.extractLsb' 11 2) (k.extractLsb' 8 3) (k.extractLsb' 0 8) = k := by
  unfold keyBits; grind

theorem keyWord_of_fields (w : EventWord) (h : w.extractLsb' 13 3 = 0#3) :
    keyWord (w.extractLsb' 0 13) = w := by
  unfold keyWord; grind

theorem corePortWord_of_fields (w : EventWord) (h : w.extractLsb' 10 3 = 0#3) :
    corePortWord (w.extractLsb' 13 3) (w.extractLsb' 0 10) = w := by
  unfold corePortWord; grind

theorem writePortWord_of_fields (w : EventWord) (h : w.extractLsb' 11 2 = 0#2) :
    writePortWord (w.extractLsb' 13 3) (w.extractLsb' 0 11) = w := by
  unfold writePortWord; grind

theorem corePortBits_of_fields (p : BitVec 10) :
    corePortBits (p.getLsbD 9) (p.getLsbD 8) (p.extractLsb' 0 8) = p := by
  unfold corePortBits; grind

theorem writePortBits_of_fields (p : BitVec 11) :
    writePortBits (p.getLsbD 10) (p.getLsbD 9) (p.getLsbD 8) (p.extractLsb' 0 8) = p := by
  unfold writePortBits; grind

end Sys2Proof
end

