-- ==== Sys2Proof/Laws/Fetch.lean ====
section
/-! SUPPORT. What each unit's decoder makes of the word it is given at an edge, said once. -/

namespace Sys2Proof.Machine

theorem opOf_key (s : State) (key : BitVec 13) :
    opOf s (keyWord key) = [decodeKey s.cfg.header s.core.sum key] := by
  simp [opOf, decode?, decode]

theorem opOf_core (s : State) (rst v : Bool) (d : Byte) :
    opOf s (corePortWord coreUnit (corePortBits rst v d)) =
      if rst then [.reset v d] else if v then [] else [.idle d] := by
  cases rst <;> cases v <;> simp [opOf, decode?, decode, decodeCorePort, coreUnit, popUnit, readSyncUnit]

theorem opOf_pop (s : State) (rst v : Bool) (d : Byte) :
    opOf s (corePortWord popUnit (corePortBits rst v d)) =
      if s.cfg.cdcMode = .asyncFifo ∧ rst = false ∧ v = true then [.rpop d] else [] := by
  cases h : s.cfg.cdcMode <;> cases rst <;> cases v <;> simp [opOf, decode?, decode, decodeCorePort, coreUnit, popUnit, readSyncUnit, h]

theorem opOf_readSync (s : State) (rst v : Bool) (d : Byte) :
    opOf s (corePortWord readSyncUnit (corePortBits rst v d)) =
      if s.cfg.cdcMode = .asyncFifo ∧ rst = false then [.rsync v d] else [] := by
  cases h : s.cfg.cdcMode <;> cases rst <;> simp [opOf, decode?, decode, decodeCorePort, coreUnit, popUnit, readSyncUnit, h]

theorem opOf_write (s : State) (wrst v f : Bool) (d : Byte) (h : s.cfg.cdcMode = .asyncFifo) :
    opOf s (writePortWord writeUnit (writePortBits wrst v f d)) =
      if wrst then [.wreset v f d] else if v then [if f then .wdrop d else .wpush d] else [] := by
  cases wrst <;> cases v <;> cases f <;> simp [opOf, decode?, decode, decodeWritePort, coreUnit, popUnit, readSyncUnit, writeUnit, writeSyncUnit, h]

theorem opOf_writeSync (s : State) (wrst v f : Bool) (d : Byte) (h : s.cfg.cdcMode = .asyncFifo) :
    opOf s (writePortWord writeSyncUnit (writePortBits wrst v f d)) =
      if wrst then [] else [.wsync v f d] := by
  cases wrst <;> simp [opOf, decode?, decode, decodeWritePort, coreUnit, popUnit, readSyncUnit, writeUnit, writeSyncUnit, h]

/-- The core does exactly one operation at every `clk` edge (R85): the key's, RESET or IDLE. -/
theorem opOf_coreWord (s : State) (p : ClkIn) :
    opOf s (coreWord s p) =
      [if p.acc then decodeKey s.cfg.header s.core.sum (keyBits s.core.st.code s.core.idx p.inData)
       else if p.rst then .reset p.inValid p.inData else .idle p.inData] := by
  unfold coreWord
  cases hr : p.rst <;> cases hv : p.inValid <;> simp [ClkIn.acc, hr, hv, opOf_key, opOf_core]

/-- The operation a key selects in each state of the core (R86). -/
theorem decodeKey_hunt (h sum : Byte) (idx : BitVec 3) (b : Byte) :
    decodeKey h sum (keyBits St.hunt.code idx b) = if b = h then .sync1 idx b else .skip idx b := by
  simp [decodeKey, St.code]

theorem decodeKey_hdr2 (h sum : Byte) (idx : BitVec 3) (b : Byte) :
    decodeKey h sum (keyBits St.hdr2.code idx b) = if b = h then .sync2 idx b else .desync idx b := by
  simp [decodeKey, St.code]

theorem decodeKey_body (h sum : Byte) (idx : BitVec 3) (b : Byte) :
    decodeKey h sum (keyBits St.body.code idx b) =
      if idx < 4#3 then .capture (idx.extractLsb' 0 2) b
      else if idx = 4#3 then .pad b
      else if idx = 5#3 then .last b
      else .lastUnreachable (idx.extractLsb' 0 1) b := by
  have hx : ∀ i : BitVec 3, i.extractLsb' 2 1 = 0#1 ↔ i < 4#3 := by decide
  simp [decodeKey, St.code, hx]

theorem decodeKey_csum (h sum : Byte) (idx : BitVec 3) (b : Byte) :
    decodeKey h sum (keyBits St.csum.code idx b) = if b = sum then .checkOk idx b else .checkBad idx b := by
  simp [decodeKey, St.code]

end Sys2Proof.Machine
end

