-- ==== Sys2Proof/Laws/State.lean ====
section
/-! SUPPORT. One lemma per field of State for each update the meanings use, true by rfl. -/

namespace Sys2Proof.Machine

@[simp] theorem State.tick_cfg (s : State) : (s.tick).cfg = s.cfg := rfl
@[simp] theorem State.tick_inputs (s : State) : (s.tick).inputs = s.inputs := rfl
@[simp] theorem State.tick_core (s : State) : (s.tick).core = s.core := rfl
@[simp] theorem State.tick_out (s : State) : (s.tick).out = { s.out with rdValid := false, ev := .none } := rfl
@[simp] theorem State.tick_mem (s : State) : (s.tick).mem = s.mem := rfl
@[simp] theorem State.tick_wr (s : State) : (s.tick).wr = s.wr := rfl
@[simp] theorem State.tick_rd (s : State) : (s.tick).rd = s.rd := rfl
@[simp] theorem State.tick_agree (s : State) : (s.tick).agree = s.agree := rfl
@[simp] theorem State.tick_resets (s : State) : (s.tick).resets = s.resets := rfl

@[simp] theorem State.emit_cfg (s : State) (d g : Half) : (s.emit d g).cfg = s.cfg := rfl
@[simp] theorem State.emit_inputs (s : State) (d g : Half) : (s.emit d g).inputs = s.inputs := rfl
@[simp] theorem State.emit_core (s : State) (d g : Half) : (s.emit d g).core = s.core := rfl
@[simp] theorem State.emit_out (s : State) (d g : Half) : (s.emit d g).out = { s.out with rdValid := true, rdDistance := d, rdStrength := g } := rfl
@[simp] theorem State.emit_mem (s : State) (d g : Half) : (s.emit d g).mem = s.mem := rfl
@[simp] theorem State.emit_wr (s : State) (d g : Half) : (s.emit d g).wr = s.wr := rfl
@[simp] theorem State.emit_rd (s : State) (d g : Half) : (s.emit d g).rd = s.rd := rfl
@[simp] theorem State.emit_agree (s : State) (d g : Half) : (s.emit d g).agree = s.agree := rfl
@[simp] theorem State.emit_resets (s : State) (d g : Half) : (s.emit d g).resets = s.resets := rfl

@[simp] theorem State.event_cfg (s : State) (c : Ev) : (s.event c).cfg = s.cfg := rfl
@[simp] theorem State.event_inputs (s : State) (c : Ev) : (s.event c).inputs = s.inputs := rfl
@[simp] theorem State.event_core (s : State) (c : Ev) : (s.event c).core = s.core := rfl
@[simp] theorem State.event_out (s : State) (c : Ev) : (s.event c).out = { s.out with ev := c } := rfl
@[simp] theorem State.event_mem (s : State) (c : Ev) : (s.event c).mem = s.mem := rfl
@[simp] theorem State.event_wr (s : State) (c : Ev) : (s.event c).wr = s.wr := rfl
@[simp] theorem State.event_rd (s : State) (c : Ev) : (s.event c).rd = s.rd := rfl
@[simp] theorem State.event_agree (s : State) (c : Ev) : (s.event c).agree = s.agree := rfl
@[simp] theorem State.event_resets (s : State) (c : Ev) : (s.event c).resets = s.resets := rfl

@[simp] theorem State.setCore_cfg (s : State) (c : Core) : (s.setCore c).cfg = s.cfg := rfl
@[simp] theorem State.setCore_inputs (s : State) (c : Core) : (s.setCore c).inputs = s.inputs := rfl
@[simp] theorem State.setCore_core (s : State) (c : Core) : (s.setCore c).core = c := rfl
@[simp] theorem State.setCore_out (s : State) (c : Core) : (s.setCore c).out = s.out := rfl
@[simp] theorem State.setCore_mem (s : State) (c : Core) : (s.setCore c).mem = s.mem := rfl
@[simp] theorem State.setCore_wr (s : State) (c : Core) : (s.setCore c).wr = s.wr := rfl
@[simp] theorem State.setCore_rd (s : State) (c : Core) : (s.setCore c).rd = s.rd := rfl
@[simp] theorem State.setCore_agree (s : State) (c : Core) : (s.setCore c).agree = s.agree := rfl
@[simp] theorem State.setCore_resets (s : State) (c : Core) : (s.setCore c).resets = s.resets := rfl

@[simp] theorem State.pushEdge_cfg (s : State) (e : Edge) : (s.pushEdge e).cfg = s.cfg := rfl
@[simp] theorem State.pushEdge_inputs (s : State) (e : Edge) : (s.pushEdge e).inputs = e :: s.inputs := rfl
@[simp] theorem State.pushEdge_core (s : State) (e : Edge) : (s.pushEdge e).core = s.core := rfl
@[simp] theorem State.pushEdge_out (s : State) (e : Edge) : (s.pushEdge e).out = s.out := rfl
@[simp] theorem State.pushEdge_mem (s : State) (e : Edge) : (s.pushEdge e).mem = s.mem := rfl
@[simp] theorem State.pushEdge_wr (s : State) (e : Edge) : (s.pushEdge e).wr = s.wr := rfl
@[simp] theorem State.pushEdge_rd (s : State) (e : Edge) : (s.pushEdge e).rd = s.rd := rfl
@[simp] theorem State.pushEdge_agree (s : State) (e : Edge) : (s.pushEdge e).agree = s.agree := rfl
@[simp] theorem State.pushEdge_resets (s : State) (e : Edge) : (s.pushEdge e).resets = s.resets := rfl

@[simp] theorem State.showHead_cfg (s : State) (r v : Bool) (d : Byte) :
    (s.showHead r v d).cfg = s.cfg := rfl
@[simp] theorem State.showHead_inputs (s : State) (r v : Bool) (d : Byte) :
    (s.showHead r v d).inputs = s.inputs := rfl
@[simp] theorem State.showHead_core (s : State) (r v : Bool) (d : Byte) :
    (s.showHead r v d).core = s.core := rfl
@[simp] theorem State.showHead_out (s : State) (r v : Bool) (d : Byte) :
    (s.showHead r v d).out = s.out := rfl
@[simp] theorem State.showHead_mem (s : State) (r v : Bool) (d : Byte) :
    (s.showHead r v d).mem = Memory.write s.mem (slotOf s.cfg s.rd.rptr) d := rfl
@[simp] theorem State.showHead_wr (s : State) (r v : Bool) (d : Byte) :
    (s.showHead r v d).wr = s.wr := rfl
@[simp] theorem State.showHead_agree (s : State) (r v : Bool) (d : Byte) :
    (s.showHead r v d).agree = (s.agree || (v && !r)) := rfl
@[simp] theorem State.showHead_resets (s : State) (r v : Bool) (d : Byte) :
    (s.showHead r v d).resets = s.resets := rfl
@[simp] theorem State.showHead_rd (s : State) (r v : Bool) (d : Byte) :
    (s.showHead r v d).rd = { s.rd with
      wq := setLastStage s.rd.wq (gray (if v then ptrSucc s.cfg s.rd.rptr else s.rd.rptr)) } := rfl

@[simp] theorem State.resetRead_cfg (s : State) : (s.resetRead).cfg = s.cfg := rfl
@[simp] theorem State.resetRead_inputs (s : State) : (s.resetRead).inputs = s.inputs := rfl
@[simp] theorem State.resetRead_core (s : State) : (s.resetRead).core = s.core := rfl
@[simp] theorem State.resetRead_out (s : State) : (s.resetRead).out = s.out := rfl
@[simp] theorem State.resetRead_mem (s : State) : (s.resetRead).mem = s.mem := rfl
@[simp] theorem State.resetRead_wr (s : State) : (s.resetRead).wr = s.wr := rfl
@[simp] theorem State.resetRead_rd (s : State) : (s.resetRead).rd = ReadSide.reset s.cfg.syncStages := rfl
@[simp] theorem State.resetRead_agree (s : State) : (s.resetRead).agree = s.agree := rfl
@[simp] theorem State.resetRead_resets (s : State) : (s.resetRead).resets = s.resets := rfl

@[simp] theorem State.resetWrite_cfg (s : State) : (s.resetWrite).cfg = s.cfg := rfl
@[simp] theorem State.resetWrite_inputs (s : State) : (s.resetWrite).inputs = s.inputs := rfl
@[simp] theorem State.resetWrite_core (s : State) : (s.resetWrite).core = s.core := rfl
@[simp] theorem State.resetWrite_out (s : State) : (s.resetWrite).out = s.out := rfl
@[simp] theorem State.resetWrite_mem (s : State) : (s.resetWrite).mem = [] := rfl
@[simp] theorem State.resetWrite_wr (s : State) : (s.resetWrite).wr = WriteSide.reset s.cfg.syncStages := rfl
@[simp] theorem State.resetWrite_rd (s : State) : (s.resetWrite).rd = s.rd := rfl
@[simp] theorem State.resetWrite_agree (s : State) : (s.resetWrite).agree = s.agree := rfl
@[simp] theorem State.resetWrite_resets (s : State) : (s.resetWrite).resets = s.resets := rfl

end Sys2Proof.Machine
end

