-- ==== Sys2Proof/Laws/Ops.lean ====
section
/-! SUPPORT. What each shared operation can do, said once. -/

namespace Sys2Proof.Machine

theorem Payload.get_set_same (p : Payload) (i : BitVec 2) (b : Byte) : (p.set i b).get i = b := by
  unfold Payload.set Payload.get
  split
  · rfl
  · split
    · rfl
    · split <;> rfl

theorem St.ofCode_code (st : St) : St.ofCode st.code = st := by
  cases st <;> rfl

theorem St.code_ofCode (c : BitVec 2) : (St.ofCode c).code = c := by
  revert c
  decide

/-- Everything the range policy can do (R131, R133): emit a reading, or raise `RANGE_DROP` under REJECT. -/
theorem State.applyPolicy_cases (s : State) (d g : Half) :
    (s.cfg.policy = .reject ∧ inRange s.cfg d = true ∧ s.applyPolicy d g = s.emit d g) ∨
    (s.cfg.policy = .reject ∧ inRange s.cfg d = false ∧ s.applyPolicy d g = s.event .rangeDrop) ∨
    (s.cfg.policy = .clamp ∧ s.applyPolicy d g = s.emit (clampDistance s.cfg d) g) := by
  unfold State.applyPolicy
  cases hp : s.cfg.policy <;> cases hr : inRange s.cfg d <;> simp

/-- The range policy writes the output registers only. -/
theorem State.applyPolicy_frame (s : State) (d g : Half) :
    s.applyPolicy d g = { s with out := (s.applyPolicy d g).out } := by
  rcases s.applyPolicy_cases d g with ⟨_, _, h⟩ | ⟨_, _, h⟩ | ⟨_, h⟩ <;> rw [h] <;> rfl

@[simp] theorem State.applyPolicy_cfg (s : State) (d g : Half) : (s.applyPolicy d g).cfg = s.cfg := by
  rw [s.applyPolicy_frame d g]

@[simp] theorem State.applyPolicy_inputs (s : State) (d g : Half) : (s.applyPolicy d g).inputs = s.inputs := by
  rw [s.applyPolicy_frame d g]

@[simp] theorem State.applyPolicy_core (s : State) (d g : Half) : (s.applyPolicy d g).core = s.core := by
  rw [s.applyPolicy_frame d g]

@[simp] theorem State.applyPolicy_mem (s : State) (d g : Half) : (s.applyPolicy d g).mem = s.mem := by
  rw [s.applyPolicy_frame d g]

@[simp] theorem State.applyPolicy_wr (s : State) (d g : Half) : (s.applyPolicy d g).wr = s.wr := by
  rw [s.applyPolicy_frame d g]

@[simp] theorem State.applyPolicy_rd (s : State) (d g : Half) : (s.applyPolicy d g).rd = s.rd := by
  rw [s.applyPolicy_frame d g]

@[simp] theorem State.applyPolicy_agree (s : State) (d g : Half) : (s.applyPolicy d g).agree = s.agree := by
  rw [s.applyPolicy_frame d g]

@[simp] theorem State.applyPolicy_resets (s : State) (d g : Half) : (s.applyPolicy d g).resets = s.resets := by
  rw [s.applyPolicy_frame d g]

/-- A chain keeps its length when it shifts. -/
theorem shiftIn_length (g : Nat) (q : List Nat) : (shiftIn g q).length = q.length := by
  simp [shiftIn]

/-- A stage after a shift is the sampled value or an earlier stage. -/
theorem mem_shiftIn {g x : Nat} {q : List Nat} (h : x ∈ shiftIn g q) : x = g ∨ x ∈ q :=
  List.mem_cons.mp (List.mem_of_mem_take h)

/-- Each stage takes its predecessor, the first the sampled value (R154, R155). -/
theorem shiftIn_getElem? (g : Nat) (q : List Nat) (k : Nat) (h : k < q.length) : (shiftIn g q)[k]? = (g :: q)[k]? := by
  simp [shiftIn, h]

end Sys2Proof.Machine
end

