-- ==== Sys2Proof/Laws/PerInstr.lean ====
section
/-! SUPPORT. Facts about every operation as syntax, one lemma per constructor. Family EncodedUnit: the event word an
operation encodes to carries the number of the unit that performs it, so no two units share a word. -/

namespace Sys2Proof.Laws

/-- The unit field of the operation's event word is the operation's unit. -/
def EncodedUnit.Statement (i : Instr) : Prop := (encode i).extractLsb' 13 3 = i.unit

theorem EncodedUnit.sync1 (idx : BitVec 3) (b : Byte) : EncodedUnit.Statement (.sync1 idx b) := by
  simp [EncodedUnit.Statement, encode, Instr.unit]

theorem EncodedUnit.skip (idx : BitVec 3) (b : Byte) : EncodedUnit.Statement (.skip idx b) := by
  simp [EncodedUnit.Statement, encode, Instr.unit]

theorem EncodedUnit.sync2 (idx : BitVec 3) (b : Byte) : EncodedUnit.Statement (.sync2 idx b) := by
  simp [EncodedUnit.Statement, encode, Instr.unit]

theorem EncodedUnit.desync (idx : BitVec 3) (b : Byte) : EncodedUnit.Statement (.desync idx b) := by
  simp [EncodedUnit.Statement, encode, Instr.unit]

theorem EncodedUnit.capture (i : BitVec 2) (b : Byte) : EncodedUnit.Statement (.capture i b) := by
  simp [EncodedUnit.Statement, encode, Instr.unit]

theorem EncodedUnit.pad (b : Byte) : EncodedUnit.Statement (.pad b) := by
  simp [EncodedUnit.Statement, encode, Instr.unit]

theorem EncodedUnit.last (b : Byte) : EncodedUnit.Statement (.last b) := by
  simp [EncodedUnit.Statement, encode, Instr.unit]

theorem EncodedUnit.lastUnreachable (i : BitVec 1) (b : Byte) : EncodedUnit.Statement (.lastUnreachable i b) := by
  simp [EncodedUnit.Statement, encode, Instr.unit]

theorem EncodedUnit.checkOk (idx : BitVec 3) (b : Byte) : EncodedUnit.Statement (.checkOk idx b) := by
  simp [EncodedUnit.Statement, encode, Instr.unit]

theorem EncodedUnit.checkBad (idx : BitVec 3) (b : Byte) : EncodedUnit.Statement (.checkBad idx b) := by
  simp [EncodedUnit.Statement, encode, Instr.unit]

theorem EncodedUnit.idle (d : Byte) : EncodedUnit.Statement (.idle d) := by
  simp [EncodedUnit.Statement, encode, Instr.unit]

theorem EncodedUnit.reset (v : Bool) (d : Byte) : EncodedUnit.Statement (.reset v d) := by
  simp [EncodedUnit.Statement, encode, Instr.unit]

theorem EncodedUnit.rpop (d : Byte) : EncodedUnit.Statement (.rpop d) := by
  simp [EncodedUnit.Statement, encode, Instr.unit]

theorem EncodedUnit.rsync (v : Bool) (d : Byte) : EncodedUnit.Statement (.rsync v d) := by
  simp [EncodedUnit.Statement, encode, Instr.unit]

theorem EncodedUnit.wpush (d : Byte) : EncodedUnit.Statement (.wpush d) := by
  simp [EncodedUnit.Statement, encode, Instr.unit]

theorem EncodedUnit.wdrop (d : Byte) : EncodedUnit.Statement (.wdrop d) := by
  simp [EncodedUnit.Statement, encode, Instr.unit]

theorem EncodedUnit.wsync (v : Bool) (f : Bool) (d : Byte) : EncodedUnit.Statement (.wsync v f d) := by
  simp [EncodedUnit.Statement, encode, Instr.unit]

theorem EncodedUnit.wreset (v : Bool) (f : Bool) (d : Byte) : EncodedUnit.Statement (.wreset v f d) := by
  simp [EncodedUnit.Statement, encode, Instr.unit]

end Sys2Proof.Laws
end

