-- ==== Sys2Proof/Laws/ResetLog.lean ====
section
/-! SUPPORT. What recording an edge can do, said once. -/

namespace Sys2Proof.Machine

/-- Recording an edge writes the record and the agreement bit only. -/
theorem State.noteEdge_frame (s : State) (e : Edge) (t : State) :
    s.noteEdge e t = { t with agree := (s.noteEdge e t).agree, resets := (s.noteEdge e t).resets } := by
  unfold State.noteEdge
  split <;> rfl

@[simp] theorem State.noteEdge_cfg (s : State) (e : Edge) (t : State) : (s.noteEdge e t).cfg = t.cfg := by
  rw [s.noteEdge_frame e t]

@[simp] theorem State.noteEdge_inputs (s : State) (e : Edge) (t : State) : (s.noteEdge e t).inputs = t.inputs := by
  rw [s.noteEdge_frame e t]

@[simp] theorem State.noteEdge_core (s : State) (e : Edge) (t : State) : (s.noteEdge e t).core = t.core := by
  rw [s.noteEdge_frame e t]

@[simp] theorem State.noteEdge_out (s : State) (e : Edge) (t : State) : (s.noteEdge e t).out = t.out := by
  rw [s.noteEdge_frame e t]

@[simp] theorem State.noteEdge_mem (s : State) (e : Edge) (t : State) : (s.noteEdge e t).mem = t.mem := by
  rw [s.noteEdge_frame e t]

@[simp] theorem State.noteEdge_wr (s : State) (e : Edge) (t : State) : (s.noteEdge e t).wr = t.wr := by
  rw [s.noteEdge_frame e t]

@[simp] theorem State.noteEdge_rd (s : State) (e : Edge) (t : State) : (s.noteEdge e t).rd = t.rd := by
  rw [s.noteEdge_frame e t]

/-- Without the FIFO an edge leaves no record. -/
theorem State.noteEdge_of_none {s : State} (h : s.cfg.cdcMode = .none) (e : Edge) (t : State) :
    s.noteEdge e t = t := by
  simp [State.noteEdge, h]

/-- Agreement after an edge of a block with the FIFO: a joint reset is complete, or the FIFO was in agreement and no
one-sided reset broke it. -/
theorem State.noteEdge_agree_cases {s t : State} {e : Edge} (h : s.cfg.cdcMode = .asyncFifo)
    (ha : (s.noteEdge e t).agree = true) :
    (s.noteEdge e t).resets.joint (s.cfg.syncStages + 1) = true ∨ (s.agree = true ∧ breaksAgreement e s t = false) := by
  simpa [State.noteEdge, h] using ha

/-- Only an edge of no clock at all leaves an overlap known without showing one. -/
theorem Meeting.pass_overlapped {m : Meeting} {r w : Option Bool} (h : m.pass r w = .overlapped) : m = .overlapped := by
  rcases r with _ | _ | _ <;> rcases w with _ | _ | _ <;> cases m <;> first | rfl | cases h

/-- The intervals are known to overlap after an edge if the edge shows it, or if they did and neither begins anew. -/
theorem ResetLog.next_overlapped_cases {l : ResetLog} {n : Nat} {r w : Option Bool}
    (h : (l.next n r w).meeting = .overlapped) :
    l.meets r w = true ∨ (l.meeting = .overlapped ∧ l.begins r w = false) := by
  simp only [ResetLog.next] at h
  split at h
  · rename_i hc
    simpa using hc
  · rename_i hc
    exact absurd (Meeting.pass_overlapped h) fun hm => by
      rcases r with _ | _ | _ <;> rcases w with _ | _ | _ <;> simp_all [ResetLog.begins, Meeting.pass]

/-- A side is recorded as in reset exactly by the last edge of its clock. -/
@[simp] theorem ResetLog.next_rstHeld (l : ResetLog) (n : Nat) (r w : Option Bool) :
    (l.next n r w).rstHeld = r.getD l.rstHeld := rfl
@[simp] theorem ResetLog.next_wrstHeld (l : ResetLog) (n : Nat) (r w : Option Bool) :
    (l.next n r w).wrstHeld = w.getD l.wrstHeld := rfl

end Sys2Proof.Machine
end

