-- ==== Sys2Proof/Laws/Step.lean ====
section
/-! SUPPORT. What the step's parts can answer, said once: every meaning answers a next state; a list of operations runs
in order; what `fetch` selects at each kind of edge. -/

namespace Sys2Proof.Machine

@[simp] theorem execAll_nil (s : State) : execAll [] s = .next s := rfl

@[simp] theorem execAll_cons (i : Instr) (is : List Instr) (s : State) :
    execAll (i :: is) s =
      (match exec i s with
       | .next t => execAll is t
       | .fault r => .fault r
       | .refused r => .refused r) := rfl

/-- No operation of the block faults or is refused (R180). -/
theorem exec_answers_next (i : Instr) (s : State) : ∃ t, exec i s = .next t := by
  cases i <;> exact ⟨_, rfl⟩

theorem execAll_answers_next (is : List Instr) (s : State) : ∃ t, execAll is s = .next t := by
  induction is generalizing s with
  | nil => exact ⟨s, rfl⟩
  | cons i is ih =>
    obtain ⟨t, ht⟩ := exec_answers_next i s
    simpa [ht] using ih t

theorem step_of_no_edge {s : State} (h : s.inputs = []) : step s = .next s := by
  simp [step, h]

theorem step_of_edge {s : State} {e : Edge} {rest : List Edge} (h : s.inputs = e :: rest) :
    step s = runEdge e { s with inputs := rest } := by
  simp [step, h]

/-- Inversion of a step that answers: no edge was lined up, or the first one's operations were selected and run, and its
resets recorded. -/
theorem step_next_cases {s t : State} (h : step s = .next t) :
    (s.inputs = [] ∧ t = s) ∨
    ∃ e rest is u, s.inputs = e :: rest ∧ fetch { s with inputs := rest } e = .next is ∧
      execAll is { s with inputs := rest } = .next u ∧ t = State.noteEdge { s with inputs := rest } e u := by
  cases hi : s.inputs with
  | nil =>
    rw [step_of_no_edge hi] at h
    exact .inl ⟨rfl, by injection h with h; exact h.symm⟩
  | cons e rest =>
    rw [step_of_edge hi, runEdge] at h
    cases hf : fetch { s with inputs := rest } e with
    | next is =>
      obtain ⟨u, hu⟩ := execAll_answers_next is { s with inputs := rest }
      simp only [hf, hu, closeEdge] at h
      injection h with h
      exact .inr ⟨e, rest, is, u, rfl, hf, hu, h.symm⟩
    | fault r => simp [hf] at h
    | refused r => simp [hf] at h

@[simp] theorem fifoPort_rst (s : State) (c : ClkIn) : (fifoPort s c).rst = c.rst := rfl
@[simp] theorem fifoPort_inValid (s : State) (c : ClkIn) : (fifoPort s c).inValid = notEmpty s := rfl
@[simp] theorem fifoPort_inData (s : State) (c : ClkIn) : (fifoPort s c).inData = headByte s c.inData := rfl

/-- The read port answers with the block's own ports, or with the FIFO's; a byte it lets the core accept stands in the
head slot of a FIFO in agreement (R156). -/
theorem readPort_next_cases {s : State} {c p : ClkIn} (h : readPort s c = .next p) :
    p.rst = c.rst ∧
    ((s.cfg.cdcMode = .none ∧ p = c) ∨
     (s.cfg.cdcMode = .asyncFifo ∧ p = fifoPort s c ∧
       (p.acc = true → s.agree = true ∧ Memory.read s.mem (slotOf s.cfg s.rd.rptr) = some p.inData))) := by
  unfold readPort at h
  split at h
  · rename_i hc
    injection h with h
    exact ⟨h ▸ rfl, .inl ⟨hc, h.symm⟩⟩
  · rename_i hc
    split at h
    · rename_i hv
      split at h
      · rename_i ha
        split at h
        · rename_i hm
          injection h with h
          subst h
          obtain ⟨b, hb⟩ := Option.isSome_iff_exists.mp hm
          exact ⟨rfl, .inr ⟨hc, rfl, fun _ => ⟨ha, by simp [headByte, hb]⟩⟩⟩
        · cases h
      · cases h
    · rename_i hv
      injection h with h
      subst h
      exact ⟨rfl, .inr ⟨hc, rfl, fun hp => absurd hp hv⟩⟩

end Sys2Proof.Machine
end

