-- ==== Sys2Proof/Tests/Slice0.lean ====
section
/-! SUPPORT. The model's own tests: ill-formed operations are refused, words written out from the spec's encodings
decode, one step of each operation on a small state, and a witness for the hypotheses of each statement. Expected values
come from 95_test_vectors.md and the rules' examples, or are worked by hand from the rule named. -/

namespace Sys2Proof.Tests

open Sys2Proof.Machine

-- ---------------------------------------------------------------- ill-formed operations (R86, R87)

theorem test_wf_refuses_sync1_without_header : Instr.wf tableConfig 0 (.sync1 0 0x58) = false := by decide
theorem test_wf_refuses_skip_of_header : Instr.wf tableConfig 0 (.skip 0 0x59) = false := by decide
theorem test_wf_refuses_sync2_without_header : Instr.wf tableConfig 0 (.sync2 0 0x12) = false := by decide
theorem test_wf_refuses_desync_of_header : Instr.wf tableConfig 0 (.desync 0 0x59) = false := by decide
theorem test_wf_refuses_checkOk_on_other_sum : Instr.wf tableConfig 0xC0 (.checkOk 0 0xC1) = false := by decide
theorem test_wf_refuses_checkBad_on_equal_sum : Instr.wf tableConfig 0xC0 (.checkBad 0 0xC0) = false := by decide
theorem test_wf_refuses_rpop_without_fifo : Instr.wf Config.default 0 (.rpop 0) = false := by decide
theorem test_wf_refuses_rsync_without_fifo : Instr.wf Config.default 0 (.rsync true 0) = false := by decide
theorem test_wf_refuses_wpush_without_fifo : Instr.wf Config.default 0 (.wpush 0) = false := by decide
theorem test_wf_refuses_wdrop_without_fifo : Instr.wf Config.default 0 (.wdrop 0) = false := by decide
theorem test_wf_refuses_wsync_without_fifo : Instr.wf Config.default 0 (.wsync true false 0) = false := by decide
theorem test_wf_refuses_wreset_without_fifo : Instr.wf Config.default 0 (.wreset false false 0) = false := by decide

-- ---------------------------------------------------------------- decoding, bit by bit from opcode_table.json
-- key rows: 000 (unit 0), st, idx, byte; the sum register is 0xC0 where the row's condition reads it

theorem test_decode_sync1 : decode? tableConfig 0xC0 0b000_00_110_01011001#16 = some (.sync1 6 0x59) := by decide
theorem test_decode_skip : decode? tableConfig 0xC0 0b000_00_000_01011000#16 = some (.skip 0 0x58) := by decide
theorem test_decode_sync2 : decode? tableConfig 0xC0 0b000_01_000_01011001#16 = some (.sync2 0 0x59) := by decide
theorem test_decode_desync : decode? tableConfig 0xC0 0b000_01_001_00010010#16 = some (.desync 1 0x12) := by decide
theorem test_decode_capture : decode? tableConfig 0xC0 0b000_100_11_00000100#16 = some (.capture 3 0x04) := by decide
theorem test_decode_pad : decode? tableConfig 0xC0 0b000_10100_11111111#16 = some (.pad 0xFF) := by decide
theorem test_decode_last : decode? tableConfig 0xC0 0b000_10101_01011001#16 = some (.last 0x59) := by decide
theorem test_decode_lastUnreachable :
    decode? tableConfig 0xC0 0b000_1011_1_00000000#16 = some (.lastUnreachable 1 0x00) := by decide
theorem test_decode_checkOk : decode? tableConfig 0xC0 0b000_11_000_11000000#16 = some (.checkOk 0 0xC0) := by decide
theorem test_decode_checkBad : decode? tableConfig 0xC0 0b000_11_000_11000001#16 = some (.checkBad 0 0xC1) := by decide
-- port rows: the unit's number, spare zeros, then the row's encoding string
theorem test_decode_idle : decode? tableConfig 0 0b001_000_00_00010010#16 = some (.idle 0x12) := by decide
theorem test_decode_reset : decode? tableConfig 0 0b001_000_11_00010010#16 = some (.reset true 0x12) := by decide
theorem test_decode_rpop : decode? tableConfig 0 0b010_000_01_00010010#16 = some (.rpop 0x12) := by decide
theorem test_decode_rsync : decode? tableConfig 0 0b011_000_01_00010010#16 = some (.rsync true 0x12) := by decide
theorem test_decode_wpush : decode? tableConfig 0 0b100_00_010_00010010#16 = some (.wpush 0x12) := by decide
theorem test_decode_wdrop : decode? tableConfig 0 0b100_00_011_00010010#16 = some (.wdrop 0x12) := by decide
theorem test_decode_wsync : decode? tableConfig 0 0b101_00_010_00010010#16 = some (.wsync true false 0x12) := by decide
theorem test_decode_wreset : decode? tableConfig 0 0b100_00_101_00010010#16 = some (.wreset false true 0x12) := by decide
theorem test_decode_rejects_unknown_unit : decode? tableConfig 0 0b110_0000000000000#16 = none := by decide
theorem test_decode_rejects_stray_bit : decode? tableConfig 0 0b001_100_00_00000000#16 = none := by decide
theorem test_decode_rejects_fifo_word_without_fifo :
    decode? Config.default 0 0b100_00_010_00010010#16 = none := by decide

/-- The table's `match` values, as the host numbers them, and the step that runs the first of them after reset. -/
theorem test_table_words :
    [0x0059, 0x0000, 0x0859, 0x0800, 0x1000, 0x1400, 0x1500, 0x1600, 0x1800, 0x1801].map (decodeTableWord 16) =
      [some (.sync1 0 0x59), some (.skip 0 0), some (.sync2 0 0x59), some (.desync 0 0), some (.capture 0 0),
       some (.pad 0), some (.last 0), some (.lastUnreachable 0 0), some (.checkOk 0 0), some (.checkBad 0 1)] := by
  decide

-- ---------------------------------------------------------------- helpers

/-- Does the outcome answer a state with this property? -/
def nextHas (p : State → Bool) : Host.Outcome State Fault Refusal → Bool
  | .next t => p t
  | .fault _ => false
  | .refused _ => false

/-- Default parameters with this policy, no FIFO. -/
def plainConfig (p : Policy) : Config := { Config.default with policy := p }

/-- A FIFO of 4 slots and 2 synchronizer stages. -/
def fifoConfig : Config := { Config.default with cdcMode := .asyncFifo, fifoAw := 2 }

/-- A core of the block without the FIFO. -/
def coreState (st : St) (idx : BitVec 3) (sum : Byte) (pl : Payload) : State :=
  { State.resetWith (plainConfig .reject) with core := ⟨st, idx, sum, pl⟩ }

/-- The record after a joint reset of `N + 1 = 3` edges, both sides released. -/
def released : ResetLog := ⟨false, false, 3, 3, .overlapped⟩

/-- A FIFO in agreement: two bytes waiting in slots 1 and 2, both views up to date, nothing in reset. -/
def busyFifo : State :=
  { State.resetWith fifoConfig with
    mem := [(1, 0x59), (2, 0x04)]
    wr := ⟨3, gray 3, [gray 1, gray 1], false⟩
    rd := ⟨1, gray 1, [gray 3, gray 3]⟩
    resets := released }

/-- A full FIFO as the write side sees it: four bytes waiting. -/
def fullFifo : State :=
  { State.resetWith fifoConfig with
    mem := [(0, 0x59), (1, 0x59), (2, 0x04), (3, 0x00)]
    wr := ⟨4, gray 4, [0, 0], false⟩
    rd := ⟨0, 0, [gray 4, gray 4]⟩
    resets := released }

/-- A `clk` edge without reset and without a byte on the ports. -/
def quietClk : Edge := .clk ⟨false, false, 0x00⟩

-- ---------------------------------------------------------------- one operation each

/-- R101 example. -/
theorem test_sync1 : nextHas (fun t => t.core.st == .hdr2 && t.core.sum == 0x59)
    (exec (.sync1 0 0x59) State.reset) = true := by decide
/-- R103 example (V-S2). -/
theorem test_skip : nextHas (fun t => t == State.reset) (exec (.skip 0 0x12) State.reset) = true := by decide
/-- R102 example (V-S4). -/
theorem test_sync2 : nextHas (fun t => t.core.st == .body && t.core.idx == 0 && t.core.sum == 0xB2)
    (exec (.sync2 0 0x59) (coreState .hdr2 0 0x59 ⟨0, 0, 0, 0⟩)) = true := by decide
/-- R104 example (V-S5). -/
theorem test_desync : nextHas (fun t => t.core.st == .hunt && t.out.ev == .syncFail)
    (exec (.desync 0 0x12) (coreState .hdr2 0 0x59 ⟨0, 0, 0, 0⟩)) = true := by decide
/-- R120 example. -/
theorem test_capture : nextHas (fun t => t.core == ⟨.body, 1, 0xB6, ⟨0x04, 0, 0, 0⟩⟩)
    (exec (.capture 0 0x04) (coreState .body 0 0xB2 ⟨0, 0, 0, 0⟩)) = true := by decide
/-- R120: the last captured byte goes to `pl[3]`, the index to 4, and the sum wraps. -/
theorem test_capture_last : nextHas (fun t => t.core == ⟨.body, 4, 0x0F, ⟨1, 2, 3, 0xFF⟩⟩)
    (exec (.capture 3 0xFF) (coreState .body 3 0x10 ⟨1, 2, 3, 0⟩)) = true := by decide
/-- R121: the byte enters the sum only. -/
theorem test_pad : nextHas (fun t => t.core == ⟨.body, 5, 0xBF, ⟨4, 0, 10, 0⟩⟩)
    (exec (.pad 0xFF) (coreState .body 4 0xC0 ⟨4, 0, 10, 0⟩)) = true := by decide
/-- R122 example. -/
theorem test_last : nextHas (fun t => t.core == ⟨.csum, 0, 0xC0, ⟨4, 0, 10, 0⟩⟩)
    (exec (.last 0x00) (coreState .body 5 0xC0 ⟨4, 0, 10, 0⟩)) = true := by decide
/-- R123: as R122. -/
theorem test_lastUnreachable : nextHas (fun t => t.core == ⟨.csum, 0, 0xC1, ⟨4, 0, 10, 0⟩⟩)
    (exec (.lastUnreachable 1 0x01) (coreState .body 7 0xC0 ⟨4, 0, 10, 0⟩)) = true := by decide
/-- R130 example (V-F1). -/
theorem test_checkOk_emits : nextHas (fun t => t.out == ⟨true, 4, 10, .none⟩ && t.core.st == .hunt)
    (exec (.checkOk 0 0xC0) (coreState .csum 0 0xC0 ⟨4, 0, 10, 0⟩)) = true := by decide
/-- R131 example: distance 1200 is dropped (V-F6). -/
theorem test_checkOk_rejects : nextHas (fun t => t.out == ⟨false, 0, 0, .rangeDrop⟩)
    (exec (.checkOk 0 0x67) (coreState .csum 0 0x67 ⟨0xB0, 0x04, 0, 1⟩)) = true := by decide
/-- R133 example: distance 1200 is capped at 70, strength 256 is not (V-F6). -/
theorem test_checkOk_clamps : nextHas (fun t => t.out == ⟨true, 70, 256, .none⟩)
    (exec (.checkOk 0 0x67) { coreState .csum 0 0x67 ⟨0xB0, 0x04, 0, 1⟩ with cfg := plainConfig .clamp }) = true := by
  decide
/-- R134 example (V-F2). -/
theorem test_checkBad : nextHas (fun t => t.out.ev == .csumErr && !t.out.rdValid && t.core.st == .hunt)
    (exec (.checkBad 0 0xC1) (coreState .csum 0 0xC0 ⟨4, 0, 10, 0⟩)) = true := by decide
/-- R100 example (V-S9). -/
theorem test_idle : nextHas (fun t => t.core == ⟨.body, 2, 0xB6, ⟨4, 0, 0, 0⟩⟩ && !t.out.rdValid)
    (exec (.idle 0x59) { coreState .body 2 0xB6 ⟨4, 0, 0, 0⟩ with out := ⟨true, 4, 10, .none⟩ }) = true := by decide
/-- R200 example (V-R1). -/
theorem test_reset : nextHas (fun t => t.core == Core.reset && t.out == Outputs.reset)
    (exec (.reset true 0x59) { coreState .body 3 0xC0 ⟨4, 0, 0, 0⟩ with out := ⟨true, 4, 10, .none⟩ }) = true := by
  decide
/-- R160 example: `rptr <- 0x04`; and V-C4: 4 becomes 5. -/
theorem test_rpop : nextHas (fun t => t.rd.rptr == 0x04 && t.rd.rptrG == 0x06)
    (exec (.rpop 0x00) { State.resetWith tableConfig with rd := ⟨3, gray 3, [0, 0]⟩ }) = true := by decide
/-- R155 example. -/
theorem test_rsync : nextHas (fun t => t.rd.wq == [0x02, 0x03])
    (exec (.rsync true 0x00)
      { State.resetWith tableConfig with wr := ⟨3, 0x02, [0, 0], false⟩, rd := ⟨0, 0, [0x03, 0x01]⟩ }) = true := by
  decide
/-- R152 example (V-C2): slot 15 is written and the pointer wraps. -/
theorem test_wpush : nextHas (fun t => t.mem == [(15, 0x59)] && t.wr.wptr == 0x00 && t.wr.wptrG == 0x00)
    (exec (.wpush 0x59) { State.resetWith tableConfig with wr := ⟨0x1F, gray 0x1F, [0, 0], false⟩ }) = true := by decide
/-- R153 example (V-C3). -/
theorem test_wdrop : nextHas (fun t => t.wr == ⟨0x10, gray 0x10, [0, 0], true⟩)
    (exec (.wdrop 0x59) { State.resetWith tableConfig with wr := ⟨0x10, gray 0x10, [0, 0], false⟩ }) = true := by decide
/-- R154 example. -/
theorem test_wsync : nextHas (fun t => t.wr.rq == [0x03, 0x01])
    (exec (.wsync false false 0x00)
      { State.resetWith tableConfig with wr := ⟨0, 0, [0x01, 0x00], false⟩, rd := ⟨2, 0x03, [0, 0]⟩ }) = true := by
  decide
/-- R161 example (V-C6). -/
theorem test_wreset : nextHas (fun t => t.wr == ⟨0, 0, [0, 0], false⟩ && t.mem == [])
    (exec (.wreset true false 0x59)
      { State.resetWith tableConfig with wr := ⟨5, gray 5, [0, 0], true⟩, mem := [(4, 0x59)] }) = true := by decide
/-- V-C1: the Gray code of 0 to 7, and its inverse. -/
theorem test_gray : (List.range 8).map gray = [0b000, 0b001, 0b011, 0b010, 0b110, 0b111, 0b101, 0b100] ∧
    (List.range 8).map (fun n => bin 3 (gray n)) = List.range 8 := by decide

-- ---------------------------------------------------------------- one step each

/-- V-R2: a byte presented in a reset cycle is lost. -/
theorem test_step_reset_wins : nextHas (fun t => t.core.st == .hunt)
    (step { State.reset with inputs := [.clk ⟨true, true, 0x59⟩] }) = true := by decide
/-- R156: the FIFO drives the core's inputs in a reset cycle too, whatever the environment puts there. -/
theorem test_read_port_in_reset :
    readPort busyFifo ⟨true, false, 0x0A⟩ = .next ⟨true, true, 0x59⟩ ∧
      readPort (State.resetWith fifoConfig) ⟨true, true, 0x0A⟩ = .next ⟨true, false, 0x0A⟩ := ⟨rfl, rfl⟩
/-- V-C4: `rptr = 4`, `wview = 0` modulo 8: a byte is popped. -/
theorem test_step_pops_across_the_wrap : nextHas (fun t => t.rd.rptr == 5)
    (step { fullFifo with
      mem := [(0, 0x59)], wr := ⟨0, 0, [gray 4, gray 4], false⟩, rd := ⟨4, gray 4, [0, 0]⟩
      inputs := [quietClk] }) = true := by decide
/-- V-C5: `rptr = wview`: no pop. -/
theorem test_step_no_pop_when_empty : nextHas (fun t => t.rd.rptr == 0 && t.core == Core.reset)
    (step { State.resetWith fifoConfig with inputs := [quietClk] }) = true := by decide
/-- R153 at the step: a byte presented to a full FIFO sets the flag and nothing else of the write pointer. -/
theorem test_step_drops_when_full : nextHas (fun t => t.wr.wrOvf && t.wr.wptr == 4)
    (step { fullFifo with inputs := [.wclk ⟨false, true, 0x0A⟩] }) = true := by decide
/-- R165: at coincident edges the first stage may take the pointer as it was or as it becomes. -/
theorem test_step_coincident_edges :
    nextHas (fun t => t.rd.wq.head? == some (gray 3) && t.wr.wptr == 4)
      (step { busyFifo with inputs := [.both ⟨false, false, 0⟩ ⟨false, true, 0x0A⟩ false false] }) = true ∧
    nextHas (fun t => t.rd.wq.head? == some (gray 4) && t.wr.rq.head? == some (gray 2))
      (step { busyFifo with inputs := [.both ⟨false, false, 0⟩ ⟨false, true, 0x0A⟩ true true] }) = true := by decide
/-- R201, R202: resets of the two sides that do not overlap are no joint reset, though they leave every register zero: one
`rst` edge, then, `rst` possibly released, `wrst` edges. -/
theorem test_step_separate_resets_are_not_joint :
    let w : Edge := .wclk ⟨true, false, 0⟩
    let es : List Edge := [.clk ⟨true, false, 0⟩, .wclk ⟨false, true, 0x0A⟩, w, w, w, quietClk]
    nextHas (fun t => !t.agree && pointersZero t) (core.run 6 { busyFifo with inputs := es }) = true := by decide
/-- R201: both resets held for `N + 1 = 3` edges of their clocks, overlapping, restore a broken FIFO; `N` edges do not. -/
theorem test_step_joint_reset :
    let r : Edge := .clk ⟨true, false, 0⟩
    let w : Edge := .wclk ⟨true, false, 0⟩
    nextHas (fun t => t.agree) (core.run 6 { busyFifo with inputs := [w, r, w, r, w, r] }) = true ∧
      nextHas (fun t => !t.agree) (core.run 5 { busyFifo with inputs := [w, r, w, r, w] }) = true ∧
      nextHas (fun t => !t.agree) (core.run 6 { busyFifo with inputs := [w, w, w, r, r, r] }) = true := by decide
/-- R151 and R202 at one byte: it is refused (notes/assumptions/22.md). -/
theorem test_step_unwritten_after_one_sided_reset :
    step { busyFifo with mem := [], agree := false, inputs := [quietClk] } = .refused .oneSidedReset := rfl
/-- The host's placing of a table word: the next step runs it. -/
theorem test_step_runs_placed_words :
    nextHas (fun t => t.core.st == .hdr2) (step (State.reset.withFetchWord 16 0x0059)) = true ∧
    nextHas (fun t => t.core.st == .csum) (step (State.reset.withFetchWord 16 0x1600)) = true ∧
    nextHas (fun t => t.out.ev == .csumErr) (step (State.reset.withFetchWord 16 0x1801)) = true ∧
    nextHas (fun t => t.wr.wrOvf) (step (State.reset.withFetchWord 16 0x8300)) = true := by decide

-- ---------------------------------------------------------------- witnesses of the statements' hypotheses

theorem witness_DecodeInvertsEncode : Instr.wf tableConfig 0xFF (.checkOk 7 0xFF) = true := by decide
theorem witness_DecodedOperationReencodes : decode tableConfig 0x00 0x1801#16 = .ok (.checkBad 0 0x01) := rfl
theorem witness_StepRunsTheDecodedOperation :
    let s := { State.reset with inputs := [byteEdge 0x59] }
    s.cfg.cdcMode = .none ∧ s.inputs = .clk ⟨false, true, 0x59⟩ :: [] ∧
      decode s.cfg s.core.sum (coreWord s ⟨false, true, 0x59⟩) = .ok (.sync1 0 0x59) ∧
      Instr.wf s.cfg s.core.sum (.sync1 0 0x59) = true := ⟨rfl, rfl, rfl, by decide⟩
theorem witness_StepRunsTheFifoEdgeOperations :
    busyFifo.cfg.cdcMode = .asyncFifo ∧ readPort busyFifo ⟨false, false, 0⟩ = .next ⟨false, true, 0x59⟩ ∧
      decode busyFifo.cfg busyFifo.core.sum (coreWord busyFifo ⟨false, true, 0x59⟩) = .ok (.sync1 0 0x59) ∧
      readPort busyFifo ⟨true, false, 0⟩ = .next ⟨true, true, 0x59⟩ ∧
      decode busyFifo.cfg busyFifo.core.sum (coreWord busyFifo ⟨true, true, 0x59⟩) = .ok (.reset true 0x59) ∧
      { busyFifo with inputs := [.both ⟨false, false, 0⟩ ⟨true, true, 1⟩ true false] }.inputs =
        .both ⟨false, false, 0⟩ ⟨true, true, 1⟩ true false :: [] := ⟨rfl, rfl, rfl, rfl, rfl, rfl⟩
theorem witness_ReadPortShowsTheFifoHead :
    busyFifo.cfg.cdcMode = .asyncFifo ∧ wview busyFifo ≠ busyFifo.rd.rptr ∧ busyFifo.agree = true ∧
      Memory.read busyFifo.mem (busyFifo.rd.rptr % 2 ^ busyFifo.cfg.fifoAw) = some 0x59 ∧
      ClkIn.rst ⟨true, false, 0x0A⟩ = true ∧ ClkIn.rst ⟨false, false, 0x0A⟩ = false ∧
      wview (State.resetWith fifoConfig) = (State.resetWith fifoConfig).rd.rptr := by decide
theorem witness_StoppedClockHoldsEverything : State.reset.inputs = [] := rfl
theorem witness_OperationsOfOneEdgeCommute :
    fetch busyFifo quietClk = .next [.sync1 0 0x59, .rpop 0x59, .rsync true 0x59] ∧
      fetch busyFifo (.wclk ⟨false, true, 0x0A⟩) = .next [.wpush 0x0A, .wsync true false 0x0A] ∧
      [Instr.wsync true false 0x0A, .wpush 0x0A].Perm [.wpush 0x0A, .wsync true false 0x0A] :=
  ⟨rfl, rfl, List.Perm.swap _ _ _⟩
theorem witness_IdleAndSkipOnlyClearThePulses : (0x58 : Byte) ≠ 0x59 := by decide
theorem witness_DesyncReturnsToHunt : (0x12 : Byte) ≠ 0x59 := by decide
/-- Distances 1 and 1199 are in range, 0 and 1200 are not (V-F3 to V-F6). -/
theorem witness_CheckOkRejectsOutOfRange :
    (plainConfig .reject).policy = .reject ∧
      ((plainConfig .reject).rejLo < (1 : Half) ∧ (1199 : Half) < (plainConfig .reject).rejHi) ∧
      ¬((plainConfig .reject).rejLo < (0 : Half)) ∧ ¬((1200 : Half) < (plainConfig .reject).rejHi) ∧
      (coreState .csum 0 0xC0 ⟨4, 0, 10, 0⟩).core.sum = 0xC0 := by decide
theorem witness_CheckOkClampsTheDistance : (plainConfig .clamp).policy = .clamp := rfl
theorem witness_CheckBadDropsTheFrame : (0xC1 : Byte) ≠ (coreState .csum 0 0xC0 ⟨4, 0, 10, 0⟩).core.sum := by decide
theorem witness_ResetClearsCoreAndReadSide :
    State.reset.cfg.cdcMode = .none ∧ busyFifo.cfg.cdcMode = .asyncFifo := ⟨rfl, rfl⟩
theorem witness_StorageChangesOnlyWherePushed :
    (∃ t, exec (.wpush 0x0A) busyFifo = .next t) ∧ (∃ t, exec (.wreset false false 0) busyFifo = .next t) ∧
      (∃ t, exec (.rpop 0x59) busyFifo = .next t) := ⟨⟨_, rfl⟩, ⟨_, rfl⟩, ⟨_, rfl⟩⟩
theorem witness_UnitsWriteOnlyTheirRegisters :
    (∃ t, exec (.rsync true 0) busyFifo = .next t) ∧ (∃ t, exec (.wsync true false 0) busyFifo = .next t) ∧
      (∃ t, exec (.idle 0) busyFifo = .next t) ∧ (∃ t, exec (.reset false 0) busyFifo = .next t) ∧
      (∃ t, exec (.wdrop 0) busyFifo = .next t) := ⟨⟨_, rfl⟩, ⟨_, rfl⟩, ⟨_, rfl⟩, ⟨_, rfl⟩, ⟨_, rfl⟩⟩
theorem witness_ParametersNeverChange : ∃ t, step { busyFifo with inputs := [quietClk] } = .next t := ⟨_, rfl⟩
/-- One state for each of the four outcomes. -/
theorem witness_StepStopsExactlyHere :
    step { busyFifo with mem := [], inputs := [quietClk] } = .fault .unwrittenSlot ∧
      step { busyFifo with agree := false, inputs := [quietClk] } = .refused .oneSidedReset ∧
      step { State.reset with inputs := [.wclk ⟨false, true, 0x59⟩] } = .refused .asynchronousProducer ∧
      ∃ t, step { busyFifo with inputs := [quietClk] } = .next t := ⟨rfl, rfl, rfl, _, rfl⟩
theorem witness_OneSidedResetLastsUntilJointReset :
    (busyFifo.cfg.cdcMode = .asyncFifo ∧ busyFifo.resets.rstHeld = false ∧ busyFifo.resets.wrstHeld = false ∧
      busyFifo.wr.wptr ≠ 0 ∧ busyFifo.rd.rptr ≠ 0) ∧
    (∃ t, step { busyFifo with inputs := [.clk ⟨true, false, 0⟩] } = .next t) ∧
    (∃ t, step { busyFifo with inputs := [.both ⟨false, false, 0⟩ ⟨true, false, 0⟩ true true] } = .next t) ∧
    (let w := { busyFifo with
       mem := [(3, 0x59)], wr := ⟨0, 0, [gray 6, gray 6], false⟩, rd := ⟨7, gray 7, [0, gray 7]⟩ }
     w.agree = true ∧ w.wr.wptr = 0 ∧ ∃ t, step { w with inputs := [.clk ⟨true, false, 0⟩] } = .next t) :=
  ⟨by decide, ⟨_, rfl⟩, ⟨_, rfl⟩, by decide, by decide, _, rfl⟩
theorem witness_OneSidedResetLastsUntilJointReset_joint :
    let r : Edge := .clk ⟨true, false, 0⟩
    let w : Edge := .wclk ⟨true, false, 0⟩
    let b := { busyFifo with agree := false, resets := ⟨false, false, 1, 3, .apart⟩, inputs := [w, r, w, r, w, r] ++ [] }
    b.cfg.cdcMode = .asyncFifo ∧ b.inputs = [w, r, w, r, w, r] ++ [] ∧ b.agree = false ∧ b.resets.rstHeld = false ∧
      b.resets.wrstHeld = false ∧ b.resets.joint (b.cfg.syncStages + 1) = false ∧
      nextHas (fun t => t.agree) (core.run [w, r, w, r, w, r].length b) = true := by decide
theorem witness_AcceptedByteFollowsReferenceStep :
    let s := { State.reset with inputs := [.clk ⟨false, true, 0x59⟩] }
    let e := Edge.both ⟨false, false, 0⟩ ⟨false, true, 0x0A⟩ true true
    let u := { busyFifo with inputs := [e] }
    s.inputs = .clk ⟨false, true, 0x59⟩ :: [] ∧ readPort s ⟨false, true, 0x59⟩ = .next ⟨false, true, 0x59⟩ ∧
      u.inputs = e :: [] ∧ e.clkPart = some ⟨false, false, 0⟩ ∧ u.cfg.cdcMode ≠ .none ∧
      readPort u ⟨false, false, 0⟩ = .next ⟨false, true, 0x59⟩ ∧ ClkIn.acc ⟨false, true, 0x59⟩ = true :=
  ⟨rfl, rfl, rfl, rfl, by decide, rfl, rfl⟩
theorem witness_NoByteKeepsTheCore :
    readPort State.reset ⟨false, false, 0x59⟩ = .next ⟨false, false, 0x59⟩ ∧
      readPort (State.resetWith fifoConfig) ⟨false, true, 0x59⟩ = .next ⟨false, false, 0x59⟩ ∧
      Edge.clkPart (.both ⟨false, true, 0x59⟩ ⟨false, true, 0x0A⟩ true true) = some ⟨false, true, 0x59⟩ ∧
      (State.resetWith fifoConfig).cfg.cdcMode ≠ .none := ⟨rfl, rfl, rfl, by decide⟩
theorem witness_ResetOverridesEveryInput :
    { busyFifo with inputs := [.clk ⟨true, true, 0x59⟩] }.inputs = .clk ⟨true, true, 0x59⟩ :: [] ∧
      ClkIn.rst ⟨true, true, 0x59⟩ = true ∧ busyFifo.cfg.cdcMode ≠ .none ∧ State.reset.cfg.cdcMode = .none ∧
      Edge.clkPart (.both ⟨true, true, 0x59⟩ ⟨false, true, 0x0A⟩ true true) = some ⟨true, true, 0x59⟩ :=
  ⟨rfl, rfl, by decide, rfl, rfl⟩
theorem witness_ReadingRegistersHold :
    (∀ c, Edge.clkPart quietClk = some c → c.rst = false) ∧
      nextHas (fun t => !t.out.rdValid) (step { State.reset with inputs := [quietClk] }) = true ∧
      (∀ c, Edge.clkPart (.wclk ⟨true, false, 0⟩) = some c → c.rst = false) ∧
      nextHas (fun t => t.wr.wptr == 0) (step { busyFifo with inputs := [.wclk ⟨true, false, 0⟩] }) = true := by
  refine ⟨fun c h => ?_, by decide, fun c h => ?_, by decide⟩ <;> cases h
  rfl
/-- A checksum byte that matches, under each policy. -/
theorem witness_ReadingObeysThePolicy :
    nextHas (fun t => t.out.rdValid)
      (step { coreState .csum 0 0xC0 ⟨4, 0, 10, 0⟩ with inputs := [byteEdge 0xC0] }) = true ∧
    nextHas (fun t => t.out.rdValid)
      (step { coreState .csum 0 0x67 ⟨0xB0, 0x04, 0, 1⟩ with
        cfg := plainConfig .clamp, inputs := [byteEdge 0x67] }) = true ∧
    Edge.hasClk (byteEdge 0xC0) = true := by decide
theorem witness_StepKeepsReadingAndEventApart :
    OutputInv State.reset ∧ ∃ t, step { State.reset with inputs := [quietClk] } = .next t := ⟨by decide, _, rfl⟩
theorem witness_StepKeepsCoreInvariant :
    let s := { coreState .body 1 0xB6 ⟨4, 0, 0, 0⟩ with inputs := [byteEdge 0x59] }
    CoreInv s.cfg s.core ∧ ∃ t, step s = .next t := ⟨by decide, _, rfl⟩
theorem witness_RegistersFollowTheCandidateFrame :
    (plainConfig .clamp).cdcMode = .none ∧
      ∀ c ∈ ([⟨false, true, 0x59⟩, ⟨false, false, 0⟩, ⟨false, true, 0x59⟩] : List ClkIn), c.rst = false := by decide
theorem witness_RunsFollowTheStreamFunction :
    let cs : List ClkIn := [⟨false, true, 0x59⟩, ⟨false, false, 0x00⟩]
    let s := { State.reset with inputs := cs.map Edge.clk ++ [quietClk] }
    s.cfg.cdcMode = .none ∧ s.inputs = cs.map Edge.clk ++ [quietClk] ∧ ∀ c ∈ cs, c.rst = false := by decide
theorem witness_EveryFrameHasOneOutcome :
    let s := { State.reset with inputs := byteEdges [0x59, 0x59, 4, 0, 10, 0, 0, 0, 0xC0] ++ [] }
    s.cfg.cdcMode = .none ∧ s.core.st = .hunt ∧
      s.inputs = byteEdges [s.cfg.header, s.cfg.header, 4, 0, 10, 0, 0, 0, 0xC0] ++ [] := by decide
theorem witness_FrameRoundTrip :
    let s := { State.reset with inputs := scriptEdges 0x59 [.frame 4 10 0 0] ++ [] }
    let b := { State.reset with inputs := scriptEdges 0x59 [.badFrame 4 10 0 0] ++ [] }
    s.cfg.cdcMode = .none ∧ s.core.st = .hunt ∧ s.inputs = scriptEdges s.cfg.header [.frame 4 10 0 0] ++ [] ∧
      s.cfg.policy = .reject ∧ s.cfg.rejLo < (4 : Half) ∧ (4 : Half) < s.cfg.rejHi ∧
      (plainConfig .clamp).policy = .clamp ∧ (70 : Half) ≤ (plainConfig .clamp).clampCeil ∧
      b.inputs = scriptEdges b.cfg.header [.badFrame 4 10 0 0] ++ [] := by decide
theorem witness_ChecksumDetectsSingleByteErrors :
    csumOk [0x59, 0x59, 4, 0, 10, 0, 0, 0, 0xC0] = true ∧
      ([0x59, 0x59, 4, 0, 10, 0, 0, 0, 0xC0] : List Byte)[8]? ≠ some 0xC1 ∧
      ([4, 0, 10, 0, 0, 0] : List Byte).Perm [0, 4, 10, 0, 0, 0] ∧
      ([0x59, 0x59, 4, 0, 10, 0, 0, 0, 0xC0] : List Byte)[2]? = some 4 ∧
      ([0x59, 0x59, 4, 0, 10, 0, 0, 0, 0xC0] : List Byte)[7]? = some 0 := by decide
theorem witness_SevenForeignBytesReturnToHunt :
    let bs : List Byte := [1, 2, 3, 4, 5, 6, 7]
    let s := { coreState .body 0 0xB2 ⟨0, 0, 0, 0⟩ with inputs := byteEdges bs ++ [quietClk] }
    s.cfg.cdcMode = .none ∧ bs.length = 7 ∧ s.cfg.header ∉ bs ∧ s.inputs = byteEdges bs ++ [quietClk] := by
  decide
/-- V-S6: the stray window fails its checksum; with `p5 = 0x19` it passes. -/
theorem witness_StrayHeaderShiftsTheWindow :
    let p : List Stimulus := [.byte 0x59, .frame 4 10 0x00 0x00]
    let s := { State.reset with inputs := scriptEdges 0x59 p ++ [] }
    s.cfg.cdcMode = .none ∧ s.core.st = .hunt ∧ s.inputs = scriptEdges s.cfg.header p ++ [] ∧
      (0x00 : Byte) ≠ 0x59 + 0x59 + 0x59 + lowByte 4 + highByte 4 + lowByte 10 + highByte 10 + 0x00 ∧
      (0x19 : Byte) = 0x59 + 0x59 + 0x59 + lowByte 4 + highByte 4 + lowByte 10 + highByte 10 + 0x00 := by decide
theorem witness_HuntForgetsThePast :
    let s := { coreState .hunt 0 0xC0 ⟨4, 0, 10, 0⟩ with inputs := [byteEdge 0x59] }
    let t := { State.reset with inputs := [byteEdge 0x59] }
    let u := { busyFifo with core := ⟨.hunt, 3, 0xC0, ⟨4, 0, 10, 0⟩⟩ }
    s.cfg.cdcMode = .none ∧ t.cfg = s.cfg ∧ t.inputs = s.inputs ∧ t.out = s.out ∧ s.core.st = .hunt ∧
      t.core.st = .hunt ∧ s.core ≠ t.core ∧
      u.cfg.cdcMode = .asyncFifo ∧ u.cfg = busyFifo.cfg ∧ u.inputs = busyFifo.inputs ∧ u.out = busyFifo.out ∧
      u.mem = busyFifo.mem ∧ u.wr = busyFifo.wr ∧ u.rd = busyFifo.rd ∧ u.agree = busyFifo.agree ∧
      u.resets = busyFifo.resets ∧ u.core.st = .hunt ∧ busyFifo.core.st = .hunt ∧ u.core ≠ busyFifo.core := by decide
theorem witness_ReadingsMatchTheSoftware :
    let s := { State.reset with inputs := byteEdges [0x59, 0x12] ++ [quietClk] }
    s.cfg.cdcMode = .none ∧ s.core.st = .hunt ∧ s.inputs = byteEdges [0x59, 0x12] ++ [quietClk] := by decide
theorem witness_OutputsKeepTheirDistance :
    let b := byteEdge 0x59
    nextHas (fun t => t.out.rdValid && decide (outOf t.out ≠ none) &&
        nextHas (fun u => !u.out.rdValid) (core.run ([b, b, b, b, b, b, b].length + 1) t))
      (step { coreState .csum 0 0xC0 ⟨4, 0, 10, 0⟩ with
        inputs := byteEdge 0xC0 :: [b, b, b, b, b, b, b] ++ b :: [] }) = true ∧
    ([b, b, b, b, b, b, b].filter Edge.hasClk).length = 7 ∧
    nextHas (fun t => t.out.rdValid && nextHas (fun u => !u.out.rdValid) (core.run 2 t))
      (step { busyFifo with
        core := ⟨.csum, 0, 0x59, ⟨4, 0, 10, 0⟩⟩
        inputs := quietClk :: [.wclk ⟨false, true, 0⟩] ++ quietClk :: [] }) = true := by decide
theorem witness_StepKeepsFifoInvariant :
    FifoInv busyFifo ∧ (∃ t, step { busyFifo with inputs := [.both ⟨false, false, 0⟩ ⟨false, true, 1⟩ true false] } = .next t) ∧
      FifoInv { busyFifo with agree := false } := ⟨by decide, ⟨_, rfl⟩, by decide⟩
theorem witness_ResetHasFifoInvariant : fifoConfig.wf = true := by decide
theorem witness_AgreeingFifoNeverStops :
    busyFifo.cfg.cdcMode = .asyncFifo ∧ FifoInv busyFifo ∧ busyFifo.agree = true := by decide
theorem witness_PushNeverHitsAWaitingByte :
    FifoInv busyFifo ∧ busyFifo.agree = true ∧ fullW busyFifo = false ∧
      ptrDist busyFifo.cfg busyFifo.rd.rptr busyFifo.wr.wptr = 2 ∧ FifoInv fullFifo ∧ fullW fullFifo = true :=
  ⟨by decide, by decide, by decide, by decide, by decide, by decide⟩
theorem witness_OverflowFlagIsSticky :
    nextHas (fun t => t.wr.wrOvf) (step { fullFifo with inputs := [.wclk ⟨false, true, 0x0A⟩] }) = true ∧
      nextHas (fun t => !t.wr.wrOvf)
        (step { fullFifo with
          wr := ⟨4, gray 4, [0, 0], true⟩, inputs := [.wclk ⟨true, false, 0⟩] }) = true := by decide
theorem witness_GrayCodeRoundTrip : (31 : Nat) < 2 ^ 5 := by decide
theorem witness_GrayNeighboursDifferInOneBit : (1 : Nat) ≤ 1 ∧ (1 : Nat) < 2 ^ 1 := by decide
theorem witness_ViewsCatchUpInNStages_read :
    let es := [quietClk, quietClk]
    let s := { busyFifo with inputs := es ++ [] }
    s.cfg.cdcMode = .asyncFifo ∧ FifoInv s ∧ s.agree = true ∧ s.inputs = es ++ [] ∧
      (∀ e ∈ es, e.noReset = true) ∧ es.length = s.cfg.syncStages ∧ (∀ e ∈ es, ∃ c, e = .clk c) := by
  refine ⟨rfl, by decide, rfl, rfl, by decide, rfl, fun e he => ⟨⟨false, false, 0x00⟩, ?_⟩⟩
  simpa [quietClk] using he
theorem witness_ViewsCatchUpInNStages_write :
    let es : List Edge := [.wclk ⟨false, true, 0x0A⟩, .wclk ⟨false, true, 0x0A⟩]
    let s := { busyFifo with inputs := es ++ [] }
    s.cfg.cdcMode = .asyncFifo ∧ FifoInv s ∧ s.agree = true ∧ s.inputs = es ++ [] ∧
      (∀ e ∈ es, e.noReset = true) ∧ es.length = s.cfg.syncStages ∧ (∀ e ∈ es, ∃ w, e = .wclk w) := by
  refine ⟨rfl, by decide, rfl, rfl, by decide, rfl, fun e he => ⟨⟨false, true, 0x0A⟩, ?_⟩⟩
  simpa using he
/-- Both clocks rise `N = 2` times. -/
theorem witness_ViewsCatchUpInNStages_mixed :
    let es : List Edge :=
      [quietClk, .wclk ⟨false, true, 0x0A⟩, .both ⟨false, false, 0⟩ ⟨false, true, 0x0B⟩ true false]
    let s := { busyFifo with inputs := es ++ [] }
    s.cfg.cdcMode = .asyncFifo ∧ FifoInv s ∧ s.agree = true ∧ s.inputs = es ++ [] ∧
      (∀ e ∈ es, e.noReset = true) ∧ s.cfg.syncStages ≤ (es.filter fun e => e.clkPart.isSome).length ∧
      s.cfg.syncStages ≤ (es.filter fun e => e.wclkPart.isSome).length := by decide
theorem witness_FifoDeliversInOrder :
    let es : List Edge := [quietClk, .wclk ⟨false, true, 0x0A⟩, .both ⟨false, false, 0⟩ ⟨false, true, 0⟩ false true]
    let s := { busyFifo with inputs := es ++ [] }
    s.cfg.cdcMode = .asyncFifo ∧ FifoInv s ∧ s.agree = true ∧ s.inputs = es ++ [] ∧
      (∀ e ∈ es, e.noReset = true) ∧ queueOf s = [0x59, 0x04] := by decide
theorem witness_EdgesRefineTheAbstractFifo :
    let s := { busyFifo with inputs := [.both ⟨false, false, 0⟩ ⟨false, true, 0x0A⟩ false true] }
    s.cfg.cdcMode = .asyncFifo ∧ FifoInv s ∧ s.agree = true ∧
      Edge.noReset (.both ⟨false, false, 0⟩ ⟨false, true, 0x0A⟩ false true) = true ∧
      nextHas (fun t => t.wr.wptr == 4 && t.rd.rptr == 2) (step s) = true := by decide
theorem witness_ResetReachesTheResetState :
    let es : List Edge := [.clk ⟨true, false, 0⟩, .wclk ⟨true, true, 0x59⟩]
    let s := { busyFifo with inputs := es }
    let p := { State.reset with inputs := [.clk ⟨true, true, 0x59⟩] }
    (∀ e ∈ es, e.allReset = true) ∧ s.cfg.cdcMode = .asyncFifo ∧ (es.any fun e => e.clkPart.isSome) ∧
      (es.any fun e => e.wclkPart.isSome) ∧ p.cfg.cdcMode = .none ∧ p.inputs ≠ [] ∧
      (∀ e ∈ p.inputs, e.allReset = true) := by decide
/-- Six edges, in turn: `rst` is held from edge 1 to edge 5, `wrst` from edge 0 to edge 4. -/
theorem witness_ResetReachesTheResetState_joint :
    let r : Edge := .clk ⟨true, false, 0⟩
    let w : Edge := .wclk ⟨true, false, 0⟩
    (∀ e ∈ [w, r, w, r, w, r], e.allReset = true) ∧ busyFifo.cfg.syncStages + 1 = 3 ∧
      JointReset 3 [w, r, w, r, w, r] := by
  intro r w
  refine ⟨by decide, by decide, 1, 5, 0, 4, ?_, ?_, by decide, by decide⟩
  · refine ⟨by decide, by decide, by decide, fun k _ hk => ?_, by decide⟩
    interval_cases k <;> decide
  · refine ⟨by decide, by decide, by decide, fun k _ hk => ?_, by decide⟩
    interval_cases k <;> decide

end Sys2Proof.Tests
end

section
/-! PROOFS. Reasoning rules about the operations: which registers each reads and writes, what one edge selects, and what
the operations run at one edge keep. -/

namespace Sys2Proof.Machine

/-- The operations that read and write the core's registers and the outputs only: those a decode key selects (R86) and
IDLE (R100). RESET is not one of them, it also resets the FIFO's read side (R162). -/
def CoreOnly (i : Instr) : Prop := i.unit = 0 ∨ ∃ d, i = .idle d

/-- A decode key selects an operation of unit 0. -/
theorem decodeKey_unit (header sum : Byte) (key : BitVec 13) : (decodeKey header sum key).unit = 0 := by
  dsimp only [decodeKey]
  split_ifs <;> rfl

theorem coreOnly_decodeKey (header sum : Byte) (key : BitVec 13) : CoreOnly (decodeKey header sum key) :=
  .inl (decodeKey_unit header sum key)

theorem coreOnly_idle (d : Byte) : CoreOnly (.idle d) := .inr ⟨d, rfl⟩

/-- The range policy reads the parameters and the outputs only, whatever the other registers hold. -/
theorem State.applyPolicy_local (s u : State) (d g : Half) :
    State.applyPolicy { u with cfg := s.cfg, out := s.out } d g =
      { u with cfg := s.cfg, out := (s.applyPolicy d g).out } := by
  unfold State.applyPolicy
  cases s.cfg.policy
  case reject => cases inRange s.cfg d <;> rfl
  case clamp => rfl

/-- An operation of the core does the same to the core and the outputs, and nothing else, from every state `u` with the
same parameters, core and outputs. -/
theorem exec_coreOnly_local {i : Instr} {s t : State} (hi : CoreOnly i) (h : exec i s = .next t) (u : State) :
    exec i { u with cfg := s.cfg, core := s.core, out := s.out } =
      .next { u with cfg := s.cfg, core := t.core, out := t.out } := by
  cases i with
  | checkOk idx b =>
    cases h
    have hpolicy := State.applyPolicy_local (s.tick.setCore { s.core with st := .hunt })
      { u with core := { s.core with st := .hunt } } (rawDistance s.core.pl) (rawStrength s.core.pl)
    refine (congrArg Host.Outcome.next hpolicy).trans ?_
    simp
  | reset | rpop | rsync | wpush | wdrop | wsync | wreset =>
    simp [CoreOnly, Instr.unit, coreUnit, popUnit, readSyncUnit, writeUnit, writeSyncUnit] at hi
  | _ => cases h; rfl

theorem exec_coreOnly_frame {i : Instr} {s t : State} (hi : CoreOnly i) (h : exec i s = .next t) :
    t = { s with core := t.core, out := t.out } := by
  have hlocal := exec_coreOnly_local hi h s
  rw [h] at hlocal
  injection hlocal

/-- RESET writes the core, the outputs and, with the FIFO, the read side (R162, R200). -/
theorem exec_reset_frame {v : Bool} {d : Byte} {s t : State} (h : exec (.reset v d) s = .next t) :
    t = { s with core := t.core, out := t.out, rd := t.rd } ∧ (s.cfg.cdcMode = .none → t.rd = s.rd) := by
  cases h
  cases hc : s.cfg.cdcMode <;> simp [State.resetRead]

/-- No operation writes the parameters, the coming edges or the model's record of resets. -/
theorem exec_keeps_nonRegisters {i : Instr} {s t : State} (h : exec i s = .next t) :
    t.inputs = s.inputs ∧ t.cfg = s.cfg ∧ t.agree = s.agree ∧ t.resets = s.resets := by
  cases i with
  | reset v d =>
    obtain ⟨ht, _⟩ := exec_reset_frame h
    rw [ht]; exact ⟨rfl, rfl, rfl, rfl⟩
  | rpop | rsync | wpush | wdrop | wsync | wreset => cases h; exact ⟨rfl, rfl, rfl, rfl⟩
  | idle d => rw [exec_coreOnly_frame (coreOnly_idle d) h]; exact ⟨rfl, rfl, rfl, rfl⟩
  | _ => rw [exec_coreOnly_frame (.inl rfl) h]; exact ⟨rfl, rfl, rfl, rfl⟩

-- ---------------------------------------------------------------- what an edge selects

/-- At a `clk` edge without reset the core does one operation, and not RESET. -/
theorem opOf_coreWord_coreOnly (s : State) {p : ClkIn} (hr : p.rst = false) :
    ∃ i, CoreOnly i ∧ opOf s (coreWord s p) = [i] := by
  rw [opOf_coreWord, hr]
  cases p.acc with
  | true => exact ⟨_, coreOnly_decodeKey .., rfl⟩
  | false => exact ⟨_, coreOnly_idle _, rfl⟩

/-- What `fetch` selects at a `clk` edge: the operations of the ports as the read port shows them. -/
theorem fetch_clk_next {s : State} {c : ClkIn} {is : List Instr} (h : fetch s (.clk c) = .next is) :
    ∃ p, readPort s c = .next p ∧ is = coreOps s p ++ readSyncOps s p := by
  unfold fetch at h
  cases hp : readPort s c <;> simp_all

/-- What `fetch` selects at a `wclk` edge, which only a block with the FIFO takes (R42). -/
theorem fetch_wclk_next {s : State} {w : WclkIn} {is : List Instr} (h : fetch s (.wclk w) = .next is) :
    s.cfg.cdcMode = .asyncFifo ∧ is = writeOps s w ++ writeSyncOps s w := by
  unfold fetch at h
  cases hc : s.cfg.cdcMode <;> simp_all

-- ---------------------------------------------------------------- running the operations of an edge

theorem execAll_cons_next_iff {i : Instr} {is : List Instr} {s u : State} :
    execAll (i :: is) s = .next u ↔ ∃ t, exec i s = .next t ∧ execAll is t = .next u := by
  obtain ⟨t, ht⟩ := exec_answers_next i s
  simp [ht]

/-- What every operation of a list keeps, running the list keeps. -/
theorem execAll_keeps {α : Type} (f : State → α) {is : List Instr} {s u : State}
    (hf : ∀ i ∈ is, ∀ s t, exec i s = .next t → f t = f s) (h : execAll is s = .next u) : f u = f s := by
  induction is generalizing s with
  | nil => cases h; rfl
  | cons i is ih =>
    obtain ⟨t, ht, hu⟩ := execAll_cons_next_iff.mp h
    rw [List.forall_mem_cons] at hf
    exact (ih hf.2 hu).trans (hf.1 s t ht)

theorem execAll_keeps_cfg {is : List Instr} {s u : State} (h : execAll is s = .next u) : u.cfg = s.cfg :=
  execAll_keeps State.cfg (fun _ _ _ _ hexec => have ⟨_, hcfg, _, _⟩ := exec_keeps_nonRegisters hexec; hcfg) h

end Sys2Proof.Machine
end

section
/-! PROOFS. When two operations may change places, and why those of one clock's edge may (R4). -/

namespace Sys2Proof.Machine

/-- Two operations may change places. -/
def Commutes (i j : Instr) : Prop := ∀ s, execAll [i, j] s = execAll [j, i] s

theorem Commutes.symm {i j : Instr} (h : Commutes i j) : Commutes j i := fun s => (h s).symm

theorem Commutes.execAll_swap {i j : Instr} (h : Commutes i j) (is : List Instr) (s : State) :
    execAll (i :: j :: is) s = execAll (j :: i :: is) s := by
  obtain ⟨t, hi⟩ := exec_answers_next i s
  obtain ⟨t', hij⟩ := exec_answers_next j t
  obtain ⟨u, hj⟩ := exec_answers_next j s
  obtain ⟨u', hji⟩ := exec_answers_next i u
  have hsame := h s
  simp only [execAll_cons, execAll_nil, hi, hij, hj, hji] at hsame ⊢
  injection hsame with hsame
  rw [hsame]

/-- Operations that may change places two by two may be run in any order. -/
theorem execAll_perm {is js : List Instr} (h : js.Perm is) (hc : js.Pairwise Commutes) (s : State) :
    execAll js s = execAll is s := by
  induction h generalizing s with
  | nil => rfl
  | cons i _ ih =>
    obtain ⟨t, ht⟩ := exec_answers_next i s
    simpa [ht] using ih hc.of_cons t
  | swap i j is => exact Commutes.execAll_swap (List.rel_of_pairwise_cons hc List.mem_cons_self) is s
  | trans h₁ _ ih₁ ih₂ =>
    exact (ih₁ hc s).trans (ih₂ ((h₁.pairwise_iff Commutes.symm).mp hc) s)

/-- An operation that writes the read side only, from what the core's operations do not touch, may change places with
them. -/
theorem CoreOnly.commutes {i j : Instr} (hi : CoreOnly i) (r : State → ReadSide)
    (hj : ∀ (s : State) c o, exec j { s with core := c, out := o } = .next { s with core := c, out := o, rd := r s }) :
    Commutes i j := by
  intro s
  obtain ⟨t, ht⟩ := exec_answers_next i s
  have hjs : exec j s = .next { s with rd := r s } := hj s s.core s.out
  have hjt : exec j t = .next { s with core := t.core, out := t.out, rd := r s } := by
    rw [exec_coreOnly_frame hi ht]
    exact hj s t.core t.out
  have hij : exec i { s with rd := r s } = .next { s with core := t.core, out := t.out, rd := r s } :=
    exec_coreOnly_local hi ht { s with rd := r s }
  simp only [execAll_cons, execAll_nil, ht, hjs, hjt, hij]

theorem CoreOnly.commutes_rpop {i : Instr} (hi : CoreOnly i) (d : Byte) : Commutes i (.rpop d) :=
  hi.commutes (fun s : State => { s.rd with rptr := ptrSucc s.cfg s.rd.rptr, rptrG := gray (ptrSucc s.cfg s.rd.rptr) })
    fun _ _ _ => rfl

theorem CoreOnly.commutes_rsync {i : Instr} (hi : CoreOnly i) (v : Bool) (d : Byte) : Commutes i (.rsync v d) :=
  hi.commutes (fun s : State => { s.rd with wq := shiftIn s.wr.wptrG s.rd.wq }) fun _ _ _ => rfl

theorem commutes_rpop_rsync (b : Byte) (v : Bool) (d : Byte) : Commutes (.rpop b) (.rsync v d) := fun _ => rfl

theorem commutes_wpush_wsync (b : Byte) (v f : Bool) (d : Byte) : Commutes (.wpush b) (.wsync v f d) := fun _ => rfl

theorem commutes_wdrop_wsync (b : Byte) (v f : Bool) (d : Byte) : Commutes (.wdrop b) (.wsync v f d) := fun _ => rfl

/-- At a `clk` edge with `rst = 1` RESET runs alone; at any other the core's operation, the pop and the synchronizer's
shift each write registers the others do not touch. -/
theorem clkOps_pairwise_commute (s : State) (p : ClkIn) : (coreOps s p ++ readSyncOps s p).Pairwise Commutes := by
  unfold coreOps readSyncOps
  cases hr : p.rst with
  | true => simp [opOf_coreWord, opOf_pop, opOf_readSync, ClkIn.acc, hr]
  | false =>
    obtain ⟨i, hi, hcore⟩ := opOf_coreWord_coreOnly s hr
    rw [hcore, opOf_pop, opOf_readSync]
    split_ifs <;> simp [hi.commutes_rpop, hi.commutes_rsync, commutes_rpop_rsync]

/-- At a `wclk` edge with `wrst = 1` WRESET runs alone; at any other the push or drop and the synchronizer's shift write
registers the other does not touch. -/
theorem wclkOps_pairwise_commute {s : State} (h : s.cfg.cdcMode = .asyncFifo) (w : WclkIn) :
    (writeOps s w ++ writeSyncOps s w).Pairwise Commutes := by
  rw [writeOps, writeSyncOps, writePort, opOf_write _ _ _ _ _ h, opOf_writeSync _ _ _ _ _ h]
  split_ifs <;> simp [commutes_wdrop_wsync, commutes_wpush_wsync]

end Sys2Proof.Machine
end

section
/-! PROOFS. The statements of the scope: the simultaneous writes of an edge, the units' registers, the parameters. -/

namespace Sys2Proof.Machine

/-- Settles O27: the core's operations by `exec_coreOnly_frame`, RESET by `exec_reset_frame`; each of the FIFO's is one
record update. -/
theorem unitsWriteOnlyTheirRegisters : Obligations.UnitsWriteOnlyTheirRegisters := by
  intro i s t h
  obtain ⟨hinputs, hcfg, hagree, hresets⟩ := exec_keeps_nonRegisters h
  refine ⟨hinputs, hcfg, hagree, hresets, ?_⟩
  cases i with
  | rpop | rsync => cases h; exact ⟨rfl, rfl, rfl, by simp⟩
  | wpush | wdrop | wsync | wreset => cases h; simp
  | reset v d =>
    obtain ⟨ht, hrd⟩ := exec_reset_frame h
    exact ⟨by rw [ht], hrd⟩
  | idle d => rw [exec_coreOnly_frame (coreOnly_idle d) h]; exact ⟨rfl, rfl⟩
  | _ => rw [exec_coreOnly_frame (.inl rfl) h]; exact ⟨rfl, rfl⟩

/-- Settles O28: a step runs operations, none of which writes the record, and notes the edge. -/
theorem parametersNeverChange : Obligations.ParametersNeverChange := by
  intro s t h
  rcases step_next_cases h with ⟨_, rfl⟩ | ⟨e, rest, is, u, _, _, hrun, rfl⟩
  · rfl
  · rw [State.noteEdge_cfg, execAll_keeps_cfg hrun]

/-- Settles O9: the operations one clock's edge selects commute two by two. -/
theorem operationsOfOneEdgeCommute : Obligations.OperationsOfOneEdgeCommute := by
  intro s e is js hedge hfetch hperm
  have hpair : is.Pairwise Commutes := by
    rcases hedge with ⟨c, rfl⟩ | ⟨w, rfl⟩
    · obtain ⟨p, _, rfl⟩ := fetch_clk_next hfetch
      exact clkOps_pairwise_commute s p
    · obtain ⟨hfifo, rfl⟩ := fetch_wclk_next hfetch
      exact wclkOps_pairwise_commute hfifo w
  exact (execAll_perm hperm.symm hpair s).symm

end Sys2Proof.Machine
end

section
/-! PROOFS. What one `clk` cycle does to the core and the outputs: every operation of the core against the reference
function of R135, and the three things a cycle can be (R40, R41, R200). -/

namespace Sys2Proof.Machine

/-- The output registers after a cycle whose output is `x`, a register that `x` does not name keeping its value (R29 to
R31). -/
def Outputs.after (o : Outputs) : Option Out → Outputs
  | none => { o with rdValid := false, ev := .none }
  | some (.read d g) => { rdValid := true, rdDistance := d, rdStrength := g, ev := .none }
  | some (.ev k) => { o with rdValid := false, ev := k }

theorem Outputs.outOf_after {x : Option Out} (o : Outputs) (hx : x ≠ some (.ev .none)) : outOf (o.after x) = x := by
  match x with
  | none => rfl
  | some (.read d g) => rfl
  | some (.ev k) =>
    have hk : k ≠ .none := fun h => hx (by rw [h])
    simp [Outputs.after, outOf, hk]

theorem Outputs.after_rdValid_iff (o : Outputs) (x : Option Out) :
    (o.after x).rdValid = true ↔ ∃ d g, x = some (.read d g) := by
  match x with
  | none | some (.read _ _) | some (.ev _) => simp [Outputs.after]

theorem Outputs.after_ev_of_rdValid {o : Outputs} {x : Option Out} (h : (o.after x).rdValid = true) :
    (o.after x).ev = .none := by
  obtain ⟨d, g, rfl⟩ := (o.after_rdValid_iff x).mp h
  rfl

theorem Outputs.after_holds_reading {o : Outputs} {x : Option Out} (h : (o.after x).rdValid = false) :
    (o.after x).rdDistance = o.rdDistance ∧ (o.after x).rdStrength = o.rdStrength := by
  match x with
  | none | some (.ev _) => exact ⟨rfl, rfl⟩
  | some (.read _ _) => cases h

-- ---------------------------------------------------------------- the reference function, state by state

theorem streamStep_hunt {c : Core} (cfg : Config) (b : Byte) (h : c.st = .hunt) :
    streamStep cfg c b = if b = cfg.header then ({ c with st := .hdr2, sum := b }, none) else (c, none) := by
  simp [streamStep, h]

theorem streamStep_hdr2 {c : Core} (cfg : Config) (b : Byte) (h : c.st = .hdr2) :
    streamStep cfg c b =
      if b = cfg.header then ({ c with st := .body, idx := 0, sum := add8 c.sum b }, none)
      else ({ c with st := .hunt }, some (.ev .syncFail)) := by
  simp [streamStep, h]

theorem streamStep_body {c : Core} (cfg : Config) (b : Byte) (h : c.st = .body) :
    streamStep cfg c b =
      if c.idx < 4#3 then
        ({ c with pl := c.pl.set (c.idx.extractLsb' 0 2) b, idx := c.idx + 1, sum := add8 c.sum b }, none)
      else if c.idx = 4#3 then ({ c with idx := 5, sum := add8 c.sum b }, none)
      else ({ c with st := .csum, idx := 0, sum := add8 c.sum b }, none) := by
  simp [streamStep, h]

theorem streamStep_csum {c : Core} (cfg : Config) (b : Byte) (h : c.st = .csum) :
    streamStep cfg c b =
      if b = c.sum then
        ({ c with st := .hunt }, some (streamPolicy cfg (rawDistance c.pl) (rawStrength c.pl)))
      else ({ c with st := .hunt }, some (.ev .csumErr)) := by
  simp [streamStep, h, rawDistance, rawStrength]

/-- A byte that gives an output leads to `HUNT`, from `HDR2` or, if it is a reading, from `CSUM`. -/
theorem streamStep_output {cfg : Config} {c : Core} {b : Byte} {x : Out} (h : (streamStep cfg c b).2 = some x) :
    (streamStep cfg c b).1.st = .hunt ∧ c.st ≠ .hunt ∧ x ≠ .ev .none ∧ ((∃ d g, x = .read d g) → c.st = .csum) := by
  cases hst : c.st with
  | hunt => rw [streamStep_hunt cfg b hst] at h; split_ifs at h
  | hdr2 =>
    rw [streamStep_hdr2 cfg b hst] at h ⊢
    split_ifs at h ⊢
    cases h
    simp
  | body => rw [streamStep_body cfg b hst] at h; split_ifs at h
  | csum =>
    rw [streamStep_csum cfg b hst] at h ⊢
    split_ifs at h ⊢
    · cases h
      unfold streamPolicy
      cases cfg.policy
      · dsimp only; split_ifs <;> simp
      · simp
    · cases h
      simp

theorem streamStep_output_ne (cfg : Config) (c : Core) (b : Byte) : (streamStep cfg c b).2 ≠ some (.ev .none) :=
  fun h => have ⟨_, _, hne, _⟩ := streamStep_output h; hne rfl

-- ---------------------------------------------------------------- the core's operation against the reference function

/-- Both forms of the clamp are the smaller of the distance and the ceiling (R133). -/
theorem clampDistance_eq (cfg : Config) (d : Half) :
    clampDistance cfg d = if d ≤ cfg.clampCeil then d else cfg.clampCeil := by
  unfold clampDistance
  split_ifs with h₁ h₂ h₂
  · exact BitVec.le_antisymm h₁ h₂
  · rfl
  · rfl
  · exact absurd ((BitVec.le_total d cfg.clampCeil).resolve_left h₂) h₁

/-- The range policy shows what the reference function's policy answers (R130, R135). -/
theorem State.applyPolicy_eq_streamPolicy (s : State) (c : Core) (d g : Half) :
    (s.tick.setCore c).applyPolicy d g =
      { s with core := c, out := s.out.after (some (streamPolicy s.cfg d g)) } := by
  unfold State.applyPolicy streamPolicy
  simp only [State.setCore_cfg, State.tick_cfg]
  cases s.cfg.policy with
  | reject =>
    by_cases hr : s.cfg.rejLo < d ∧ d < s.cfg.rejHi
    · simp only [inRange, hr, decide_true, Bool.and_true, if_true]; rfl
    · have : inRange s.cfg d = false := by simpa [inRange] using hr
      simp only [this, hr, if_false]; rfl
  | clamp => simp only [clampDistance_eq]; rfl

theorem captureIndex_succ (i : BitVec 3) (h : i < 4#3) : (i.extractLsb' 0 2).setWidth 3 = i := by
  revert i; decide

/-- The operation a key selects is one application of the reference function (R86, R135). -/
theorem exec_decodeKey (s : State) (b : Byte) :
    exec (decodeKey s.cfg.header s.core.sum (keyBits s.core.st.code s.core.idx b)) s =
      .next { s with core := (streamStep s.cfg s.core b).1, out := s.out.after (streamStep s.cfg s.core b).2 } := by
  cases hst : s.core.st with
  | hunt => rw [decodeKey_hunt, streamStep_hunt _ _ hst]; split_ifs <;> rfl
  | hdr2 => rw [decodeKey_hdr2, streamStep_hdr2 _ _ hst]; split_ifs <;> rfl
  | body =>
    rw [decodeKey_body, streamStep_body _ _ hst]
    split_ifs with hlt h4 h5
    · simp only [exec, execCapture, captureIndex_succ _ hlt]; rfl
    · rfl
    · rfl
    · rfl
  | csum =>
    rw [decodeKey_csum, streamStep_csum _ _ hst]
    split_ifs
    · exact congrArg Host.Outcome.next (s.applyPolicy_eq_streamPolicy _ _ _)
    · rfl

/-- The core and the outputs after a `clk` cycle in which the core sees the ports `p`: reset overrides the byte (R184,
R200), an accepted byte is one application of the reference function (R135), and a cycle without one clears the pulses
(R41, R100). -/
def clkCycle (cfg : Config) (p : ClkIn) (c : Core) (o : Outputs) : Core × Outputs :=
  if p.rst then (Core.reset, Outputs.reset)
  else if p.inValid then ((streamStep cfg c p.inData).1, o.after (streamStep cfg c p.inData).2)
  else (c, o.after none)

theorem clkCycle_reset {p : ClkIn} (cfg : Config) (c : Core) (o : Outputs) (h : p.rst = true) :
    clkCycle cfg p c o = (Core.reset, Outputs.reset) := by
  simp [clkCycle, h]

theorem clkCycle_byte {p : ClkIn} (cfg : Config) (c : Core) (o : Outputs) (h : p.acc = true) :
    clkCycle cfg p c o = ((streamStep cfg c p.inData).1, o.after (streamStep cfg c p.inData).2) := by
  have hp : p.inValid = true ∧ p.rst = false := by simpa [ClkIn.acc] using h
  simp [clkCycle, hp]

theorem clkCycle_idle {p : ClkIn} (cfg : Config) (c : Core) (o : Outputs) (hr : p.rst = false)
    (hv : p.inValid = false) : clkCycle cfg p c o = (c, o.after none) := by
  simp [clkCycle, hr, hv]

/-- The three things a `clk` cycle can be. -/
theorem clkIn_cases (p : ClkIn) : p.rst = true ∨ p.acc = true ∨ (p.rst = false ∧ p.inValid = false) := by
  unfold ClkIn.acc
  cases p.rst <;> cases p.inValid <;> simp

/-- Inversion of a `clk` cycle: what the registers hold after it names which of the three it was. -/
theorem clkCycle_cases {cfg : Config} {p : ClkIn} {c c' : Core} {o o' : Outputs}
    (h : (c', o') = clkCycle cfg p c o) :
    (p.rst = true ∧ c' = Core.reset ∧ o' = Outputs.reset) ∨
    (p.acc = true ∧ c' = (streamStep cfg c p.inData).1 ∧ o' = o.after (streamStep cfg c p.inData).2) ∨
    (p.rst = false ∧ c' = c ∧ o' = o.after none) := by
  rcases clkIn_cases p with hr | ha | ⟨hr, hv⟩
  · exact .inl ⟨hr, Prod.mk.inj (h.trans (clkCycle_reset _ _ _ hr))⟩
  · exact .inr (.inl ⟨ha, Prod.mk.inj (h.trans (clkCycle_byte _ _ _ ha))⟩)
  · exact .inr (.inr ⟨hr, Prod.mk.inj (h.trans (clkCycle_idle _ _ _ hr hv))⟩)

/-- The core's one operation of a `clk` cycle does what the cycle does. -/
theorem execAll_coreWord {s u : State} {p : ClkIn} (h : execAll (opOf s (coreWord s p)) s = .next u) :
    (u.core, u.out) = clkCycle s.cfg p s.core s.out := by
  rw [opOf_coreWord, execAll_cons_next_iff] at h
  obtain ⟨t, ht, hu⟩ := h
  cases hu
  rcases clkIn_cases p with hr | ha | ⟨hr, hv⟩
  · have ha : p.acc = false := by simp [ClkIn.acc, hr]
    rw [ha, hr] at ht
    cases ht
    rw [clkCycle_reset _ _ _ hr]
    cases hc : s.cfg.cdcMode <;> simp
  · rw [ha, if_pos rfl, exec_decodeKey] at ht
    cases ht
    rw [clkCycle_byte _ _ _ ha]
  · have ha : p.acc = false := by simp [ClkIn.acc, hv]
    rw [ha, hr] at ht
    cases ht
    rw [clkCycle_idle _ _ _ hr hv]
    rfl

end Sys2Proof.Machine
end

section
/-! PROOFS. Which of an edge's operations reach the core and the outputs, and what a whole step does to them. -/

namespace Sys2Proof.Machine

/-- The core performs the operation; every other unit leaves the core and the outputs. -/
def Instr.isCore (i : Instr) : Bool := decide (i.unit = 0 ∨ i.unit = coreUnit)

/-- What the core's operations read and write. -/
def State.coreSide (s : State) : Config × Core × Outputs := (s.cfg, s.core, s.out)

theorem exec_keeps_coreSide {i : Instr} {s t : State} (hi : Instr.isCore i = false) (h : exec i s = .next t) :
    t.coreSide = s.coreSide := by
  cases i with
  | rpop | rsync | wpush | wdrop | wsync | wreset => cases h; rfl
  | _ => cases hi

/-- What a core's operation does to the core side depends on the core side only. -/
theorem exec_coreSide_local {i : Instr} {s s' t t' : State} (hi : Instr.isCore i = true)
    (hs : s'.coreSide = s.coreSide) (h : exec i s = .next t) (h' : exec i s' = .next t') :
    t'.coreSide = t.coreSide := by
  obtain ⟨hcfg, hcore, hout⟩ : s'.cfg = s.cfg ∧ s'.core = s.core ∧ s'.out = s.out := by
    simpa [State.coreSide] using hs
  have hcoreOnly (hc : CoreOnly i) : t'.coreSide = t.coreSide := by
    have hlocal := exec_coreOnly_local hc h s'
    rw [← hcfg, ← hcore, ← hout] at hlocal
    cases h'.symm.trans hlocal
    rw [exec_coreOnly_frame hc h]
    simp [State.coreSide, hcfg]
  cases i with
  | reset v d =>
    cases h; cases h'
    cases hm : s.cfg.cdcMode <;> simp [State.coreSide, hcfg, hm]
  | idle d => exact hcoreOnly (coreOnly_idle d)
  | rpop | rsync | wpush | wdrop | wsync | wreset => cases hi
  | _ => exact hcoreOnly (.inl rfl)

/-- Over the operations of an edge the core side goes as the core's own operations alone take it. -/
theorem execAll_coreSide {is : List Instr} {s s' u u' : State} (hs : s'.coreSide = s.coreSide)
    (h : execAll is s = .next u) (h' : execAll (is.filter Instr.isCore) s' = .next u') :
    u.coreSide = u'.coreSide := by
  induction is generalizing s s' with
  | nil => cases h; cases h'; exact hs.symm
  | cons i is ih =>
    obtain ⟨t, ht, hu⟩ := execAll_cons_next_iff.mp h
    cases hi : Instr.isCore i with
    | true =>
      rw [List.filter_cons_of_pos hi, execAll_cons_next_iff] at h'
      obtain ⟨t', ht', hu'⟩ := h'
      exact ih (exec_coreSide_local hi hs ht ht') hu hu'
    | false =>
      rw [List.filter_cons_of_neg (by simp [hi])] at h'
      exact ih (hs.trans (exec_keeps_coreSide hi ht).symm) hu h'

-- ---------------------------------------------------------------- which operations of an edge are the core's

theorem isCore_decodeKey (header sum : Byte) (key : BitVec 13) :
    Instr.isCore (decodeKey header sum key) = true := by
  rw [Instr.isCore, decodeKey_unit]; rfl

theorem filter_isCore_coreOps (s : State) (p : ClkIn) :
    (coreOps s p).filter Instr.isCore = opOf s (coreWord s p) := by
  have hcore : ∀ i ∈ opOf s (coreWord s p), Instr.isCore i = true := by
    rw [opOf_coreWord]
    intro i hi
    rw [List.mem_singleton] at hi
    subst hi
    split_ifs
    · exact isCore_decodeKey ..
    · rfl
    · rfl
  rw [coreOps, List.filter_append, List.filter_eq_self.mpr hcore, opOf_pop]
  split_ifs <;> simp [Instr.isCore, Instr.unit, coreUnit, popUnit]

theorem filter_isCore_readSyncOps (s : State) (p : ClkIn) : (readSyncOps s p).filter Instr.isCore = [] := by
  rw [readSyncOps, opOf_readSync]
  split_ifs <;> simp [Instr.isCore, Instr.unit, coreUnit, readSyncUnit]

theorem filter_isCore_writeOps {s : State} (h : s.cfg.cdcMode = .asyncFifo) (w : WclkIn) :
    (writeOps s w).filter Instr.isCore = [] := by
  rw [writeOps, writePort, opOf_write _ _ _ _ _ h]
  split_ifs <;> simp [Instr.isCore, Instr.unit, coreUnit, writeUnit]

theorem filter_isCore_writeSyncOps {s : State} (h : s.cfg.cdcMode = .asyncFifo) (w : WclkIn) :
    (writeSyncOps s w).filter Instr.isCore = [] := by
  rw [writeSyncOps, writePort, opOf_writeSync _ _ _ _ _ h]
  split_ifs <;> simp [Instr.isCore, Instr.unit, coreUnit, writeSyncUnit]

theorem filter_placeSync {sync rest : List Instr} {f : Instr → Bool} (new : Bool) (h : sync.filter f = []) :
    (placeSync new sync rest).filter f = rest.filter f := by
  cases new <;> simp [placeSync, h]

/-- `clk` rises at the edge `e` with the environment's signals `c`, and `wclk` rises with it only in a block with the FIFO
(R42). -/
def ClkRises (s : State) (e : Edge) (c : ClkIn) : Prop := e.clkPart = some c ∧ (s.cfg.cdcMode = .none → e = .clk c)

/-- Where `clk` rises `fetch` asks the read port, and selects one operation of the core. -/
theorem fetch_of_clkRises {s : State} {e : Edge} {c : ClkIn} (h : ClkRises s e c) :
    match readPort s c with
    | .next p => ∃ is, fetch s e = .next is ∧ is.filter Instr.isCore = opOf s (coreWord s p)
    | .fault r => fetch s e = .fault r
    | .refused r => fetch s e = .refused r := by
  obtain ⟨hpart, hnone⟩ := h
  cases e with
  | wclk w => cases hpart
  | clk c' =>
    cases hpart
    cases hp : readPort s c with
    | next p =>
      exact ⟨coreOps s p ++ readSyncOps s p, by simp [fetch, hp],
        by simp [filter_isCore_coreOps, filter_isCore_readSyncOps]⟩
    | fault r | refused r => simp [fetch, hp]
  | both c' w rNew wNew =>
    cases hpart
    have hfifo : s.cfg.cdcMode = .asyncFifo := by
      cases hm : s.cfg.cdcMode with
      | none => cases hnone hm
      | asyncFifo => rfl
    cases hp : readPort s c with
    | next p =>
      refine ⟨_, by simp [fetch, hfifo, hp]; rfl, ?_⟩
      rw [filter_placeSync _ (filter_isCore_readSyncOps s p), filter_placeSync _ (filter_isCore_writeSyncOps hfifo w),
        List.filter_append, filter_isCore_coreOps, filter_isCore_writeOps hfifo, List.append_nil]
    | fault r | refused r => simp [fetch, hfifo, hp]

-- ---------------------------------------------------------------- a whole step

theorem execAll_keeps_inputs {is : List Instr} {s u : State} (h : execAll is s = .next u) : u.inputs = s.inputs :=
  execAll_keeps State.inputs (fun _ _ _ _ hexec => have ⟨hinputs, _⟩ := exec_keeps_nonRegisters hexec; hinputs) h

/-- An edge whose operations are selected answers, and the core side goes as the core's own operations alone take it. -/
theorem runEdge_of_fetch {s : State} {e : Edge} {is : List Instr} (hf : fetch s e = .next is) :
    ∃ t, runEdge e s = .next t ∧ t.inputs = s.inputs ∧ t.cfg = s.cfg ∧
      ∀ u, execAll (is.filter Instr.isCore) s = .next u → t.core = u.core ∧ t.out = u.out := by
  obtain ⟨v, hv⟩ := execAll_answers_next is s
  refine ⟨s.noteEdge e v, by simp [runEdge, hf, hv, closeEdge], ?_, ?_, fun u hu => ?_⟩
  · rw [State.noteEdge_inputs, execAll_keeps_inputs hv]
  · rw [State.noteEdge_cfg, execAll_keeps_cfg hv]
  · have hside := execAll_coreSide rfl hv hu
    simp only [State.coreSide, Prod.mk.injEq] at hside
    obtain ⟨_, hcore, hout⟩ := hside
    exact ⟨by rw [State.noteEdge_core, hcore], by rw [State.noteEdge_out, hout]⟩

theorem runEdge_of_clkRises {s : State} {e : Edge} {c p : ClkIn} (hclk : ClkRises s e c)
    (hp : readPort s c = .next p) :
    ∃ t, runEdge e s = .next t ∧ t.inputs = s.inputs ∧ t.cfg = s.cfg ∧
      (t.core, t.out) = clkCycle s.cfg p s.core s.out := by
  have hf := fetch_of_clkRises hclk
  rw [hp] at hf
  obtain ⟨is, hf, hcoreOps⟩ := hf
  obtain ⟨t, ht, hinputs, hcfg, hside⟩ := runEdge_of_fetch hf
  obtain ⟨u, hu⟩ := execAll_answers_next (is.filter Instr.isCore) s
  obtain ⟨hcore, hout⟩ := hside u hu
  exact ⟨t, ht, hinputs, hcfg, by rw [hcore, hout]; exact execAll_coreWord (hcoreOps ▸ hu)⟩

theorem runEdge_of_wclk {s : State} (w : WclkIn) (hfifo : s.cfg.cdcMode = .asyncFifo) :
    ∃ t, runEdge (.wclk w) s = .next t ∧ t.inputs = s.inputs ∧ t.cfg = s.cfg ∧ t.core = s.core ∧ t.out = s.out := by
  have hf : fetch s (.wclk w) = .next (writeOps s w ++ writeSyncOps s w) := by simp [fetch, hfifo]
  obtain ⟨t, ht, hinputs, hcfg, hside⟩ := runEdge_of_fetch hf
  rw [List.filter_append, filter_isCore_writeOps hfifo, filter_isCore_writeSyncOps hfifo] at hside
  exact ⟨t, ht, hinputs, hcfg, hside s rfl⟩

/-- Where `clk` rises and the read port answers, the step answers and the core side does one `clk` cycle. -/
theorem step_of_clkRises {s : State} {e : Edge} {c p : ClkIn} {rest : List Edge} (hin : s.inputs = e :: rest)
    (hclk : ClkRises s e c) (hp : readPort s c = .next p) :
    ∃ t, step s = .next t ∧ t.inputs = rest ∧ t.cfg = s.cfg ∧ (t.core, t.out) = clkCycle s.cfg p s.core s.out := by
  rw [step_of_edge hin]
  exact runEdge_of_clkRises (s := { s with inputs := rest }) hclk hp

/-- Where only `wclk` rises, in a block with the FIFO, the step answers and the core side holds (R20, R42). -/
theorem step_of_wclk {s : State} {w : WclkIn} {rest : List Edge} (hin : s.inputs = .wclk w :: rest)
    (hfifo : s.cfg.cdcMode = .asyncFifo) :
    ∃ t, step s = .next t ∧ t.inputs = rest ∧ t.cfg = s.cfg ∧ t.core = s.core ∧ t.out = s.out := by
  rw [step_of_edge hin]
  exact runEdge_of_wclk (s := { s with inputs := rest }) w hfifo

/-- Where `clk` rises and the read port stops, the step stops in the same way. -/
theorem step_of_readPort_fault {s : State} {e : Edge} {c : ClkIn} {rest : List Edge} {r : Fault}
    (hin : s.inputs = e :: rest) (hclk : ClkRises s e c) (hp : readPort s c = .fault r) : step s = .fault r := by
  have hf := fetch_of_clkRises (s := { s with inputs := rest }) hclk
  rw [show readPort { s with inputs := rest } c = .fault r from hp] at hf
  rw [step_of_edge hin, runEdge, hf]

theorem step_of_readPort_refused {s : State} {e : Edge} {c : ClkIn} {rest : List Edge} {r : Refusal}
    (hin : s.inputs = e :: rest) (hclk : ClkRises s e c) (hp : readPort s c = .refused r) : step s = .refused r := by
  have hf := fetch_of_clkRises (s := { s with inputs := rest }) hclk
  rw [show readPort { s with inputs := rest } c = .refused r from hp] at hf
  rw [step_of_edge hin, runEdge, hf]

/-- Where `wclk` rises in a block without the FIFO the step is refused (R42). -/
theorem step_of_wclk_without_fifo {s : State} {e : Edge} {w : WclkIn} {rest : List Edge} (hin : s.inputs = e :: rest)
    (hw : e.wclkPart = some w) (hnone : s.cfg.cdcMode = .none) : step s = .refused .asynchronousProducer := by
  rw [step_of_edge hin, runEdge]
  cases e with
  | clk c => cases hw
  | wclk w | both c w rNew wNew => simp [fetch, hnone]

/-- The three ways an edge falls on the block: without the FIFO `wclk` is foreign, `clk` rises, or `wclk` alone does. -/
theorem edge_cases (s : State) (e : Edge) :
    (s.cfg.cdcMode = .none ∧ ∃ w, e.wclkPart = some w) ∨ (∃ c, ClkRises s e c) ∨
      (s.cfg.cdcMode = .asyncFifo ∧ ∃ w, e = .wclk w) := by
  cases e with
  | clk c => exact .inr (.inl ⟨c, rfl, fun _ => rfl⟩)
  | wclk w =>
    cases hm : s.cfg.cdcMode with
    | none => exact .inl ⟨rfl, w, rfl⟩
    | asyncFifo => exact .inr (.inr ⟨rfl, w, rfl⟩)
  | both c w rNew wNew =>
    cases hm : s.cfg.cdcMode with
    | none => exact .inl ⟨rfl, w, rfl⟩
    | asyncFifo => exact .inr (.inl ⟨c, rfl, fun h => by rw [hm] at h; cases h⟩)

/-- Inversion of a step that takes an edge: `wclk` alone rose and the core side holds, or `clk` rose and the core side did
one cycle with what the read port showed. -/
theorem step_coreSide_cases {s t : State} {e : Edge} {rest : List Edge} (hin : s.inputs = e :: rest)
    (h : step s = .next t) :
    t.inputs = rest ∧ t.cfg = s.cfg ∧
    ((s.cfg.cdcMode = .asyncFifo ∧ (∃ w, e = .wclk w) ∧ t.core = s.core ∧ t.out = s.out) ∨
      ∃ c p, ClkRises s e c ∧ readPort s c = .next p ∧ (t.core, t.out) = clkCycle s.cfg p s.core s.out) := by
  rcases edge_cases s e with ⟨hnone, w, hw⟩ | ⟨c, hclk⟩ | ⟨hfifo, w, rfl⟩
  · rw [step_of_wclk_without_fifo hin hw hnone] at h; cases h
  · cases hp : readPort s c with
    | next p =>
      obtain ⟨t', ht', hinputs, hcfg, hside⟩ := step_of_clkRises hin hclk hp
      cases h.symm.trans ht'
      exact ⟨hinputs, hcfg, .inr ⟨c, p, hclk, hp, hside⟩⟩
    | fault r => rw [step_of_readPort_fault hin hclk hp] at h; cases h
    | refused r => rw [step_of_readPort_refused hin hclk hp] at h; cases h
  · obtain ⟨t', ht', hinputs, hcfg, hcore, hout⟩ := step_of_wclk hin hfifo
    cases h.symm.trans ht'
    exact ⟨hinputs, hcfg, .inl ⟨hfifo, ⟨w, rfl⟩, hcore, hout⟩⟩

theorem hasClk_eq_isSome (e : Edge) : e.hasClk = e.clkPart.isSome := by
  cases e <;> rfl

theorem step_without_clk_keeps_coreSide {s t : State} {e : Edge} {rest : List Edge} (hin : s.inputs = e :: rest)
    (h : step s = .next t) (he : e.hasClk = false) : t.core = s.core ∧ t.out = s.out := by
  obtain ⟨_, _, ⟨_, _, hside⟩ | ⟨c, _, ⟨hc, _⟩, _⟩⟩ := step_coreSide_cases hin h
  · exact hside
  · simp [hasClk_eq_isSome, hc] at he

/-- What the reset values meet, and what a byte and a cycle without one keep, every step keeps. -/
theorem step_keeps {P : Config → Core → Outputs → Prop} {s t : State} (hreset : P s.cfg Core.reset Outputs.reset)
    (hidle : ∀ c o, P s.cfg c o → P s.cfg c (o.after none))
    (hbyte : ∀ c o b, P s.cfg c o → P s.cfg (streamStep s.cfg c b).1 (o.after (streamStep s.cfg c b).2))
    (hs : P s.cfg s.core s.out) (h : step s = .next t) : P t.cfg t.core t.out := by
  cases hin : s.inputs with
  | nil =>
    rw [step_of_no_edge hin] at h
    cases h
    exact hs
  | cons e rest =>
    obtain ⟨_, hcfg, ⟨_, _, hcore, hout⟩ | ⟨c, p, _, _, hside⟩⟩ := step_coreSide_cases hin h
    · rw [hcfg, hcore, hout]; exact hs
    · rw [hcfg]
      rcases clkCycle_cases hside with ⟨_, hcore, hout⟩ | ⟨_, hcore, hout⟩ | ⟨_, hcore, hout⟩
      · rw [hcore, hout]; exact hreset
      · rw [hcore, hout]; exact hbyte _ _ _ hs
      · rw [hcore, hout]; exact hidle _ _ hs

end Sys2Proof.Machine
end

section
/-! PROOFS. The core's invariant under the reference function (R24, R27). -/

namespace Sys2Proof.Machine

/-- The index of a payload byte is below 4 exactly if it is one of the four that are held (R26). -/
theorem captureIndex_cases {i : BitVec 3} (h : i < 4#3) : i = 0 ∨ i = 1 ∨ i = 2 ∨ i = 3 := by
  revert i; decide

/-- The sum of the frame's head grows by the byte that is captured (R120). -/
theorem headSum_capture (h : Byte) (p : Payload) (b : Byte) {i : BitVec 3} (hi : i < 4#3) :
    headSum h (p.set (i.extractLsb' 0 2) b) (i + 1).toNat = add8 (headSum h p i.toNat) b := by
  rcases captureIndex_cases hi with rfl | rfl | rfl | rfl <;> rfl

theorem coreInv_streamStep {cfg : Config} {c : Core} (b : Byte) (h : CoreInv cfg c) :
    CoreInv cfg (streamStep cfg c b).1 := by
  obtain ⟨hhunt, hhdr2, hbody, hcsum⟩ := h
  cases hst : c.st with
  | hunt =>
    rw [streamStep_hunt cfg b hst]
    split_ifs with hb <;> simp [CoreInv, hst, hhunt hst, hb]
  | hdr2 =>
    obtain ⟨hidx, hsum⟩ := hhdr2 hst
    rw [streamStep_hdr2 cfg b hst]
    split_ifs with hb
    · simp [CoreInv, headSum, sumBytes, add8, hsum, hb]
    · simp [CoreInv, hidx]
  | body =>
    obtain ⟨hidx, hsum⟩ := hbody hst
    rw [streamStep_body cfg b hst]
    split_ifs with hlt h4
    · have hnext : c.idx + 1 ≤ 5#3 := by
        rcases captureIndex_cases hlt with hi | hi | hi | hi <;> rw [hi] <;> decide
      have hhead := hsum (BitVec.le_of_lt hlt)
      refine ⟨by simp [hst], by simp [hst], fun _ => ⟨hnext, fun _ => ?_⟩, by simp [hst]⟩
      exact (congrArg (add8 · b) hhead).trans (headSum_capture _ _ _ hlt).symm
    · simp [CoreInv, hst]
    · simp [CoreInv]
  | csum =>
    rw [streamStep_csum cfg b hst]
    split_ifs <;> simp [CoreInv, hcsum hst]

theorem coreInv_reset (cfg : Config) : CoreInv cfg Core.reset := by
  simp [CoreInv, Core.reset]

end Sys2Proof.Machine
end

section
/-! PROOFS. When a step stops (R42, R151, R180, R202). -/

namespace Sys2Proof.Machine

/-- The core would take a byte from the FIFO in this cycle (R40, R156). -/
theorem fifoPort_acc_iff (s : State) (c : ClkIn) :
    (fifoPort s c).acc = true ↔ c.rst = false ∧ wview s ≠ s.rd.rptr := by
  simp [ClkIn.acc, notEmpty, and_comm]

/-- At the edge `e` the core would take a byte from the FIFO (R156). -/
def TakesFromFifo (s : State) (e : Edge) : Prop :=
  s.cfg.cdcMode = .asyncFifo ∧ (∃ c, e.clkPart = some c ∧ c.rst = false) ∧ wview s ≠ s.rd.rptr

/-- With the FIFO `wclk` may rise beside `clk`. -/
theorem clkRises_of_fifo {s : State} {e : Edge} {c : ClkIn} (hfifo : s.cfg.cdcMode = .asyncFifo)
    (h : e.clkPart = some c) : ClkRises s e c :=
  ⟨h, fun hnone => by rw [hfifo] at hnone; cases hnone⟩

theorem TakesFromFifo.exists_clkRises {s : State} {e : Edge} (h : TakesFromFifo s e) : ∃ c, ClkRises s e c := by
  obtain ⟨hfifo, ⟨c, hc, _⟩, _⟩ := h
  exact ⟨c, clkRises_of_fifo hfifo hc⟩

/-- Where the core takes a byte the read port answers by the agreement and the head slot (R151, R202). -/
theorem TakesFromFifo.readPort {s : State} {e : Edge} {c : ClkIn} (h : TakesFromFifo s e) (hclk : ClkRises s e c) :
    readPort s c =
      if s.agree then
        if (Memory.read s.mem (slotOf s.cfg s.rd.rptr)).isSome then .next (fifoPort s c) else .fault .unwrittenSlot
      else .refused .oneSidedReset := by
  obtain ⟨hfifo, ⟨c', hc', hr⟩, hne⟩ := h
  obtain ⟨hc, _⟩ := hclk
  cases hc.symm.trans hc'
  simp [Machine.readPort, hfifo, (fifoPort_acc_iff s c).mpr ⟨hr, hne⟩]

/-- Where the core takes no byte from the FIFO the read port answers. -/
theorem readPort_of_not_takesFromFifo {s : State} {e : Edge} {c : ClkIn} (h : ¬TakesFromFifo s e)
    (hc : e.clkPart = some c) : ∃ p, readPort s c = .next p := by
  cases hm : s.cfg.cdcMode with
  | none => exact ⟨c, by simp [readPort, hm]⟩
  | asyncFifo =>
    have hacc : ¬(fifoPort s c).acc = true := fun ha =>
      have ⟨hr, hne⟩ := (fifoPort_acc_iff s c).mp ha
      h ⟨hm, ⟨c, hc, hr⟩, hne⟩
    exact ⟨fifoPort s c, by simp [readPort, hm, hacc]⟩

theorem step_of_unwritten_slot {s : State} {e : Edge} {rest : List Edge} (hin : s.inputs = e :: rest)
    (h : TakesFromFifo s e) (hagree : s.agree = true) (hslot : Memory.read s.mem (slotOf s.cfg s.rd.rptr) = none) :
    step s = .fault .unwrittenSlot := by
  obtain ⟨c, hclk⟩ := h.exists_clkRises
  exact step_of_readPort_fault hin hclk (by simp [h.readPort hclk, hagree, hslot])

theorem step_of_oneSided_reset {s : State} {e : Edge} {rest : List Edge} (hin : s.inputs = e :: rest)
    (h : TakesFromFifo s e) (hbroken : s.agree = false) : step s = .refused .oneSidedReset := by
  obtain ⟨c, hclk⟩ := h.exists_clkRises
  exact step_of_readPort_refused hin hclk (by simp [h.readPort hclk, hbroken])

/-- An edge that is not foreign answers if the core takes no byte from the FIFO, or a written one in agreement. -/
theorem step_answers {s : State} {e : Edge} {rest : List Edge} (hin : s.inputs = e :: rest)
    (hforeign : ¬(s.cfg.cdcMode = .none ∧ ∃ w, e.wclkPart = some w))
    (htake : TakesFromFifo s e → s.agree = true ∧ Memory.read s.mem (slotOf s.cfg s.rd.rptr) ≠ none) :
    ∃ t, step s = .next t := by
  rcases edge_cases s e with hw | ⟨c, hclk⟩ | ⟨hfifo, w, rfl⟩
  · exact absurd hw hforeign
  · have ⟨p, hp⟩ : ∃ p, readPort s c = .next p := by
      by_cases hd : TakesFromFifo s e
      · obtain ⟨hagree, hslot⟩ := htake hd
        exact ⟨_, by rw [hd.readPort hclk, if_pos hagree, if_pos (Option.isSome_iff_ne_none.mpr hslot)]⟩
      · obtain ⟨hc, _⟩ := hclk
        exact readPort_of_not_takesFromFifo hd hc
    obtain ⟨t, ht, _⟩ := step_of_clkRises hin hclk hp
    exact ⟨t, ht⟩
  · obtain ⟨t, ht, _⟩ := step_of_wclk hin hfifo
    exact ⟨t, ht⟩

end Sys2Proof.Machine
end

section
/-! PROOFS. The statements about one step of the core and its outputs (10_state.md). -/

namespace Sys2Proof.Machine

/-- Settles O37: the reference function and the reset keep the invariant. -/
theorem stepKeepsCoreInvariant : Obligations.StepKeepsCoreInvariant := by
  intro s t hinv h
  exact step_keeps (P := fun cfg c _ => CoreInv cfg c) (coreInv_reset s.cfg) (fun _ _ hc => hc)
    (fun _ _ b hc => coreInv_streamStep b hc) hinv h

/-- Settles O29: each condition makes the step end in its own way, and no two of them hold together. -/
theorem stepStopsExactlyHere : Obligations.StepStopsExactlyHere := by
  intro s e rest hin delivers unwritten oneSided foreign
  by_cases hu : unwritten
  · have ⟨htake, hagree, hslot⟩ := hu
    have ⟨hfifo, _⟩ := htake
    have ho : ¬oneSided := fun ⟨_, hbroken⟩ => by rw [hagree] at hbroken; cases hbroken
    have hf : ¬foreign := fun ⟨hnone, _⟩ => by rw [hfifo] at hnone; cases hnone
    simp [step_of_unwritten_slot hin htake hagree hslot, hu, ho, hf]
  by_cases ho : oneSided
  · have ⟨htake, hbroken⟩ := ho
    have ⟨hfifo, _⟩ := htake
    have hf : ¬foreign := fun ⟨hnone, _⟩ => by rw [hfifo] at hnone; cases hnone
    simp [step_of_oneSided_reset hin htake hbroken, hu, ho, hf]
  by_cases hf : foreign
  · have ⟨hnone, w, hw⟩ := hf
    simp [step_of_wclk_without_fifo hin hw hnone, hu, ho, hf]
  have htake (hd : delivers) : s.agree = true ∧ Memory.read s.mem (slotOf s.cfg s.rd.rptr) ≠ none := by
    have hagree : s.agree = true := Bool.not_eq_false _ ▸ fun hbroken => ho ⟨hd, hbroken⟩
    exact ⟨hagree, fun hslot => hu ⟨hd, hagree, hslot⟩⟩
  obtain ⟨t, ht⟩ := step_answers hin hf htake
  simp [ht, hu, ho, hf]

/-- Settles O31: the cycle of an accepted byte is `clkCycle_byte`. -/
theorem acceptedByteFollowsReferenceStep : Obligations.AcceptedByteFollowsReferenceStep := by
  intro s e c p rest hin hc hnone hp hacc
  obtain ⟨t, ht, hinputs, _, hside⟩ := step_of_clkRises hin ⟨hc, hnone⟩ hp
  obtain ⟨hcore, hout⟩ := Prod.mk.inj (hside.trans (clkCycle_byte _ _ _ hacc))
  refine ⟨t, ht, hinputs, hcore, ?_, fun hv => ?_⟩
  · rw [hout, Outputs.outOf_after _ (streamStep_output_ne s.cfg s.core p.inData)]
  · rw [hout] at hv ⊢
    exact Outputs.after_holds_reading hv

/-- Settles O34: at an edge of `wclk` alone the outputs hold, and a cycle without a reading holds the reading registers. -/
theorem readingRegistersHold : Obligations.ReadingRegistersHold := by
  intro s t e rest hin hrst h hnoReading
  obtain ⟨_, _, ⟨_, _, _, hout⟩ | ⟨c, p, ⟨hc, _⟩, hp, hside⟩⟩ := step_coreSide_cases hin h
  · rw [hout]; exact ⟨rfl, rfl⟩
  have hv : t.out.rdValid = false := hnoReading.resolve_right (by simp [hasClk_eq_isSome, hc])
  have hr : p.rst = false := by
    obtain ⟨hr, _⟩ := readPort_next_cases hp
    rw [hr, hrst c hc]
  rcases clkCycle_cases hside with ⟨hr', _⟩ | ⟨_, _, hout⟩ | ⟨_, _, hout⟩
  · rw [hr] at hr'; cases hr'
  · rw [hout] at hv ⊢; exact Outputs.after_holds_reading hv
  · rw [hout]; exact ⟨rfl, rfl⟩

/-- Settles O36: a cycle that shows a reading shows no event beside it. -/
theorem stepKeepsReadingAndEventApart : Obligations.StepKeepsReadingAndEventApart := by
  intro s t hinv h
  exact step_keeps (P := fun _ _ o => o.rdValid = true → o.ev = .none) (fun _ => rfl) (fun _ _ _ _ => rfl)
    (fun _ _ _ _ => Outputs.after_ev_of_rdValid) hinv h

/-- Without the FIFO a `clk` edge is the core's operation and nothing else. -/
theorem runEdge_clk_without_fifo {s : State} {c : ClkIn} {i : Instr} (hnone : s.cfg.cdcMode = .none)
    (hdecode : decode s.cfg s.core.sum (coreWord s c) = .ok i) : runEdge (.clk c) s = exec i s := by
  have hcore : opOf s (coreWord s c) = [i] := by simp [opOf, decode?, hdecode]
  have hfetch : fetch s (.clk c) = .next [i] := by
    simp [fetch, readPort, coreOps, readSyncOps, opOf_pop, opOf_readSync, hnone, hcore]
  obtain ⟨t, ht⟩ := exec_answers_next i s
  simp [runEdge, hfetch, ht, closeEdge, State.noteEdge_of_none hnone]

/-- Settles O5: without the FIFO the core's operation is the only one of the edge, and no reset is recorded. -/
theorem stepRunsTheDecodedOperation : Obligations.StepRunsTheDecodedOperation := by
  intro s c rest i hnone hin hdecode _
  rw [step_of_edge hin]
  exact runEdge_clk_without_fifo (s := { s with inputs := rest }) hnone hdecode

/-- Settles O20: the port word with `rst = 1` is RESET's, and RESET writes the read side only where it exists. -/
theorem resetClearsCoreAndReadSide : Obligations.ResetClearsCoreAndReadSide := by
  intro s v d
  refine ⟨?_, fun hm => ?_, fun hm => ?_⟩
  · simp [decode, decodeCorePort, coreUnit, popUnit, readSyncUnit]
  · simp only [exec, execReset, hm]; rfl
  · simp only [exec, execReset, hm]; rfl

/-- Settles O32: the cycle without a byte is `clkCycle_idle`. -/
theorem noByteKeepsTheCore : Obligations.NoByteKeepsTheCore := by
  intro s e c p rest hin hc hnone hp hr hv
  obtain ⟨t, ht, _, _, hside⟩ := step_of_clkRises hin ⟨hc, hnone⟩ hp
  obtain ⟨hcore, hout⟩ := Prod.mk.inj (hside.trans (clkCycle_idle _ _ _ hr hv))
  exact ⟨t, ht, hcore, hout⟩

/-- Settles O38: in `HUNT` with `idx = 0`, and with no reading shown. -/
theorem resetHasCoreInvariant : Obligations.ResetHasCoreInvariant :=
  fun cfg => ⟨coreInv_reset cfg, fun h => by cases h⟩

/-- Settles O60: each register by its definition, the payload registers by their four indices. -/
theorem resetValuesAreThoseOfTheSpec : Obligations.ResetValuesAreThoseOfTheSpec := by
  intro cfg s
  have hpl : ∀ i, s.core.pl.get i = 0x00 := fun i => by
    change Payload.get ⟨0x00, 0x00, 0x00, 0x00⟩ i = 0x00
    revert i; decide
  exact ⟨rfl, rfl, rfl, rfl, hpl, rfl, rfl, rfl, rfl, rfl, rfl, rfl, rfl, rfl, rfl, rfl, Memory.read_nil⟩

end Sys2Proof.Machine
end

section
/-! PROOFS. Runs of edges: a run step by step, and the core over a run of `clk` cycles. -/

namespace Sys2Proof.Machine

theorem hostRun_succ_next_iff (M : Host.Core) {k : Nat} {s u : M.State} :
    M.run (k + 1) s = .next u ↔ ∃ t, M.step s = .next t ∧ M.run k t = .next u := by
  rw [Host.Core.run]
  cases M.step s <;> simp

theorem run_succ_next_iff {k : Nat} {s u : State} :
    core.run (k + 1) s = .next u ↔ ∃ t, step s = .next t ∧ core.run k t = .next u :=
  hostRun_succ_next_iff core

/-- A run is a run of its first edges and a run of the others. -/
theorem run_add_next {j k : Nat} {s u : State} (h : core.run (j + k) s = .next u) :
    ∃ t, core.run j s = .next t ∧ core.run k t = .next u := by
  induction j generalizing s with
  | zero => exact ⟨s, rfl, by rwa [Nat.zero_add] at h⟩
  | succ j ih =>
    rw [Nat.succ_add] at h
    obtain ⟨v, hv, h⟩ := run_succ_next_iff.mp h
    obtain ⟨t, ht, hu⟩ := ih h
    exact ⟨t, run_succ_next_iff.mpr ⟨v, hv, ht⟩, hu⟩

/-- A relation between the start and the end of a run over some edges that holds of no edge, and that one more edge in
front extends, holds of every run that answers, and the run takes these edges off. -/
theorem run_edges_induction {R : State → List Edge → State → Prop} (hnil : ∀ s, R s [] s)
    (hcons : ∀ s t u e es rest, s.inputs = e :: rest → step s = .next t → R t es u → R s (e :: es) u)
    {es : List Edge} {s u : State} {rest : List Edge} (hin : s.inputs = es ++ rest)
    (h : core.run es.length s = .next u) : u.inputs = rest ∧ R s es u := by
  induction es generalizing s with
  | nil =>
    injection h with h
    subst h
    exact ⟨hin, hnil _⟩
  | cons e es ih =>
    obtain ⟨t, ht, hu⟩ := run_succ_next_iff.mp h
    obtain ⟨hinputs, _⟩ := step_coreSide_cases hin ht
    obtain ⟨hrest, hR⟩ := ih hinputs hu
    exact ⟨hrest, hcons s t u e es _ hin ht hR⟩

/-- Over `clk` cycles without reset the core takes the accepted bytes one after the other (R40, R100, R135). -/
theorem run_clk_cycles {cs : List ClkIn} {s : State} {rest : List Edge} (hnone : s.cfg.cdcMode = .none)
    (hin : s.inputs = cs.map Edge.clk ++ rest) (hrst : ∀ c ∈ cs, c.rst = false) :
    ∃ t, core.run cs.length s = .next t ∧ t.inputs = rest ∧ t.core = streamCore s.cfg s.core (acceptedBytes cs) := by
  induction cs generalizing s with
  | nil => exact ⟨s, rfl, hin, rfl⟩
  | cons c cs ih =>
    rw [List.forall_mem_cons] at hrst
    obtain ⟨hr, hrst⟩ := hrst
    obtain ⟨t, ht, hinputs, hcfg, hside⟩ :=
      step_of_clkRises hin ⟨rfl, fun _ => rfl⟩ (p := c) (by simp [readPort, hnone])
    obtain ⟨u, hu, hrest, hcore⟩ := ih (s := t) (by rw [hcfg, hnone]) hinputs hrst
    refine ⟨u, run_succ_next_iff.mpr ⟨t, ht, hu⟩, hrest, ?_⟩
    rw [hcore, hcfg]
    rcases clkIn_cases c with hr' | ha | ⟨_, hv⟩
    · rw [hr] at hr'; cases hr'
    · obtain ⟨hcoreAfter, _⟩ := Prod.mk.inj (hside.trans (clkCycle_byte _ _ _ ha))
      rw [hcoreAfter, acceptedBytes, acceptedBytes, List.filter_cons_of_pos ha]; rfl
    · obtain ⟨hcoreAfter, _⟩ := Prod.mk.inj (hside.trans (clkCycle_idle _ _ _ hr hv))
      rw [hcoreAfter, acceptedBytes, acceptedBytes, List.filter_cons_of_neg (by simp [ClkIn.acc, hv])]

end Sys2Proof.Machine
end

section
/-! PROOFS. The registers and the bytes of the current candidate frame (R27). -/

namespace Sys2Proof.Machine

theorem Payload.get_set_other (p : Payload) {i j : BitVec 2} (b : Byte) (h : j ≠ i) :
    (p.set i b).get j = p.get j := by
  unfold Payload.set Payload.get
  split_ifs <;> simp_all
  bv_omega

theorem sumBytes_concat (f : List Byte) (b : Byte) : sumBytes (f ++ [b]) = add8 (sumBytes f) b := by
  simp [sumBytes]

/-- The first `n` payload bytes of the candidate frame `f` stand in the payload registers. -/
def HoldsPayload (p : Payload) (f : List Byte) (n : Nat) : Prop :=
  ∀ k, k < n → some (p.get (BitVec.ofNat 2 k)) = f[2 + k]?

/-- What R27 says of the registers and the bytes of the candidate frame while the payload is received: the two header
bytes, then `n` payload bytes, all of them summed and the first four held. -/
structure HoldsFrame (cfg : Config) (c : Core) (f : List Byte) (n : Nat) : Prop where
  length : f.length = n + 2
  header : f.take 2 = [cfg.header, cfg.header]
  sum : c.sum = sumBytes f
  payload : HoldsPayload c.pl f (min n 4)

/-- R27: how the registers relate to the bytes of the current candidate frame, which is empty in `HUNT`. -/
def FollowsFrame (cfg : Config) (c : Core) (f : List Byte) : Prop :=
  match c.st with
  | .hunt => c.idx = 0 ∧ f = []
  | .hdr2 => c.idx = 0 ∧ f = [cfg.header] ∧ c.sum = cfg.header
  | .body => c.idx.toNat ≤ 5 ∧ HoldsFrame cfg c f c.idx.toNat
  | .csum => c.idx = 0 ∧ HoldsFrame cfg c f 6

theorem followsFrame_reset (cfg : Config) : FollowsFrame cfg Core.reset [] := ⟨rfl, rfl⟩

theorem HoldsPayload.concat {p : Payload} {f : List Byte} {n : Nat} (h : HoldsPayload p f n) (hn : n + 2 ≤ f.length)
    (b : Byte) : HoldsPayload p (f ++ [b]) n := fun k hk => by
  rw [List.getElem?_append_left (by omega), h k hk]

/-- The byte at an index up to 3 is captured (R120). -/
theorem HoldsPayload.capture {p : Payload} {f : List Byte} {n : Nat} (h : HoldsPayload p f n) (hlen : f.length = n + 2)
    (hn : n < 4) (b : Byte) : HoldsPayload (p.set (BitVec.ofNat 2 n) b) (f ++ [b]) (n + 1) := fun k hk => by
  rcases Nat.lt_succ_iff_lt_or_eq.mp hk with hk | rfl
  · have hne : BitVec.ofNat 2 k ≠ BitVec.ofNat 2 n := fun h => by
      have := congrArg BitVec.toNat h
      simp only [BitVec.toNat_ofNat] at this
      omega
    rw [Payload.get_set_other p b hne]
    exact h.concat hlen.ge b k hk
  · rw [Payload.get_set_same, List.getElem?_append_right (by omega)]
    simp [hlen, Nat.add_comm]

/-- One more payload byte, captured at the indices 0 to 3 and summed only at 4 and 5 (R120 to R122). -/
theorem HoldsFrame.concat {cfg : Config} {c c' : Core} {f : List Byte} {n : Nat} (h : HoldsFrame cfg c f n) (b : Byte)
    (hsum : c'.sum = add8 c.sum b)
    (hpl : c'.pl = if n < 4 then c.pl.set (BitVec.ofNat 2 n) b else c.pl) : HoldsFrame cfg c' (f ++ [b]) (n + 1) where
  length := by simp [h.length]
  header := by rw [List.take_append_of_le_length (by rw [h.length]; omega), h.header]
  sum := by rw [hsum, h.sum, sumBytes_concat]
  payload := by
    have hp := h.payload
    rw [hpl]
    split_ifs with hn
    · rw [Nat.min_eq_left hn.le] at hp
      rw [Nat.min_eq_left hn]
      exact hp.capture h.length hn b
    · rw [Nat.min_eq_right (by omega)] at hp ⊢
      exact hp.concat (by rw [h.length]; omega) b

theorem extractLsb'_eq_ofNat (i : BitVec 3) : i.extractLsb' 0 2 = BitVec.ofNat 2 i.toNat := by
  revert i; decide

/-- One byte keeps R27, the candidate frame growing by it unless it leads to `HUNT`. -/
theorem followsFrame_streamStep {cfg : Config} {c : Core} {f : List Byte} (b : Byte) (h : FollowsFrame cfg c f) :
    FollowsFrame cfg (streamStep cfg c b).1 (if (streamStep cfg c b).1.st = .hunt then [] else f ++ [b]) := by
  cases hst : c.st with
  | hunt =>
    obtain ⟨hidx, rfl⟩ : c.idx = 0 ∧ f = [] := by simpa [FollowsFrame, hst] using h
    rw [streamStep_hunt cfg b hst]
    split_ifs with hb <;> simp_all [FollowsFrame]
  | hdr2 =>
    obtain ⟨hidx, rfl, hsum⟩ : c.idx = 0 ∧ f = [cfg.header] ∧ c.sum = cfg.header := by
      simpa [FollowsFrame, hst] using h
    rw [streamStep_hdr2 cfg b hst]
    by_cases hb : b = cfg.header
    · rw [if_pos hb]
      exact ⟨by simp, by simp, by simp [hb], by simp [hsum, hb, sumBytes, add8], fun k hk => by simp at hk⟩
    · rw [if_neg hb]
      exact ⟨hidx, rfl⟩
  | body =>
    obtain ⟨hidx, hframe⟩ : c.idx.toNat ≤ 5 ∧ HoldsFrame cfg c f c.idx.toNat := by
      simpa [FollowsFrame, hst] using h
    rw [streamStep_body cfg b hst]
    by_cases hlt : c.idx < 4#3
    · rw [if_pos hlt]
      have hn : c.idx.toNat < 4 := hlt
      have hsucc : (c.idx + 1).toNat = c.idx.toNat + 1 := by bv_omega
      have hlow : c.idx.extractLsb' 0 2 = BitVec.ofNat 2 c.idx.toNat := extractLsb'_eq_ofNat c.idx
      simp only [hst, FollowsFrame, hsucc]
      exact ⟨by omega, hframe.concat b rfl (by simp [hn, hlow])⟩
    · rw [if_neg hlt]
      have hn : ¬c.idx.toNat < 4 := hlt
      by_cases h4 : c.idx = 4#3
      · rw [if_pos h4]
        rw [h4] at hframe
        simp only [hst, FollowsFrame]
        exact ⟨by simp, hframe.concat b rfl rfl⟩
      · rw [if_neg h4]
        have h5 : c.idx.toNat = 5 := by bv_omega
        rw [h5] at hframe
        exact ⟨rfl, hframe.concat b rfl rfl⟩
  | csum =>
    obtain ⟨hidx, _⟩ : c.idx = 0 ∧ HoldsFrame cfg c f 6 := by simpa [FollowsFrame, hst] using h
    rw [streamStep_csum cfg b hst]
    split_ifs <;> simp_all [FollowsFrame]

theorem followsFrame_streamCore {cfg : Config} {c : Core} {f : List Byte} (bs : List Byte) (h : FollowsFrame cfg c f) :
    FollowsFrame cfg (streamCore cfg c bs) (candidateFrame cfg c f bs) := by
  induction bs generalizing c f with
  | nil => exact h
  | cons b bs ih => exact ih (followsFrame_streamStep b h)

/-- Settles O39: a run takes the accepted bytes in turn, and each byte keeps R27. -/
theorem registersFollowTheCandidateFrame : Obligations.RegistersFollowTheCandidateFrame := by
  intro cfg cs rest hnone hrst
  obtain ⟨t, ht, _, hcore⟩ :=
    run_clk_cycles (s := { State.resetWith cfg with inputs := cs.map Edge.clk ++ rest }) hnone rfl hrst
  refine ⟨t, ht, ?_⟩
  intro f c
  have hfollows : FollowsFrame cfg c f := by
    change FollowsFrame cfg t.core f
    rw [hcore]
    exact followsFrame_streamCore _ (followsFrame_reset cfg)
  unfold FollowsFrame at hfollows
  cases hst : c.st <;> rw [hst] at hfollows <;> simp only [reduceCtorEq, false_implies, true_implies, and_true, true_and]
  case hunt =>
    obtain ⟨hidx, _⟩ := hfollows
    exact hidx
  case hdr2 => exact hfollows
  case body =>
    obtain ⟨hidx, hframe⟩ := hfollows
    exact ⟨hidx, hframe.length, hframe.header, hframe.sum, hframe.payload⟩
  case csum =>
    obtain ⟨hidx, hframe⟩ := hfollows
    exact ⟨hidx, hframe.length, hframe.header, hframe.sum, hframe.payload⟩

end Sys2Proof.Machine
end

section
/-! PROOFS. How far outputs are apart (R48, R211): a reading needs a frame's bytes since the reading before it, and any
output leads to `HUNT`, from which the next byte gives none. -/

namespace Sys2Proof.Machine

/-- How many accepted bytes the core is at least away from awaiting a checksum byte. -/
def bytesToCsum (c : Core) : Nat :=
  match c.st with
  | .hunt => 8
  | .hdr2 => 7
  | .body => 6 - min c.idx.toNat 5
  | .csum => 0

theorem bytesToCsum_le (c : Core) : bytesToCsum c ≤ 8 := by
  unfold bytesToCsum
  cases c.st <;> simp only <;> omega

theorem bytesToCsum_streamStep (cfg : Config) (c : Core) (b : Byte) :
    bytesToCsum c ≤ bytesToCsum (streamStep cfg c b).1 + 1 := by
  cases hst : c.st with
  | hunt => rw [streamStep_hunt cfg b hst]; split_ifs <;> simp [bytesToCsum, hst]
  | hdr2 => rw [streamStep_hdr2 cfg b hst]; split_ifs <;> simp [bytesToCsum, hst]
  | body =>
    rw [streamStep_body cfg b hst]
    split_ifs with hlt h4
    · have hn : c.idx.toNat < 4 := hlt
      have hsucc : (c.idx + 1).toNat = c.idx.toNat + 1 := by bv_omega
      simp only [bytesToCsum, hst, hsucc]
      omega
    · simp [bytesToCsum, hst, h4]
    · have hn : 5 ≤ c.idx.toNat := by bv_omega
      simp only [bytesToCsum, hst]
      omega
  | csum => simp [bytesToCsum, hst]

/-- A step brings the core nearer to a checksum byte by one at most, and only at a `clk` edge. -/
theorem bytesToCsum_step {s t : State} {e : Edge} {rest : List Edge} (hin : s.inputs = e :: rest)
    (h : step s = .next t) : bytesToCsum s.core ≤ bytesToCsum t.core + if e.hasClk then 1 else 0 := by
  obtain ⟨_, _, ⟨_, _, hcore, _⟩ | ⟨c, p, ⟨hc, _⟩, _, hside⟩⟩ := step_coreSide_cases hin h
  · rw [hcore]; omega
  · rw [hasClk_eq_isSome, hc]
    rcases clkCycle_cases hside with ⟨_, hcore, _⟩ | ⟨_, hcore, _⟩ | ⟨_, hcore, _⟩
    · rw [hcore]; exact (bytesToCsum_le s.core).trans (Nat.le_add_right ..)
    · rw [hcore]; exact bytesToCsum_streamStep ..
    · rw [hcore]; omega

/-- Over a run the core comes nearer to a checksum byte by one for each `clk` edge at most. -/
theorem bytesToCsum_run {es rest : List Edge} {s u : State} (hin : s.inputs = es ++ rest)
    (h : core.run es.length s = .next u) :
    u.inputs = rest ∧ bytesToCsum s.core ≤ bytesToCsum u.core + (es.filter Edge.hasClk).length := by
  refine run_edges_induction (R := fun s es u => bytesToCsum s.core ≤ bytesToCsum u.core + (es.filter Edge.hasClk).length)
    (fun _ => Nat.le_refl _) (fun s t u e es rest hin ht hes => ?_) hin h
  have he := bytesToCsum_step hin ht
  cases hclk : e.hasClk <;> simp only [hclk, Bool.false_eq_true, if_false, if_true] at he <;> simp [hclk] <;> omega

/-- Over a run in which `clk` does not rise the core holds. -/
theorem run_without_clk_keeps_core {es rest : List Edge} {s u : State} (hin : s.inputs = es ++ rest)
    (h : core.run es.length s = .next u) : u.inputs = rest ∧ ((∀ x ∈ es, x.hasClk = false) → u.core = s.core) := by
  refine run_edges_induction (R := fun s es u => (∀ x ∈ es, x.hasClk = false) → u.core = s.core) (fun _ _ => rfl)
    (fun s t u e es rest hin ht hes hclk => ?_) hin h
  rw [List.forall_mem_cons] at hclk
  obtain ⟨he, hclk⟩ := hclk
  obtain ⟨hcore, _⟩ := step_without_clk_keeps_coreSide hin ht he
  rw [hes hclk, hcore]

/-- An output shown after a `clk` edge came from a byte that led to `HUNT`, and a reading from the checksum byte. -/
theorem step_shows_output {s t : State} {e : Edge} {rest : List Edge} (hin : s.inputs = e :: rest)
    (he : e.hasClk = true) (h : step s = .next t) (hout : outOf t.out ≠ none) :
    s.core.st ≠ .hunt ∧ t.core.st = .hunt ∧ (t.out.rdValid = true → s.core.st = .csum) := by
  obtain ⟨_, _, ⟨_, ⟨w, rfl⟩, _⟩ | ⟨c, p, _, _, hside⟩⟩ := step_coreSide_cases hin h
  · cases he
  rcases clkCycle_cases hside with ⟨_, _, ho⟩ | ⟨_, hcore, ho⟩ | ⟨_, _, ho⟩
  · rw [ho] at hout; exact absurd rfl hout
  · rw [ho, Outputs.outOf_after _ (streamStep_output_ne s.cfg s.core p.inData)] at hout
    obtain ⟨x, hx⟩ := Option.ne_none_iff_exists'.mp hout
    obtain ⟨hhunt, hne, _, hread⟩ := streamStep_output hx
    refine ⟨hne, by rw [hcore, hhunt], fun hv => hread ?_⟩
    rw [ho, hx, Outputs.after_rdValid_iff] at hv
    simpa using hv
  · rw [ho] at hout; exact absurd rfl hout

/-- Settles O48: from the `HUNT` that follows a reading the core is eight bytes away from the next checksum byte, and from
`HUNT` itself no byte gives an output. -/
theorem outputsKeepTheirDistance : Obligations.OutputsKeepTheirDistance := by
  intro s t u e e' es rest hin he he' ht hrun
  obtain ⟨hinputs, _⟩ := step_coreSide_cases hin ht
  obtain ⟨v, hv, hone⟩ := run_add_next hrun
  obtain ⟨u', hu, hlast⟩ := run_succ_next_iff.mp hone
  injection hlast with hlast
  subst hlast
  have hreading (w : State) (hw : w.out.rdValid = true) : outOf w.out ≠ none := by simp [outOf, hw]
  refine ⟨fun hread hfew => ?_, fun hshown hquiet => ?_⟩
  · obtain ⟨hvin, hnear⟩ := bytesToCsum_run hinputs hv
    obtain ⟨_, hhunt, _⟩ := step_shows_output hin he ht (hreading t hread)
    rw [← Bool.not_eq_true]
    intro hagain
    obtain ⟨_, _, hcsum⟩ := step_shows_output hvin he' hu (hreading _ hagain)
    simp only [bytesToCsum, hhunt, hcsum hagain] at hnear
    omega
  · obtain ⟨hvin, hcore⟩ := run_without_clk_keeps_core hinputs hv
    obtain ⟨_, hhunt, _⟩ := step_shows_output hin he ht hshown
    by_contra hagain
    obtain ⟨hne, _⟩ := step_shows_output hvin he' hu hagain
    exact hne (by rw [hcore hquiet, hhunt])

end Sys2Proof.Machine
end

section
/-! PROOFS. What the core holds does not reach the FIFO: two edges that differ in the core's own operation leave the same
FIFO registers, storage and record of resets. -/

namespace Sys2Proof.Machine

/-- `s` with these core and output registers. -/
def State.withCoreOut (s : State) (c : Core) (o : Outputs) : State := { s with core := c, out := o }

/-- Two operations that are the same, or that both write the core and the outputs only. -/
def SameForFifo (i j : Instr) : Prop := i = j ∨ (CoreOnly i ∧ CoreOnly j)

theorem exec_coreOnly_withCoreOut {i : Instr} {s t : State} (hi : CoreOnly i) (h : exec i s = .next t) :
    t = s.withCoreOut t.core t.out :=
  exec_coreOnly_frame hi h

/-- Two operations of the core leave the other registers alike, whatever the core holds. -/
theorem exec_coreOnly_pair {i j : Instr} {s t : State} (hi : CoreOnly i) (hj : CoreOnly j) (c : Core) (o : Outputs)
    (h : exec i s = .next t) : ∃ c' o', exec j (s.withCoreOut c o) = .next (t.withCoreOut c' o') := by
  obtain ⟨u, hu⟩ := exec_answers_next j (s.withCoreOut c o)
  refine ⟨u.core, u.out, ?_⟩
  rw [hu, exec_coreOnly_withCoreOut hj hu, exec_coreOnly_withCoreOut hi h]
  rfl

theorem exec_sameForFifo {i j : Instr} {s t : State} (hij : SameForFifo i j) (c : Core) (o : Outputs)
    (h : exec i s = .next t) : ∃ c' o', exec j (s.withCoreOut c o) = .next (t.withCoreOut c' o') := by
  rcases hij with rfl | ⟨hi, hj⟩
  · cases i with
    | rpop | rsync | wpush | wdrop | wsync | wreset => cases h; exact ⟨c, o, rfl⟩
    | reset v d =>
      cases h
      refine ⟨Core.reset, Outputs.reset, ?_⟩
      simp only [exec, execReset, State.withCoreOut]
      cases s.cfg.cdcMode <;> rfl
    | idle d => exact exec_coreOnly_pair (coreOnly_idle d) (coreOnly_idle d) c o h
    | _ => exact exec_coreOnly_pair (.inl rfl) (.inl rfl) c o h
  · exact exec_coreOnly_pair hi hj c o h

theorem execAll_sameForFifo {is js : List Instr} {s u : State} (hij : List.Forall₂ SameForFifo is js) (c : Core)
    (o : Outputs) (h : execAll is s = .next u) :
    ∃ c' o', execAll js (s.withCoreOut c o) = .next (u.withCoreOut c' o') := by
  induction hij generalizing s c o with
  | nil => cases h; exact ⟨c, o, rfl⟩
  | cons hij _ ih =>
    obtain ⟨t, ht, hu⟩ := execAll_cons_next_iff.mp h
    obtain ⟨c', o', ht'⟩ := exec_sameForFifo hij c o ht
    obtain ⟨c'', o'', hu'⟩ := ih c' o' hu
    exact ⟨c'', o'', execAll_cons_next_iff.mpr ⟨_, ht', hu'⟩⟩

-- ---------------------------------------------------------------- the operations an edge selects

theorem sameForFifo_refl (is : List Instr) : List.Forall₂ SameForFifo is is :=
  List.forall₂_same.mpr fun _ _ => .inl rfl

theorem coreOps_sameForFifo (s : State) (c : Core) (o : Outputs) (p : ClkIn) :
    List.Forall₂ SameForFifo (coreOps s p) (coreOps (s.withCoreOut c o) p) := by
  have hcore : List.Forall₂ SameForFifo (opOf s (coreWord s p))
      (opOf (s.withCoreOut c o) (coreWord (s.withCoreOut c o) p)) := by
    rw [opOf_coreWord, opOf_coreWord, List.forall₂_cons]
    cases p.acc with
    | true => exact ⟨.inr ⟨coreOnly_decodeKey .., coreOnly_decodeKey ..⟩, .nil⟩
    | false => exact ⟨.inl rfl, .nil⟩
  unfold coreOps
  rw [opOf_pop, opOf_pop]
  exact List.rel_append hcore (sameForFifo_refl _)

theorem readSyncOps_withCoreOut (s : State) (c : Core) (o : Outputs) (p : ClkIn) :
    readSyncOps (s.withCoreOut c o) p = readSyncOps s p := by
  rw [readSyncOps, readSyncOps, opOf_readSync, opOf_readSync]; rfl

theorem writeOps_withCoreOut {s : State} (h : s.cfg.cdcMode = .asyncFifo) (c : Core) (o : Outputs) (w : WclkIn) :
    writeOps (s.withCoreOut c o) w = writeOps s w := by
  rw [writeOps, writeOps, writePort, writePort, opOf_write s _ _ _ _ h, opOf_write (s.withCoreOut c o) _ _ _ _ h]; rfl

theorem writeSyncOps_withCoreOut {s : State} (h : s.cfg.cdcMode = .asyncFifo) (c : Core) (o : Outputs) (w : WclkIn) :
    writeSyncOps (s.withCoreOut c o) w = writeSyncOps s w := by
  rw [writeSyncOps, writeSyncOps, writePort, writePort, opOf_writeSync s _ _ _ _ h,
    opOf_writeSync (s.withCoreOut c o) _ _ _ _ h]; rfl

theorem placeSync_sameForFifo {is js : List Instr} (new : Bool) (sync : List Instr)
    (h : List.Forall₂ SameForFifo is js) :
    List.Forall₂ SameForFifo (placeSync new sync is) (placeSync new sync js) := by
  cases new
  · exact List.rel_append (sameForFifo_refl sync) h
  · exact List.rel_append h (sameForFifo_refl sync)

/-- What `fetch` selects where both clocks rise, which only a block with the FIFO takes (R42, R154, R165). -/
theorem fetch_both_next {s : State} {c : ClkIn} {w : WclkIn} {rNew wNew : Bool} {is : List Instr}
    (h : fetch s (.both c w rNew wNew) = .next is) :
    s.cfg.cdcMode = .asyncFifo ∧ ∃ p, readPort s c = .next p ∧
      is = placeSync rNew (readSyncOps s p) (placeSync wNew (writeSyncOps s w) (coreOps s p ++ writeOps s w)) := by
  unfold fetch at h
  cases hc : s.cfg.cdcMode <;> cases hp : readPort s c <;> simp_all

/-- What an edge selects is the same for the FIFO whatever the core holds. -/
theorem fetch_withCoreOut {s : State} {e : Edge} {is : List Instr} (c : Core) (o : Outputs)
    (h : fetch s e = .next is) :
    ∃ js, fetch (s.withCoreOut c o) e = .next js ∧ List.Forall₂ SameForFifo is js := by
  have hread (i : ClkIn) : readPort (s.withCoreOut c o) i = readPort s i := rfl
  have hcfg : (s.withCoreOut c o).cfg = s.cfg := rfl
  cases e with
  | clk i =>
    obtain ⟨p, hp, rfl⟩ := fetch_clk_next h
    refine ⟨_, by rw [fetch, hread, hp], List.rel_append (coreOps_sameForFifo s c o p) ?_⟩
    rw [readSyncOps_withCoreOut]
    exact sameForFifo_refl _
  | wclk w =>
    obtain ⟨hfifo, rfl⟩ := fetch_wclk_next h
    refine ⟨_, by rw [fetch, hcfg, hfifo], ?_⟩
    rw [writeOps_withCoreOut hfifo, writeSyncOps_withCoreOut hfifo]
    exact sameForFifo_refl _
  | both i w rNew wNew =>
    obtain ⟨hfifo, p, hp, rfl⟩ := fetch_both_next h
    refine ⟨_, by rw [fetch, hcfg, hfifo, hread, hp], ?_⟩
    rw [readSyncOps_withCoreOut, writeOps_withCoreOut hfifo, writeSyncOps_withCoreOut hfifo]
    exact placeSync_sameForFifo _ _ (placeSync_sameForFifo _ _
      (List.rel_append (coreOps_sameForFifo s c o p) (sameForFifo_refl _)))

theorem noteEdge_withCoreOut (s t : State) (e : Edge) (c c' : Core) (o o' : Outputs) :
    (s.withCoreOut c o).noteEdge e (t.withCoreOut c' o') = (s.noteEdge e t).withCoreOut c' o' := by
  unfold State.noteEdge
  have hcfg : (s.withCoreOut c o).cfg = s.cfg := rfl
  rw [hcfg]
  cases s.cfg.cdcMode <;> rfl

/-- A step of a block whose core holds something else answers too, with the same FIFO. -/
theorem step_withCoreOut {s t : State} (c : Core) (o : Outputs) (h : step s = .next t) :
    ∃ c' o', step (s.withCoreOut c o) = .next (t.withCoreOut c' o') := by
  rcases step_next_cases h with ⟨hin, rfl⟩ | ⟨e, rest, is, u, hin, hf, hrun, rfl⟩
  · exact ⟨c, o, step_of_no_edge hin⟩
  · obtain ⟨js, hf', hij⟩ := fetch_withCoreOut c o hf
    obtain ⟨c', o', hrun'⟩ := execAll_sameForFifo hij c o hrun
    refine ⟨c', o', ?_⟩
    rw [step_of_edge (s := s.withCoreOut c o) hin, ← noteEdge_withCoreOut _ _ e c c' o o']
    change runEdge e (State.withCoreOut { s with inputs := rest } c o) = _
    simp [runEdge, hf', hrun', closeEdge]

end Sys2Proof.Machine
end

section
/-! PROOFS. Containment: what the registers hold in `HUNT` is forgotten (R49, R183). -/

namespace Sys2Proof.Machine

/-- Two cores that no coming byte tells apart: equal in the registers that the state still reads. -/
def SameFuture (c d : Core) : Prop :=
  c.st = d.st ∧
  match c.st with
  | .hunt => True
  | .hdr2 => c.sum = d.sum
  | .body => c.idx = d.idx ∧ c.sum = d.sum ∧ ∀ k : BitVec 2, k.setWidth 3 < c.idx → c.pl.get k = d.pl.get k
  | .csum => c.sum = d.sum ∧ c.pl = d.pl

theorem sameFuture_of_hunt {c d : Core} (hc : c.st = .hunt) (hd : d.st = .hunt) : SameFuture c d := by
  simp [SameFuture, hc, hd]

theorem SameFuture.refl (c : Core) : SameFuture c c := by
  unfold SameFuture
  cases c.st <;> simp

theorem SameFuture.symm {c d : Core} (h : SameFuture c d) : SameFuture d c := by
  obtain ⟨hst, h⟩ := h
  refine ⟨hst.symm, ?_⟩
  rw [← hst]
  cases hc : c.st <;> rw [hc] at h
  case hunt => trivial
  case hdr2 => exact h.symm
  case body =>
    obtain ⟨hidx, hsum, hpl⟩ := h
    exact ⟨hidx.symm, hsum.symm, fun k hk => (hpl k (hidx ▸ hk)).symm⟩
  case csum =>
    obtain ⟨hsum, hpl⟩ := h
    exact ⟨hsum.symm, hpl.symm⟩

theorem Payload.ext_get {p q : Payload} (h : ∀ k, p.get k = q.get k) : p = q := by
  obtain ⟨p0, p1, p2, p3⟩ := p
  obtain ⟨q0, q1, q2, q3⟩ := q
  have h0 : p0 = q0 := h 0
  have h1 : p1 = q1 := h 1
  have h2 : p2 = q2 := h 2
  have h3 : p3 = q3 := h 3
  rw [h0, h1, h2, h3]

theorem captureIndex_eq_or_lt {i : BitVec 3} {k : BitVec 2} (hi : i < 4#3) (hk : k.setWidth 3 < i + 1) :
    k = i.extractLsb' 0 2 ∨ (k ≠ i.extractLsb' 0 2 ∧ k.setWidth 3 < i) := by
  revert i k; decide

theorem payloadIndex_lt {i : BitVec 3} (k : BitVec 2) (hi : ¬i < 4#3) : k.setWidth 3 < i := by
  revert i k; decide

/-- A byte gives the same output from both cores, and leaves them alike. -/
theorem SameFuture.streamStep {c d : Core} (cfg : Config) (b : Byte) (h : SameFuture c d) :
    SameFuture (streamStep cfg c b).1 (streamStep cfg d b).1 ∧ (streamStep cfg c b).2 = (streamStep cfg d b).2 := by
  obtain ⟨hst, h⟩ := h
  cases hc : c.st with
  | hunt =>
    rw [hc] at hst
    rw [streamStep_hunt cfg b hc, streamStep_hunt cfg b hst.symm]
    split_ifs
    · simp [SameFuture]
    · exact ⟨sameFuture_of_hunt hc hst.symm, rfl⟩
  | hdr2 =>
    rw [hc] at hst h
    rw [streamStep_hdr2 cfg b hc, streamStep_hdr2 cfg b hst.symm]
    have hsum : c.sum = d.sum := h
    split_ifs <;> simp [SameFuture, hsum]
  | body =>
    rw [hc] at hst h
    obtain ⟨hidx, hsum, hpl⟩ := h
    rw [streamStep_body cfg b hc, streamStep_body cfg b hst.symm, ← hidx, ← hsum]
    have hall (hlt : ¬c.idx < 4#3) : c.pl = d.pl := Payload.ext_get fun k => hpl k (payloadIndex_lt k hlt)
    split_ifs with hlt h4
    · refine ⟨⟨hc.trans hst, ?_⟩, rfl⟩
      simp only [hc]
      refine ⟨trivial, trivial, fun k hk => ?_⟩
      rcases captureIndex_eq_or_lt hlt hk with rfl | ⟨hne, hk⟩
      · rw [Payload.get_set_same, Payload.get_set_same]
      · rw [Payload.get_set_other _ _ hne, Payload.get_set_other _ _ hne, hpl k hk]
    · simp [SameFuture, hc, ← hst, hall hlt]
    · simp [SameFuture, hall hlt]
  | csum =>
    rw [hc] at hst h
    obtain ⟨hsum, hpl⟩ := h
    rw [streamStep_csum cfg b hc, streamStep_csum cfg b hst.symm, ← hsum, ← hpl]
    split_ifs <;> exact ⟨sameFuture_of_hunt rfl rfl, rfl⟩

/-- A `clk` cycle with the same ports shows the same and leaves the cores alike. -/
theorem SameFuture.clkCycle {c d : Core} (cfg : Config) (p : ClkIn) (o : Outputs) (h : SameFuture c d) :
    SameFuture (clkCycle cfg p c o).1 (clkCycle cfg p d o).1 ∧ (clkCycle cfg p c o).2 = (clkCycle cfg p d o).2 := by
  rcases clkIn_cases p with hr | ha | ⟨hr, hv⟩
  · rw [clkCycle_reset _ _ _ hr, clkCycle_reset _ _ _ hr]
    exact ⟨.refl _, rfl⟩
  · obtain ⟨hcore, hout⟩ := h.streamStep cfg p.inData
    rw [clkCycle_byte _ _ _ ha, clkCycle_byte _ _ _ ha, hout]
    exact ⟨hcore, rfl⟩
  · rw [clkCycle_idle _ _ _ hr hv, clkCycle_idle _ _ _ hr hv]
    exact ⟨h, rfl⟩

/-- Two blocks that nothing outside tells apart: the same parameters, coming edges and outputs, cores with the same future,
and the same FIFO where there is one. -/
structure Alike (s t : State) : Prop where
  cfg : t.cfg = s.cfg
  inputs : t.inputs = s.inputs
  out : t.out = s.out
  core : SameFuture s.core t.core
  fifo : s.cfg.cdcMode = .asyncFifo →
    t.mem = s.mem ∧ t.wr = s.wr ∧ t.rd = s.rd ∧ t.agree = s.agree ∧ t.resets = s.resets

theorem Alike.symm {s t : State} (h : Alike s t) : Alike t s where
  cfg := h.cfg.symm
  inputs := h.inputs.symm
  out := h.out.symm
  core := h.core.symm
  fifo hm := by
    obtain ⟨hmem, hwr, hrd, hagree, hresets⟩ := h.fifo (h.cfg ▸ hm)
    exact ⟨hmem.symm, hwr.symm, hrd.symm, hagree.symm, hresets.symm⟩

/-- With the FIFO the core and the outputs are all in which two such blocks can differ. -/
theorem Alike.eq_withCoreOut {s t : State} (h : Alike s t) (hm : s.cfg.cdcMode = .asyncFifo) :
    t = s.withCoreOut t.core t.out := by
  obtain ⟨hmem, hwr, hrd, hagree, hresets⟩ := h.fifo hm
  obtain ⟨hcfg, hinputs, _, _, _⟩ := h
  obtain ⟨⟩ := t
  simp_all [State.withCoreOut]

theorem Alike.readPort {s t : State} (h : Alike s t) (c : ClkIn) : readPort t c = readPort s c := by
  cases hm : s.cfg.cdcMode with
  | none => simp [Machine.readPort, h.cfg, hm]
  | asyncFifo => rw [h.eq_withCoreOut hm]; rfl

theorem Alike.observe {s t : State} (h : Alike s t) : observe s = observe t := by
  unfold Machine.observe
  rw [h.cfg, h.out]
  split_ifs with hm
  · obtain ⟨_, hwr, _⟩ := h.fifo hm
    rw [hwr]
  · rfl

/-- If one of two such blocks answers a step so does the other, and they are alike after it. -/
theorem Alike.step {s t s' : State} (h : Alike s t) (hs : step s = .next s') :
    ∃ t', step t = .next t' ∧ Alike s' t' := by
  cases hin : s.inputs with
  | nil =>
    rw [step_of_no_edge hin] at hs
    injection hs with hs
    subst hs
    exact ⟨t, step_of_no_edge (h.inputs.trans hin), h⟩
  | cons e rest =>
    have htin : t.inputs = e :: rest := h.inputs.trans hin
    obtain ⟨hrest, hcfg, hside⟩ := step_coreSide_cases hin hs
    have ⟨t', ht', hrest', hcfg', hout', hcore'⟩ : ∃ t', Machine.step t = .next t' ∧ t'.inputs = rest ∧
        t'.cfg = t.cfg ∧ t'.out = s'.out ∧ SameFuture s'.core t'.core := by
      rcases hside with ⟨hfifo, ⟨w, rfl⟩, hcore, hout⟩ | ⟨c, p, ⟨hc, hnone⟩, hp, hside⟩
      · obtain ⟨t', ht', hrest', hcfg', hcore', hout'⟩ := step_of_wclk htin (by rw [h.cfg, hfifo])
        exact ⟨t', ht', hrest', hcfg', by rw [hout', hout, h.out], by rw [hcore, hcore']; exact h.core⟩
      · obtain ⟨t', ht', hrest', hcfg', hside'⟩ :=
          step_of_clkRises htin ⟨hc, fun hm => hnone (h.cfg ▸ hm)⟩ ((h.readPort c).trans hp)
        obtain ⟨hsame, hsameOut⟩ := h.core.clkCycle s.cfg p s.out
        rw [h.cfg, h.out] at hside'
        rw [← hside, ← hside'] at hsame hsameOut
        exact ⟨t', ht', hrest', hcfg', hsameOut.symm, hsame⟩
    refine ⟨t', ht', ⟨by rw [hcfg', hcfg, h.cfg], by rw [hrest, hrest'], hout', hcore', fun hm => ?_⟩⟩
    rw [hcfg] at hm
    obtain ⟨c', o', hsame⟩ := step_withCoreOut t.core t.out hs
    rw [← h.eq_withCoreOut hm, ht'] at hsame
    injection hsame with hsame
    rw [hsame]
    exact ⟨rfl, rfl, rfl, rfl, rfl⟩

theorem Alike.observeOver {s t : State} (k : Nat) (h : Alike s t) : observeOver k s = observeOver k t := by
  induction k generalizing s t with
  | zero => rfl
  | succ k ih =>
    unfold Machine.observeOver
    cases hs : Machine.step s with
    | next s' =>
      obtain ⟨t', ht', h'⟩ := h.step hs
      simp [ht', h'.observe, ih h']
    | fault _ | refused _ =>
      cases ht : Machine.step t with
      | next t' =>
        obtain ⟨s', hs', _⟩ := h.symm.step ht
        rw [hs] at hs'; cases hs'
      | fault _ | refused _ => rfl

/-- Settles O46: two cores in `HUNT` have the same future, and blocks alike show the same over any run. -/
theorem huntForgetsThePast : Obligations.HuntForgetsThePast := by
  intro s t k hcfg hinputs hout hfifo hs ht
  exact Alike.observeOver k ⟨hcfg, hinputs, hout, sameFuture_of_hunt hs ht, hfifo⟩

end Sys2Proof.Machine
end

section
/-! PROOFS. The bytes a `clk` cycle hands to the reference function of R135, and the outputs over a run of such cycles. -/

namespace Sys2Proof.Machine

theorem streamCore_append (cfg : Config) (c : Core) (bs bs' : List Byte) :
    streamCore cfg c (bs ++ bs') = streamCore cfg (streamCore cfg c bs) bs' := by
  induction bs generalizing c with
  | nil => rfl
  | cons b bs ih => exact ih _

theorem decodeStream_append (cfg : Config) (c : Core) (bs bs' : List Byte) :
    decodeStream cfg c (bs ++ bs') = decodeStream cfg c bs ++ decodeStream cfg (streamCore cfg c bs) bs' := by
  induction bs generalizing c with
  | nil => rfl
  | cons b bs ih => simp [decodeStream, streamCore, ih]

theorem acceptedBytes_cons (p : ClkIn) (ps : List ClkIn) :
    acceptedBytes (p :: ps) = acceptedBytes [p] ++ acceptedBytes ps := by
  cases h : p.acc <;> simp [acceptedBytes, h]

/-- A cycle without reset hands its byte, if it accepts one, to the reference function, and shows what that answers. -/
theorem clkCycle_stream {cfg : Config} {p : ClkIn} {c c' : Core} {o o' : Outputs} (hr : p.rst = false)
    (h : (c', o') = clkCycle cfg p c o) :
    c' = streamCore cfg c (acceptedBytes [p]) ∧ (outOf o').toList = decodeStream cfg c (acceptedBytes [p]) := by
  rcases clkIn_cases p with hr' | ha | ⟨_, hv⟩
  · rw [hr] at hr'; cases hr'
  · obtain ⟨rfl, rfl⟩ := Prod.mk.inj (h.trans (clkCycle_byte _ _ _ ha))
    rw [Outputs.outOf_after _ (streamStep_output_ne cfg c p.inData)]
    simp [acceptedBytes, ha, streamCore, decodeStream]
  · obtain ⟨rfl, rfl⟩ := Prod.mk.inj (h.trans (clkCycle_idle _ _ _ hr hv))
    simp [acceptedBytes, ClkIn.acc, hv, streamCore, decodeStream, outOf, Outputs.after]

theorem outsOver_succ {s t : State} {e : Edge} {rest : List Edge} (k : Nat) (hin : s.inputs = e :: rest)
    (h : step s = .next t) :
    outsOver (k + 1) s = (if e.hasClk then (outOf t.out).toList else []) ++ outsOver k t := by
  simp [outsOver, h, hin]

/-- Over `clk` cycles without reset the outputs are those of the reference function over the accepted bytes (R135). -/
theorem outsOver_clk_cycles {cs : List ClkIn} {s : State} {rest : List Edge} (hnone : s.cfg.cdcMode = .none)
    (hin : s.inputs = cs.map Edge.clk ++ rest) (hrst : ∀ c ∈ cs, c.rst = false) :
    outsOver cs.length s = decodeStream s.cfg s.core (acceptedBytes cs) := by
  induction cs generalizing s with
  | nil => rfl
  | cons c cs ih =>
    rw [List.forall_mem_cons] at hrst
    obtain ⟨hr, hrst⟩ := hrst
    obtain ⟨t, ht, hinputs, hcfg, hside⟩ :=
      step_of_clkRises hin ⟨rfl, fun _ => rfl⟩ (p := c) (by simp [readPort, hnone])
    obtain ⟨hcore, hout⟩ := clkCycle_stream hr hside
    rw [List.length_cons, outsOver_succ _ hin ht, ih (by rw [hcfg, hnone]) hinputs hrst, hcfg, hcore,
      acceptedBytes_cons c cs, decodeStream_append, ← hout]
    rfl

theorem byteEdges_eq_clk_cycles (bs : List Byte) : byteEdges bs = (bs.map (ClkIn.mk false true)).map Edge.clk := by
  simp [byteEdges, byteEdge]

theorem acceptedBytes_of_bytes (bs : List Byte) : acceptedBytes (bs.map (ClkIn.mk false true)) = bs := by
  induction bs with
  | nil => rfl
  | cons b bs ih => rw [List.map_cons, acceptedBytes_cons, ih]; rfl

/-- Bytes presented back to back without the FIFO: the block answers, and its core and outputs are those of the reference
function (R93, R135). -/
theorem run_byteEdges {bs : List Byte} {s : State} {rest : List Edge} (hnone : s.cfg.cdcMode = .none)
    (hin : s.inputs = byteEdges bs ++ rest) :
    (∃ t, core.run bs.length s = .next t ∧ t.inputs = rest ∧ t.core = streamCore s.cfg s.core bs) ∧
      outsOver bs.length s = decodeStream s.cfg s.core bs := by
  rw [byteEdges_eq_clk_cycles] at hin
  have hrst : ∀ c ∈ bs.map (ClkIn.mk false true), c.rst = false := by simp
  have hcore := run_clk_cycles hnone hin hrst
  have houts := outsOver_clk_cycles hnone hin hrst
  rw [List.length_map, acceptedBytes_of_bytes] at hcore houts
  exact ⟨hcore, houts⟩

end Sys2Proof.Machine
end

section
/-! PROOFS. The reference function over the nine bytes of a candidate frame (R80, R137), and the frame that a stray header
byte shifts (R108). -/

namespace Sys2Proof.Machine

/-- Two header bytes from `HUNT` enter the body, without an output (R101, R102). -/
theorem stream_headers {cfg : Config} {c : Core} (hst : c.st = .hunt) :
    streamCore cfg c [cfg.header, cfg.header] = { c with st := .body, idx := 0, sum := cfg.header + cfg.header } ∧
      decodeStream cfg c [cfg.header, cfg.header] = [] := by
  have hfirst : streamStep cfg c cfg.header = ({ c with st := .hdr2, sum := cfg.header }, none) := by
    simp [streamStep_hunt cfg _ hst]
  have hsecond : streamStep cfg { c with st := .hdr2, sum := cfg.header } cfg.header =
      ({ c with st := .body, idx := 0, sum := cfg.header + cfg.header }, none) := by
    simp [streamStep_hdr2, add8]
  simp [streamCore, decodeStream, hfirst, hsecond]

/-- Six payload bytes lead from the body's start to the checksum byte, without an output (R120 to R122). -/
theorem stream_payload {cfg : Config} {c : Core} (hst : c.st = .body) (hidx : c.idx = 0) (p0 p1 p2 p3 p4 p5 : Byte) :
    streamCore cfg c [p0, p1, p2, p3, p4, p5] =
        { st := .csum, idx := 0, sum := c.sum + p0 + p1 + p2 + p3 + p4 + p5, pl := ⟨p0, p1, p2, p3⟩ } ∧
      decodeStream cfg c [p0, p1, p2, p3, p4, p5] = [] := by
  obtain ⟨st, idx, sum, pl⟩ := c
  cases hst
  cases hidx
  exact ⟨rfl, rfl⟩

/-- Nine bytes from `HUNT`, the first two of them header bytes, lead back to `HUNT` with one output: the policy's if the
ninth byte is the sum of the others, else `CSUM_ERR` (R137). -/
theorem stream_candidate {cfg : Config} {c : Core} (hst : c.st = .hunt) (p0 p1 p2 p3 p4 p5 k : Byte) :
    (streamCore cfg c [cfg.header, cfg.header, p0, p1, p2, p3, p4, p5, k]).st = .hunt ∧
      decodeStream cfg c [cfg.header, cfg.header, p0, p1, p2, p3, p4, p5, k] =
        [if k = cfg.header + cfg.header + p0 + p1 + p2 + p3 + p4 + p5
         then streamPolicy cfg (littleEndian p0 p1) (littleEndian p2 p3) else .ev .csumErr] := by
  obtain ⟨hbody, hquiet⟩ := stream_headers (cfg := cfg) hst
  obtain ⟨hcsum, hquiet'⟩ := stream_payload (cfg := cfg) (c := streamCore cfg c [cfg.header, cfg.header])
    (by rw [hbody]) (by rw [hbody]) p0 p1 p2 p3 p4 p5
  have hsplit : [cfg.header, cfg.header, p0, p1, p2, p3, p4, p5, k] =
      [cfg.header, cfg.header] ++ ([p0, p1, p2, p3, p4, p5] ++ [k]) := rfl
  rw [hsplit, streamCore_append, streamCore_append, decodeStream_append, decodeStream_append, hquiet, hquiet', hcsum,
    hbody]
  simp only [streamCore, decodeStream]
  rw [streamStep_csum cfg k rfl]
  split_ifs <;> exact ⟨rfl, rfl⟩

/-- Settles O45: the window is a candidate frame whose payload starts with a header byte and whose ninth byte is `p5`. -/
theorem strayHeaderShiftsTheWindow : Obligations.StrayHeaderShiftsTheWindow := by
  intro s d g p4 p5 rest h hnone hst hin
  let window := [h, h, h, lowByte d, highByte d, lowByte g, highByte g, p4, p5]
  have hwindow : s.inputs = byteEdges window ++ (byteEdge (sumBytes (frameHead h d g p4 p5)) :: rest) := hin
  obtain ⟨⟨t, ht, _, hcore⟩, houts⟩ := run_byteEdges hnone hwindow
  obtain ⟨hhunt, hone⟩ := stream_candidate (cfg := s.cfg) hst h (lowByte d) (highByte d) (lowByte g) (highByte g) p4 p5
  have houts : outsOver 9 s = _ := houts.trans hone
  refine ⟨⟨t, ht, by rw [hcore]; exact hhunt⟩, fun hne => ?_, fun heq => ?_⟩
  · rw [houts, if_neg hne]
  · rw [houts, if_pos heq]; rfl

end Sys2Proof.Machine
end

section
/-! PROOFS. The arithmetic of the FIFO's pointers: the Gray code (R159), and pointers as counts modulo `2^(A+1)`. -/

namespace Sys2Proof.Machine

theorem shiftRight_one_lt {w n : Nat} (h : n < 2 ^ (w + 1)) : n >>> 1 < 2 ^ w := by
  rw [Nat.shiftRight_one]; omega

/-- The view of a pointer through its Gray code is the pointer (R159). -/
theorem bin_gray {w n : Nat} (h : n < 2 ^ w) : bin w (gray n) = n := by
  induction w generalizing n with
  | zero =>
    obtain rfl : n = 0 := by omega
    rfl
  | succ w ih =>
    have hshift : gray n >>> 1 = gray (n >>> 1) := Nat.shiftRight_xor_distrib
    rw [bin, hshift, ih (shiftRight_one_lt h), gray, Nat.xor_assoc, Nat.xor_self, Nat.xor_zero]

theorem bin_lt {w g : Nat} (h : g < 2 ^ w) : bin w g < 2 ^ w := by
  induction w generalizing g with
  | zero => simp [bin]
  | succ w ih =>
    have hlow : bin w (g >>> 1) < 2 ^ (w + 1) :=
      (ih (shiftRight_one_lt h)).trans (Nat.pow_lt_pow_right Nat.one_lt_two w.lt_succ_self)
    exact Nat.xor_lt_two_pow h hlow

theorem depth_pos (cfg : Config) : 0 < cfg.depth := Nat.two_pow_pos _

theorem ptrMod_eq (cfg : Config) : cfg.ptrMod = 2 * cfg.depth := by
  rw [Config.ptrMod, Config.depth, Nat.pow_succ']

theorem mod_ptrMod_lt (cfg : Config) (p : Nat) : p % cfg.ptrMod < cfg.ptrMod := Nat.mod_lt _ (Nat.two_pow_pos _)

theorem ptrSucc_mod (cfg : Config) (p : Nat) : ptrSucc cfg (p % cfg.ptrMod) = (p + 1) % cfg.ptrMod :=
  Nat.mod_add_mod ..

theorem slotOf_mod_add (cfg : Config) (p k : Nat) : slotOf cfg (p % cfg.ptrMod + k) = slotOf cfg (p + k) := by
  have hdvd : cfg.depth ∣ cfg.ptrMod := ptrMod_eq cfg ▸ Nat.dvd_mul_left ..
  exact Nat.ModEq.add_right k (Nat.mod_mod_of_dvd p hdvd)

/-- Counts less than `DEPTH` apart name different slots (R163). -/
theorem slotOf_ne {cfg : Config} {j k : Nat} (hlt : j < k) (hnear : k < j + cfg.depth) : slotOf cfg j ≠ slotOf cfg k := by
  intro h
  have hdvd : cfg.depth ∣ k - j := (Nat.modEq_iff_dvd' hlt.le).mp h
  exact absurd (Nat.le_of_dvd (by omega) hdvd) (by omega)

/-- The distance of two pointers is the distance of the counts they stand for, if these are not too far apart. -/
theorem ptrDist_mod {cfg : Config} {a b : Nat} (hle : a ≤ b) (hnear : b < a + cfg.ptrMod) :
    ptrDist cfg (a % cfg.ptrMod) (b % cfg.ptrMod) = b - a := by
  have ha := mod_ptrMod_lt cfg a
  have hsum : a % cfg.ptrMod + (b % cfg.ptrMod + cfg.ptrMod - a % cfg.ptrMod) ≡ a + (b - a) [MOD cfg.ptrMod] := by
    rw [Nat.add_sub_cancel' (by omega), Nat.add_sub_cancel' hle]
    exact (Nat.add_mod_right ..).trans (Nat.mod_mod ..)
  have hdist := Nat.ModEq.add_left_cancel (Nat.mod_modEq a cfg.ptrMod) hsum
  exact Nat.mod_eq_of_modEq hdist (by omega)

/-- A pointer is its base and its distance from it. -/
theorem add_ptrDist_mod {cfg : Config} {a b : Nat} (ha : a < cfg.ptrMod) (hb : b < cfg.ptrMod) :
    (a + ptrDist cfg a b) % cfg.ptrMod = b := by
  rw [ptrDist, Nat.add_mod_mod, Nat.add_sub_cancel' (by omega), Nat.add_mod_right, Nat.mod_eq_of_lt hb]

end Sys2Proof.Machine
end

section
/-! PROOFS. A synchronizer chain of counts: it trails the count it follows, and every shift brings it nearer (R154, R155,
R165). -/

namespace Sys2Proof.Machine

/-- The stages of a chain are at most `n`, a later stage at most an earlier one. -/
def Trails (n : Nat) (q : List Nat) : Prop := q ≠ [] ∧ (n :: q).Pairwise (· ≥ ·)

theorem lastStage_mem {q : List Nat} (h : q ≠ []) : lastStage q ∈ q := by
  obtain ⟨l, a, rfl⟩ := List.eq_nil_or_concat q |>.resolve_left h
  simp [lastStage]

theorem lastStage_map {q : List Nat} (f : Nat → Nat) (h : q ≠ []) : lastStage (q.map f) = f (lastStage q) := by
  obtain ⟨l, a, rfl⟩ := List.eq_nil_or_concat q |>.resolve_left h
  simp [lastStage]

/-- If a chain holds counts modulo `m` in Gray code, so does its view. -/
theorem view_eq {w m : Nat} {q l : List Nat} (h : q.map (bin w) = l.map (· % m)) (hne : l ≠ []) :
    bin w (lastStage q) = lastStage l % m := by
  have hq : q ≠ [] := by
    rintro rfl
    exact hne (List.map_eq_nil_iff.mp h.symm)
  rw [← lastStage_map (bin w) hq, h, lastStage_map (· % m) hne]

theorem map_shiftIn (f : Nat → Nat) (g : Nat) (q : List Nat) : (shiftIn g q).map f = shiftIn (f g) (q.map f) := by
  simp [shiftIn, List.map_take]

theorem shiftIn_ne_nil {g : Nat} {q : List Nat} (h : q ≠ []) : shiftIn g q ≠ [] := by
  rwa [← List.length_pos_iff, shiftIn_length, List.length_pos_iff]

theorem Trails.lastStage_le {n x : Nat} {q : List Nat} (h : Trails n q) (hx : x ∈ n :: q) : lastStage q ≤ x := by
  obtain ⟨hne, hfalls⟩ := h
  obtain ⟨l, a, rfl⟩ := List.eq_nil_or_concat q |>.resolve_left hne
  rw [List.concat_eq_append, ← List.cons_append, List.pairwise_append] at hfalls
  obtain ⟨_, _, hlast⟩ := hfalls
  rw [List.concat_eq_append, ← List.cons_append, List.mem_append, List.mem_singleton] at hx
  have hstage : lastStage (l.concat a) = a := by simp [lastStage]
  rw [hstage]
  rcases hx with hx | rfl
  · exact hlast x hx a (List.mem_singleton_self a)
  · exact Nat.le_refl x

theorem Trails.mono {n m : Nat} {q : List Nat} (h : Trails n q) (hnm : n ≤ m) : Trails m q := by
  obtain ⟨hne, hfalls⟩ := h
  rw [List.pairwise_cons] at hfalls
  obtain ⟨hle, hq⟩ := hfalls
  exact ⟨hne, List.pairwise_cons.mpr ⟨fun x hx => (hle x hx).trans hnm, hq⟩⟩

theorem Trails.shiftIn {n : Nat} {q : List Nat} (h : Trails n q) : Trails n (shiftIn n q) := by
  obtain ⟨hne, hfalls⟩ := h
  refine ⟨shiftIn_ne_nil hne, List.pairwise_cons.mpr ⟨fun x hx => ?_, hfalls.sublist (List.take_sublist ..)⟩⟩
  rcases mem_shiftIn hx with rfl | hx
  · exact Nat.le_refl x
  · exact List.rel_of_pairwise_cons hfalls hx

/-- A view only moves toward the pointer it follows. -/
theorem Trails.lastStage_le_shiftIn {n : Nat} {q : List Nat} (h : Trails n q) :
    lastStage q ≤ lastStage (Machine.shiftIn n q) := by
  have ⟨hne, _⟩ := h
  exact h.lastStage_le (List.mem_cons.mpr (mem_shiftIn (lastStage_mem (shiftIn_ne_nil hne))))

end Sys2Proof.Machine
end

section
/-! PROOFS. The FIFO's pointers as counts that do not wrap: how many bytes were ever pushed and popped, and what each
side's chain knows of the other's count. Over counts the order of R163 is plain `≤`, and every operation is a step of
`+ 1` or a shift. -/

namespace Sys2Proof.Machine

/-- The counts behind the FIFO's pointers and chains. -/
structure Counts where
  /-- Behind `rptr`. -/
  popped : Nat
  /-- Behind `wptr`. -/
  pushed : Nat
  /-- Behind `rq[1..N]`. -/
  rq : List Nat
  /-- Behind `wq[1..N]`. -/
  wq : List Nat

/-- The registers of the FIFO hold these counts, modulo `2^(A+1)`, and the FIFO is in agreement: the counts in order, the
occupancy as the write side sees it at most `DEPTH`, and every waiting slot written (R163). -/
structure Counts.Of (c : Counts) (s : State) : Prop where
  rptr : s.rd.rptr = c.popped % s.cfg.ptrMod
  rptrG : s.rd.rptrG = gray s.rd.rptr
  wptr : s.wr.wptr = c.pushed % s.cfg.ptrMod
  wptrG : s.wr.wptrG = gray s.wr.wptr
  rq : s.wr.rq.map (bin s.cfg.ptrWidth) = c.rq.map (· % s.cfg.ptrMod)
  wq : s.rd.wq.map (bin s.cfg.ptrWidth) = c.wq.map (· % s.cfg.ptrMod)
  rq_trails : Trails c.popped c.rq
  popped_le : c.popped ≤ lastStage c.wq
  wq_trails : Trails c.pushed c.wq
  room : c.pushed ≤ lastStage c.rq + s.cfg.depth
  written : ∀ k, c.popped ≤ k → k < c.pushed → (Memory.read s.mem (slotOf s.cfg k)).isSome = true

namespace Counts.Of

variable {c : Counts} {s t : State}

/-- The counts depend on the FIFO's registers only. -/
theorem congr (h : c.Of s) (hcfg : t.cfg = s.cfg) (hmem : t.mem = s.mem) (hwr : t.wr = s.wr) (hrd : t.rd = s.rd) :
    c.Of t := by
  obtain ⟨cfg, inputs, core, out, mem, wr, rd, agree, resets⟩ := t
  cases hcfg
  cases hmem
  cases hwr
  cases hrd
  exact ⟨h.rptr, h.rptrG, h.wptr, h.wptrG, h.rq, h.wq, h.rq_trails, h.popped_le, h.wq_trails, h.room, h.written⟩

theorem popped_le_pushed (h : c.Of s) : c.popped ≤ c.pushed :=
  h.popped_le.trans (h.wq_trails.lastStage_le List.mem_cons_self)

/-- What the read side sees waiting is waiting (R156). -/
theorem popped_lt_pushed (h : c.Of s) (hview : c.popped < lastStage c.wq) : c.popped < c.pushed :=
  hview.trans_le (h.wq_trails.lastStage_le List.mem_cons_self)

theorem lastStage_rq_le (h : c.Of s) : lastStage c.rq ≤ c.popped := h.rq_trails.lastStage_le List.mem_cons_self

theorem rview_eq (h : c.Of s) : rview s = lastStage c.rq % s.cfg.ptrMod :=
  have ⟨hne, _⟩ := h.rq_trails
  view_eq h.rq hne

theorem wview_eq (h : c.Of s) : wview s = lastStage c.wq % s.cfg.ptrMod :=
  have ⟨hne, _⟩ := h.wq_trails
  view_eq h.wq hne

theorem occW_eq (h : c.Of s) : occW s = c.pushed - lastStage c.rq := by
  have hroom := h.room
  have hdepth := depth_pos s.cfg
  have hmod := ptrMod_eq s.cfg
  rw [occW, h.rview_eq, h.wptr]
  exact ptrDist_mod (h.lastStage_rq_le.trans h.popped_le_pushed) (by omega)

/-- The waiting bytes are those of the counts from `popped` to `pushed`. -/
theorem queueOf_eq (h : c.Of s) :
    queueOf s = (List.range' c.popped (c.pushed - c.popped)).filterMap fun k => Memory.read s.mem (slotOf s.cfg k) := by
  have hroom := h.room
  have hview := h.lastStage_rq_le
  have hdepth := depth_pos s.cfg
  have hmod := ptrMod_eq s.cfg
  rw [queueOf, h.rptr, h.wptr, ptrDist_mod h.popped_le_pushed (by omega), List.range'_eq_map_range, List.filterMap_map]
  exact List.filterMap_congr fun k _ => by rw [slotOf_mod_add]; rfl

end Counts.Of

/-- The count behind a pointer, from the write side's view on. -/
def countOf (s : State) (p : Nat) : Nat := rview s + ptrDist s.cfg (rview s) p

/-- Counts for the registers of `s`, from the write side's view on. -/
def Counts.ofState (s : State) : Counts where
  popped := countOf s s.rd.rptr
  pushed := countOf s s.wr.wptr
  rq := (s.wr.rq.map (bin s.cfg.ptrWidth)).map (countOf s)
  wq := (s.rd.wq.map (bin s.cfg.ptrWidth)).map (countOf s)

/-- In agreement the counts fall from `wptr` through the read side's chain to `rptr`, and on through the write side's. -/
theorem countOf_falls {s : State} (h : FifoAgrees s) :
    ((s.wr.wptr :: s.rd.wq.map (bin s.cfg.ptrWidth)).map (countOf s) ++
      (s.rd.rptr :: s.wr.rq.map (bin s.cfg.ptrWidth)).map (countOf s)).Pairwise (· ≥ ·) := by
  obtain ⟨hrises, _⟩ := h
  have hchain : (s.wr.wptr :: s.rd.wq.map (bin s.cfg.ptrWidth)) ++ (s.rd.rptr :: s.wr.rq.map (bin s.cfg.ptrWidth)) =
      (pointerChain s).reverse := by
    simp [pointerChain]
  rw [← List.map_append, hchain, List.pairwise_map, List.pairwise_reverse]
  rw [List.pairwise_map] at hrises
  exact hrises.imp fun hle => Nat.add_le_add_left hle _

theorem fifoShape_chains_ne_nil {s : State} (h : FifoShape s) : s.wr.rq ≠ [] ∧ s.rd.wq ≠ [] := by
  obtain ⟨hwf, _, _, _, _, hrq, _, hwq, _⟩ := h
  have ⟨_, hstages⟩ : 2 ≤ s.cfg.fifoAw ∧ 2 ≤ s.cfg.syncStages := by simpa [Config.wf] using hwf
  exact ⟨List.ne_nil_of_length_pos (by omega), List.ne_nil_of_length_pos (by omega)⟩

/-- A FIFO in agreement has counts. -/
theorem counts_ofState {s : State} (hshape : FifoShape s) (hagrees : FifoAgrees s) : (Counts.ofState s).Of s := by
  have ⟨hrqNe, hwqNe⟩ := fifoShape_chains_ne_nil hshape
  obtain ⟨_, hwptr, hwptrG, hrptr, hrptrG, _, hrq, _, hwq, _⟩ := hshape
  have hfalls := countOf_falls hagrees
  obtain ⟨_, hocc, hwritten⟩ := hagrees
  rw [List.pairwise_append] at hfalls
  obtain ⟨hwqFalls, hrqFalls, hcross⟩ := hfalls
  have hbase : rview s < s.cfg.ptrMod := bin_lt (hrq _ (lastStage_mem hrqNe))
  have hmod {p : Nat} (hp : p < s.cfg.ptrMod) : countOf s p % s.cfg.ptrMod = p := add_ptrDist_mod hbase hp
  have hview : lastStage (Counts.ofState s).rq = rview s := by
    have hself : ptrDist s.cfg (rview s) (rview s) = 0 := by simp [ptrDist]
    rw [Counts.ofState, lastStage_map _ (by simpa using hrqNe), lastStage_map _ hrqNe]
    change rview s + ptrDist s.cfg (rview s) (rview s) = rview s
    rw [hself, Nat.add_zero]
  have hstages {q : List Nat} (hq : ∀ g ∈ q, g < s.cfg.ptrMod) : q.map (bin s.cfg.ptrWidth) =
      ((q.map (bin s.cfg.ptrWidth)).map (countOf s)).map (· % s.cfg.ptrMod) := by
    rw [List.map_map, List.map_map]
    exact List.map_congr_left fun g hg => (hmod (bin_lt (hq g hg))).symm
  have hwqNe' : (Counts.ofState s).wq ≠ [] := by simpa [Counts.ofState] using hwqNe
  have hle : (Counts.ofState s).popped ≤ (Counts.ofState s).pushed :=
    hcross _ (List.mem_cons_self ..) _ (List.mem_cons_self ..)
  have hroom : (Counts.ofState s).pushed ≤ rview s + s.cfg.depth := Nat.add_le_add_left hocc _
  have hnear : (Counts.ofState s).pushed < (Counts.ofState s).popped + s.cfg.ptrMod := by
    have hfrom : rview s ≤ (Counts.ofState s).popped := Nat.le_add_right ..
    have hdepth := depth_pos s.cfg
    have hmodulus := ptrMod_eq s.cfg
    omega
  constructor
  case rptr => exact (hmod hrptr).symm
  case rptrG => exact hrptrG
  case wptr => exact (hmod hwptr).symm
  case wptrG => exact hwptrG
  case rq => exact hstages hrq
  case wq => exact hstages hwq
  case rq_trails => exact ⟨by simpa [Counts.ofState] using hrqNe, hrqFalls⟩
  case wq_trails => exact ⟨hwqNe', hwqFalls⟩
  case popped_le => exact hcross _ (List.mem_cons_of_mem _ (lastStage_mem hwqNe')) _ (List.mem_cons_self ..)
  case room => rw [hview]; exact hroom
  case written =>
    intro k hpopped hpushed
    have hwaiting : ptrDist s.cfg s.rd.rptr s.wr.wptr = (Counts.ofState s).pushed - (Counts.ofState s).popped := by
      conv_lhs => rw [← hmod hrptr, ← hmod hwptr]
      exact ptrDist_mod hle hnear
    have hslot : slotOf s.cfg (s.rd.rptr + (k - (Counts.ofState s).popped)) = slotOf s.cfg k := by
      conv_lhs => rw [← hmod hrptr]
      rw [slotOf_mod_add]
      exact congrArg _ (Nat.add_sub_cancel' hpopped)
    rw [← hslot]
    exact hwritten _ (by omega)

end Sys2Proof.Machine
end

section
/-! PROOFS. What each operation of the FIFO does to the counts and to the waiting bytes (R152 to R155, R160). -/

namespace Sys2Proof.Machine

/-- The counts after an operation. -/
def Counts.after (c : Counts) : Instr → Counts
  | .rpop _ => { c with popped := c.popped + 1 }
  | .rsync _ _ => { c with wq := shiftIn c.pushed c.wq }
  | .wpush _ => { c with pushed := c.pushed + 1 }
  | .wsync _ _ _ => { c with rq := shiftIn c.popped c.rq }
  | _ => c

/-- An operation that keeps a FIFO in agreement: a pop of the head byte when the read side sees one, a push when the write
side sees room, and no reset. -/
def Counts.Allows (c : Counts) (s : State) : Instr → Prop
  | .rpop d => c.popped < lastStage c.wq ∧ Memory.read s.mem (slotOf s.cfg c.popped) = some d
  | .wpush _ => c.pushed < lastStage c.rq + s.cfg.depth
  | .reset _ _ => False
  | .wreset _ _ _ => False
  | _ => True

/-- The bytes waiting in `s` and those that enter are the bytes that leave and those waiting in `t` (R157). -/
def Delivers (s : State) (entering leaving : List Byte) (t : State) : Prop :=
  queueOf s ++ entering = leaving ++ queueOf t

theorem Delivers.refl (s : State) : Delivers s [] [] s := List.append_nil _

theorem Delivers.trans {s t u : State} {i₁ o₁ i₂ o₂ : List Byte} (h : Delivers s i₁ o₁ t) (h' : Delivers t i₂ o₂ u) :
    Delivers s (i₁ ++ i₂) (o₁ ++ o₂) u := by
  unfold Delivers at h h' ⊢
  rw [← List.append_assoc, h, List.append_assoc, h', List.append_assoc]

/-- The waiting bytes depend on the storage and the pointers only. -/
theorem delivers_nothing {s t : State} (hcfg : t.cfg = s.cfg) (hmem : t.mem = s.mem) (hwptr : t.wr.wptr = s.wr.wptr)
    (hrptr : t.rd.rptr = s.rd.rptr) : Delivers s [] [] t := by
  rw [Delivers, List.append_nil, List.nil_append, queueOf, queueOf, hcfg, hmem, hwptr, hrptr]

theorem CoreOnly.after_counts {i : Instr} (h : CoreOnly i) (c : Counts) : c.after i = c := by
  cases i with
  | rpop | rsync | wpush | wsync => simp [CoreOnly, Instr.unit, popUnit, readSyncUnit, writeUnit, writeSyncUnit] at h
  | _ => rfl

theorem CoreOnly.allowed {i : Instr} (h : CoreOnly i) (c : Counts) (s : State) : c.Allows s i := by
  cases i with
  | rpop | wpush | reset | wreset => simp [CoreOnly, Instr.unit, popUnit, writeUnit, coreUnit] at h
  | _ => trivial

theorem CoreOnly.moves_no_byte {i : Instr} (h : CoreOnly i) : pushedByte i = none ∧ poppedByte i = none := by
  cases i with
  | rpop | wpush => simp [CoreOnly, Instr.unit, popUnit, writeUnit] at h
  | _ => exact ⟨rfl, rfl⟩

namespace Counts.Of

variable {c : Counts} {s t : State}

theorem coreOnly {i : Instr} (h : c.Of s) (hi : CoreOnly i) (hexec : exec i s = .next t) :
    c.Of t ∧ Delivers s [] [] t := by
  rw [exec_coreOnly_frame hi hexec]
  exact ⟨h.congr rfl rfl rfl rfl, delivers_nothing rfl rfl rfl rfl⟩

theorem rsync {v : Bool} {d : Byte} (h : c.Of s) (hexec : exec (.rsync v d) s = .next t) :
    (c.after (.rsync v d)).Of t ∧ Delivers s [] [] t := by
  cases hexec
  refine ⟨{ h with wq := ?_, popped_le := ?_, wq_trails := h.wq_trails.shiftIn }, delivers_nothing rfl rfl rfl rfl⟩
  · have hbin : bin s.cfg.ptrWidth s.wr.wptrG = c.pushed % s.cfg.ptrMod := by
      rw [h.wptrG, h.wptr]
      exact bin_gray (mod_ptrMod_lt ..)
    change (shiftIn s.wr.wptrG s.rd.wq).map _ = (shiftIn c.pushed c.wq).map _
    rw [map_shiftIn, map_shiftIn, hbin, h.wq]
  · exact h.popped_le.trans h.wq_trails.lastStage_le_shiftIn

theorem wsync {v f : Bool} {d : Byte} (h : c.Of s) (hexec : exec (.wsync v f d) s = .next t) :
    (c.after (.wsync v f d)).Of t ∧ Delivers s [] [] t := by
  cases hexec
  refine ⟨{ h with rq := ?_, rq_trails := h.rq_trails.shiftIn, room := ?_ }, delivers_nothing rfl rfl rfl rfl⟩
  · have hbin : bin s.cfg.ptrWidth s.rd.rptrG = c.popped % s.cfg.ptrMod := by
      rw [h.rptrG, h.rptr]
      exact bin_gray (mod_ptrMod_lt ..)
    change (shiftIn s.rd.rptrG s.wr.rq).map _ = (shiftIn c.popped c.rq).map _
    rw [map_shiftIn, map_shiftIn, hbin, h.rq]
  · exact h.room.trans (Nat.add_le_add_right h.rq_trails.lastStage_le_shiftIn _)

theorem rpop {d : Byte} (h : c.Of s) (hallows : c.Allows s (.rpop d)) (hexec : exec (.rpop d) s = .next t) :
    (c.after (.rpop d)).Of t ∧ Delivers s [] [d] t := by
  obtain ⟨hview, hhead⟩ := hallows
  have hof : (c.after (.rpop d)).Of t := by
    cases hexec
    exact { h with
      rptr := by rw [h.rptr]; exact ptrSucc_mod ..
      rptrG := rfl
      rq_trails := h.rq_trails.mono (Nat.le_succ _)
      popped_le := hview
      written := fun k hk => h.written k (Nat.le_of_succ_le hk) }
  refine ⟨hof, ?_⟩
  have hlt : c.popped < c.pushed := h.popped_lt_pushed hview
  obtain ⟨n, hn⟩ : ∃ n, c.pushed = c.popped + n + 1 := ⟨c.pushed - c.popped - 1, by omega⟩
  rw [Delivers, List.append_nil, h.queueOf_eq, hof.queueOf_eq]
  cases hexec
  have hbefore : c.pushed - c.popped = n + 1 := by omega
  have hafter : c.pushed - (c.popped + 1) = n := by omega
  simp only [Counts.after, hbefore, hafter, List.range'_succ, List.filterMap_cons, hhead]
  rfl

theorem slotOf_wptr (h : c.Of s) : slotOf s.cfg s.wr.wptr = slotOf s.cfg c.pushed := by
  rw [h.wptr]
  exact slotOf_mod_add s.cfg c.pushed 0

theorem slotOf_rptr (h : c.Of s) : slotOf s.cfg s.rd.rptr = slotOf s.cfg c.popped := by
  rw [h.rptr]
  exact slotOf_mod_add s.cfg c.popped 0

/-- While there is room, no waiting byte stands in the slot that a push writes (R163). -/
theorem slotOf_waiting_ne {k : Nat} (h : c.Of s) (hroom : c.pushed < lastStage c.rq + s.cfg.depth)
    (hpopped : c.popped ≤ k) (hpushed : k < c.pushed) : slotOf s.cfg k ≠ slotOf s.cfg s.wr.wptr := by
  have hview := h.lastStage_rq_le
  rw [h.slotOf_wptr]
  exact slotOf_ne hpushed (by omega)

theorem wpush {d : Byte} (h : c.Of s) (hallows : c.Allows s (.wpush d)) (hexec : exec (.wpush d) s = .next t) :
    (c.after (.wpush d)).Of t ∧ Delivers s [d] [] t := by
  have hroom : c.pushed < lastStage c.rq + s.cfg.depth := hallows
  have hcfg : t.cfg = s.cfg := by cases hexec; rfl
  have hnew : Memory.read t.mem (slotOf s.cfg c.pushed) = some d := by
    cases hexec
    rw [← h.slotOf_wptr]
    exact Memory.read_write_same ..
  have hold {k : Nat} (hpopped : c.popped ≤ k) (hpushed : k < c.pushed) :
      Memory.read t.mem (slotOf s.cfg k) = Memory.read s.mem (slotOf s.cfg k) := by
    cases hexec
    exact Memory.read_write_other _ _ (h.slotOf_waiting_ne hroom hpopped hpushed)
  have hof : (c.after (.wpush d)).Of t := by
    have hwritten (k : Nat) (hpopped : c.popped ≤ k) (hpushed : k < c.pushed + 1) :
        (Memory.read t.mem (slotOf s.cfg k)).isSome = true := by
      rcases Nat.lt_succ_iff_lt_or_eq.mp hpushed with hpushed | rfl
      · rw [hold hpopped hpushed]; exact h.written k hpopped hpushed
      · rw [hnew]; rfl
    cases hexec
    exact { h with
      wptr := by rw [h.wptr]; exact ptrSucc_mod ..
      wptrG := rfl
      wq_trails := h.wq_trails.mono (Nat.le_succ _)
      room := hroom
      written := hwritten }
  refine ⟨hof, ?_⟩
  have hgrow : c.pushed + 1 - c.popped = c.pushed - c.popped + 1 := Nat.succ_sub h.popped_le_pushed
  have hlast : c.popped + (c.pushed - c.popped) = c.pushed := Nat.add_sub_cancel' h.popped_le_pushed
  have hsame : (List.range' c.popped (c.pushed - c.popped)).filterMap (fun k => Memory.read t.mem (slotOf s.cfg k)) =
      (List.range' c.popped (c.pushed - c.popped)).filterMap (fun k => Memory.read s.mem (slotOf s.cfg k)) :=
    List.filterMap_congr fun k hk => by
      obtain ⟨hpopped, hpushed⟩ := List.mem_range'_1.mp hk
      exact hold hpopped (by omega)
  rw [Delivers, List.nil_append, h.queueOf_eq, hof.queueOf_eq, hcfg]
  simp only [Counts.after, hgrow, List.range'_1_concat, List.filterMap_append, hsame, hlast, List.filterMap_cons, hnew,
    List.filterMap_nil]

/-- Every operation the counts allow keeps the FIFO in agreement, and moves its byte. -/
theorem exec {i : Instr} (h : c.Of s) (hallows : c.Allows s i) (hexec : Machine.exec i s = .next t) :
    (c.after i).Of t ∧ Delivers s (pushedByte i).toList (poppedByte i).toList t := by
  have hcoreOnly (hi : CoreOnly i) :
      (c.after i).Of t ∧ Delivers s (pushedByte i).toList (poppedByte i).toList t := by
    obtain ⟨hpushed, hpopped⟩ := hi.moves_no_byte
    rw [hi.after_counts, hpushed, hpopped]
    exact h.coreOnly hi hexec
  cases i with
  | rpop d => exact h.rpop hallows hexec
  | rsync v d => exact h.rsync hexec
  | wpush d => exact h.wpush hallows hexec
  | wsync v f d => exact h.wsync hexec
  | wdrop d => cases hexec; exact ⟨{ h with }, delivers_nothing rfl rfl rfl rfl⟩
  | reset | wreset => exact hallows.elim
  | idle d => exact hcoreOnly (coreOnly_idle d)
  | _ => exact hcoreOnly (.inl rfl)

/-- An operation leaves allowed what another unit was allowed to do. -/
theorem exec_allows {i j : Instr} (h : c.Of s) (hi : c.Allows s i) (hj : c.Allows s j) (hunit : i.unit ≠ j.unit)
    (hexec : Machine.exec i s = .next t) : (c.after i).Allows t j := by
  have hcoreOnly (hi : CoreOnly i) : (c.after i).Allows t j := by
    rw [hi.after_counts, exec_coreOnly_frame hi hexec]
    exact hj
  cases i with
  | rpop d =>
    cases hexec
    cases j with
    | rpop => exact absurd rfl hunit
    | _ => exact hj
  | rsync v d =>
    cases hexec
    cases j with
    | rpop d' =>
      obtain ⟨hview, hhead⟩ := hj
      exact ⟨hview.trans_le h.wq_trails.lastStage_le_shiftIn, hhead⟩
    | _ => exact hj
  | wpush d =>
    cases hexec
    cases j with
    | rpop d' =>
      obtain ⟨hview, hhead⟩ := hj
      have hslot := h.slotOf_waiting_ne hi (Nat.le_refl _) (h.popped_lt_pushed hview)
      exact ⟨hview, (Memory.read_write_other _ _ hslot).trans hhead⟩
    | wpush => exact absurd rfl hunit
    | _ => exact hj
  | wsync v f d =>
    cases hexec
    cases j with
    | wpush d' => exact hj.trans_le (Nat.add_le_add_right h.rq_trails.lastStage_le_shiftIn _)
    | _ => exact hj
  | wdrop d => cases hexec; cases j <;> exact hj
  | reset | wreset => exact hi.elim
  | idle d => exact hcoreOnly (coreOnly_idle d)
  | _ => exact hcoreOnly (.inl rfl)

end Counts.Of

end Sys2Proof.Machine
end

section
/-! PROOFS. The operations of one edge without reset: one for each unit, all of them allowed by the counts. -/

namespace Sys2Proof.Machine

theorem filterMap_cons_toList (f : Instr → Option Byte) (i : Instr) (is : List Instr) :
    (i :: is).filterMap f = (f i).toList ++ is.filterMap f := by
  cases hi : f i <;> simp [hi]

/-- Operations of different units that the counts allow keep the FIFO in agreement and move their bytes, in any order. -/
theorem Counts.Of.execAll {c : Counts} {is : List Instr} {s u : State} (h : c.Of s) (hallows : ∀ i ∈ is, c.Allows s i)
    (hunits : is.Pairwise fun i j => i.unit ≠ j.unit) (hrun : Machine.execAll is s = .next u) :
    (∃ c' : Counts, c'.Of u) ∧ Delivers s (is.filterMap pushedByte) (is.filterMap poppedByte) u := by
  induction is generalizing c s with
  | nil => cases hrun; exact ⟨⟨c, h⟩, Delivers.refl _⟩
  | cons i is ih =>
    obtain ⟨t, ht, hu⟩ := execAll_cons_next_iff.mp hrun
    obtain ⟨hi, hallows⟩ := List.forall_mem_cons.mp hallows
    obtain ⟨hunit, hunits⟩ := List.pairwise_cons.mp hunits
    obtain ⟨hof, hfirst⟩ := h.exec hi ht
    obtain ⟨hcounts, hothers⟩ :=
      ih hof (fun j hj => h.exec_allows hi (hallows j hj) (hunit j hj) ht) hunits hu
    refine ⟨hcounts, ?_⟩
    have hboth := hfirst.trans hothers
    rwa [← filterMap_cons_toList, ← filterMap_cons_toList] at hboth

theorem placeSync_perm (new : Bool) (sync rest : List Instr) : (placeSync new sync rest).Perm (sync ++ rest) := by
  cases new
  · exact List.Perm.refl _
  · exact List.perm_append_comm

/-- The operations of an edge of a block with the FIFO: those of the read side where `clk` rises, and those of the write
side where `wclk` does. -/
theorem fetch_perm {s : State} {e : Edge} {is : List Instr} (h : fetch s e = .next is) :
    ∃ js ks, is.Perm (js ++ ks) ∧
      (e.clkPart = none ∧ js = [] ∨
        ∃ c p, e.clkPart = some c ∧ readPort s c = .next p ∧ js = coreOps s p ++ readSyncOps s p) ∧
      (e.wclkPart = none ∧ ks = [] ∨ ∃ w, e.wclkPart = some w ∧ ks = writeOps s w ++ writeSyncOps s w) := by
  cases e with
  | clk c =>
    obtain ⟨p, hp, rfl⟩ := fetch_clk_next h
    exact ⟨_, [], by rw [List.append_nil], .inr ⟨c, p, rfl, hp, rfl⟩, .inl ⟨rfl, rfl⟩⟩
  | wclk w =>
    obtain ⟨_, rfl⟩ := fetch_wclk_next h
    exact ⟨[], _, List.Perm.refl _, .inl ⟨rfl, rfl⟩, .inr ⟨w, rfl, rfl⟩⟩
  | both c w rNew wNew =>
    obtain ⟨_, p, hp, rfl⟩ := fetch_both_next h
    refine ⟨_, _, ?_, .inr ⟨c, p, rfl, hp, rfl⟩, .inr ⟨w, rfl, rfl⟩⟩
    have houter := placeSync_perm rNew (readSyncOps s p) (placeSync wNew (writeSyncOps s w) (coreOps s p ++ writeOps s w))
    have hinner := (placeSync_perm wNew (writeSyncOps s w) (coreOps s p ++ writeOps s w)).append_left (readSyncOps s p)
    refine (houter.trans hinner).trans ?_
    rw [List.perm_iff_count]
    intro i
    simp only [List.count_append]
    omega

-- ---------------------------------------------------------------- the operations of each side

@[simp] theorem unit_rpop (d : Byte) : (Instr.rpop d).unit = popUnit := rfl
@[simp] theorem unit_rsync (v : Bool) (d : Byte) : (Instr.rsync v d).unit = readSyncUnit := rfl
@[simp] theorem unit_wpush (d : Byte) : (Instr.wpush d).unit = writeUnit := rfl
@[simp] theorem unit_wdrop (d : Byte) : (Instr.wdrop d).unit = writeUnit := rfl
@[simp] theorem unit_wsync (v f : Bool) (d : Byte) : (Instr.wsync v f d).unit = writeSyncUnit := rfl

@[simp] theorem poppedByte_rpop (d : Byte) : poppedByte (.rpop d) = some d := rfl
@[simp] theorem poppedByte_rsync (v : Bool) (d : Byte) : poppedByte (.rsync v d) = none := rfl
@[simp] theorem poppedByte_wpush (d : Byte) : poppedByte (.wpush d) = none := rfl
@[simp] theorem poppedByte_wdrop (d : Byte) : poppedByte (.wdrop d) = none := rfl
@[simp] theorem poppedByte_wsync (v f : Bool) (d : Byte) : poppedByte (.wsync v f d) = none := rfl

@[simp] theorem Counts.allows_rsync (c : Counts) (s : State) (v : Bool) (d : Byte) : c.Allows s (.rsync v d) := trivial
@[simp] theorem Counts.allows_wdrop (c : Counts) (s : State) (d : Byte) : c.Allows s (.wdrop d) := trivial
@[simp] theorem Counts.allows_wsync (c : Counts) (s : State) (v f : Bool) (d : Byte) : c.Allows s (.wsync v f d) :=
  trivial

theorem rst_of_noReset {e : Edge} {c : ClkIn} (h : e.noReset = true) (hc : e.clkPart = some c) : c.rst = false := by
  cases e <;> simp_all [Edge.noReset, Edge.clkPart]

/-- The read port shows the edge's `rst` (R156). -/
theorem rst_of_readPort {s : State} {e : Edge} {c p : ClkIn} (h : e.noReset = true) (hc : e.clkPart = some c)
    (hp : readPort s c = .next p) : p.rst = false := by
  obtain ⟨hr, _⟩ := readPort_next_cases hp
  rw [hr, rst_of_noReset h hc]

theorem wrst_of_noReset {e : Edge} {w : WclkIn} (h : e.noReset = true) (hw : e.wclkPart = some w) :
    w.wrst = false := by
  cases e <;> simp_all [Edge.noReset, Edge.wclkPart]

theorem acceptedBytes_singleton (p : ClkIn) : acceptedBytes [p] = if p.acc then [p.inData] else [] := by
  cases h : p.acc <;> simp [acceptedBytes, h]

/-- At a `clk` edge without reset of a block with the FIFO the core does one operation, the byte it accepts is popped, and
the synchronizer shifts (R155, R160). -/
theorem clkOps_eq {s : State} {p : ClkIn} (hfifo : s.cfg.cdcMode = .asyncFifo) (hr : p.rst = false) :
    ∃ i, CoreOnly i ∧
      coreOps s p ++ readSyncOps s p = i :: (acceptedBytes [p]).map .rpop ++ [.rsync p.inValid p.inData] := by
  obtain ⟨i, hi, hcore⟩ := opOf_coreWord_coreOnly s hr
  refine ⟨i, hi, ?_⟩
  rw [coreOps, readSyncOps, hcore, hr, opOf_pop, opOf_readSync]
  cases hv : p.inValid <;> simp [hfifo, acceptedBytes, ClkIn.acc, hr, hv]

/-- At a `wclk` edge without reset the byte presented is pushed or dropped, and the synchronizer shifts (R152 to R154). -/
theorem wclkOps_eq {s : State} {w : WclkIn} (hfifo : s.cfg.cdcMode = .asyncFifo) (hr : w.wrst = false) :
    writeOps s w ++ writeSyncOps s w =
      (if w.wrValid then [if fullW s then .wdrop w.wrData else .wpush w.wrData] else []) ++
        [.wsync w.wrValid (fullW s) w.wrData] := by
  rw [writeOps, writeSyncOps, writePort, opOf_write _ _ _ _ _ hfifo, opOf_writeSync _ _ _ _ _ hfifo, hr]
  simp

/-- The read side sees a byte only when its view is ahead of the pops (R156). -/
theorem Counts.Of.popped_lt_view {c : Counts} {s : State} (h : c.Of s) (hview : wview s ≠ s.rd.rptr) :
    c.popped < lastStage c.wq := by
  refine lt_of_le_of_ne h.popped_le fun heq => hview ?_
  rw [h.wview_eq, h.rptr, heq]

/-- What stands at the FIFO's read port is allowed to be popped when the core accepts it (R156). -/
theorem Counts.Of.allows_rpop {c : Counts} {s : State} {i p : ClkIn} (h : c.Of s)
    (hfifo : s.cfg.cdcMode = .asyncFifo) (hp : readPort s i = .next p) (hacc : p.acc = true) :
    c.Allows s (.rpop p.inData) := by
  obtain ⟨_, ⟨hnone, _⟩ | ⟨_, rfl, hhead⟩⟩ := readPort_next_cases hp
  · rw [hfifo] at hnone; cases hnone
  obtain ⟨_, hhead⟩ := hhead hacc
  obtain ⟨_, hview⟩ := (fifoPort_acc_iff s i).mp hacc
  exact ⟨h.popped_lt_view hview, h.slotOf_rptr ▸ hhead⟩

/-- The write side pushes only when it sees room (R152). -/
theorem Counts.Of.allows_wpush {c : Counts} {s : State} (h : c.Of s) (hfull : fullW s = false) (d : Byte) :
    c.Allows s (.wpush d) := by
  have hroom := h.room
  have hview := h.lastStage_rq_le.trans h.popped_le_pushed
  have hne : occW s ≠ s.cfg.depth := of_decide_eq_false hfull
  rw [h.occW_eq] at hne
  change c.pushed < lastStage c.rq + s.cfg.depth
  omega

theorem CoreOnly.unit_eq {i : Instr} (h : CoreOnly i) : i.unit = 0 ∨ i.unit = coreUnit :=
  h.imp_right fun ⟨_, hi⟩ => hi ▸ rfl

/-- The units of the read side are numbered below those of the write side, and each does one operation at most. -/
theorem clkOps_units {s : State} {p : ClkIn} (hfifo : s.cfg.cdcMode = .asyncFifo) (hr : p.rst = false) :
    (coreOps s p ++ readSyncOps s p).Pairwise (fun i j => i.unit ≠ j.unit) ∧
      ∀ i ∈ coreOps s p ++ readSyncOps s p, i.unit < writeUnit := by
  obtain ⟨i, hi, hops⟩ := clkOps_eq hfifo hr
  rw [hops, acceptedBytes_singleton]
  rcases hi.unit_eq with hu | hu <;> cases p.acc <;> simp [hu, coreUnit, popUnit, readSyncUnit, writeUnit]

theorem wclkOps_units {s : State} {w : WclkIn} (hfifo : s.cfg.cdcMode = .asyncFifo) (hr : w.wrst = false) :
    (writeOps s w ++ writeSyncOps s w).Pairwise (fun i j => i.unit ≠ j.unit) ∧
      ∀ i ∈ writeOps s w ++ writeSyncOps s w, writeUnit ≤ i.unit := by
  rw [wclkOps_eq hfifo hr]
  cases w.wrValid <;> cases fullW s <;> simp [writeUnit, writeSyncUnit]

theorem clkOps_popped {s : State} {p : ClkIn} (hfifo : s.cfg.cdcMode = .asyncFifo) (hr : p.rst = false) :
    (coreOps s p ++ readSyncOps s p).filterMap poppedByte = acceptedBytes [p] := by
  obtain ⟨i, hi, hops⟩ := clkOps_eq hfifo hr
  obtain ⟨_, hcore⟩ := hi.moves_no_byte
  rw [hops, acceptedBytes_singleton]
  cases p.acc <;> simp [hcore]

theorem wclkOps_popped {s : State} {w : WclkIn} (hfifo : s.cfg.cdcMode = .asyncFifo) (hr : w.wrst = false) :
    (writeOps s w ++ writeSyncOps s w).filterMap poppedByte = [] := by
  rw [wclkOps_eq hfifo hr]
  cases w.wrValid <;> cases fullW s <;> simp

theorem Counts.Of.allows_clkOps {c : Counts} {s : State} {i p : ClkIn} (h : c.Of s)
    (hfifo : s.cfg.cdcMode = .asyncFifo) (hp : readPort s i = .next p) (hr : p.rst = false) :
    ∀ j ∈ coreOps s p ++ readSyncOps s p, c.Allows s j := by
  obtain ⟨i, hi, hops⟩ := clkOps_eq hfifo hr
  rw [hops, acceptedBytes_singleton]
  cases hacc : p.acc with
  | true => simp [hi.allowed c s, h.allows_rpop hfifo hp hacc]
  | false => simp [hi.allowed c s]

theorem Counts.Of.allows_wclkOps {c : Counts} {s : State} {w : WclkIn} (h : c.Of s)
    (hfifo : s.cfg.cdcMode = .asyncFifo) (hr : w.wrst = false) :
    ∀ j ∈ writeOps s w ++ writeSyncOps s w, c.Allows s j := by
  rw [wclkOps_eq hfifo hr]
  cases hfull : fullW s with
  | true => cases w.wrValid <;> simp
  | false => cases w.wrValid <;> simp [h.allows_wpush hfull]

-- ---------------------------------------------------------------- a whole edge

/-- What an edge without reset selects, of a FIFO in agreement: operations of different units that the counts allow. -/
theorem Counts.Of.allows_edge {c : Counts} {s : State} {e : Edge} {is : List Instr} (h : c.Of s)
    (hfifo : s.cfg.cdcMode = .asyncFifo) (hnoReset : e.noReset = true) (hf : fetch s e = .next is) :
    (∀ i ∈ is, c.Allows s i) ∧ is.Pairwise (fun i j => i.unit ≠ j.unit) := by
  obtain ⟨js, ks, hperm, hjs, hks⟩ := fetch_perm hf
  have hread : (∀ i ∈ js, c.Allows s i) ∧ js.Pairwise (fun i j => i.unit ≠ j.unit) ∧ ∀ i ∈ js, i.unit < writeUnit := by
    rcases hjs with ⟨_, rfl⟩ | ⟨i, p, hi, hp, rfl⟩
    · simp
    · have hr := rst_of_readPort hnoReset hi hp
      exact ⟨h.allows_clkOps hfifo hp hr, clkOps_units hfifo hr⟩
  have hwrite : (∀ i ∈ ks, c.Allows s i) ∧ ks.Pairwise (fun i j => i.unit ≠ j.unit) ∧ ∀ i ∈ ks, writeUnit ≤ i.unit := by
    rcases hks with ⟨_, rfl⟩ | ⟨w, hw, rfl⟩
    · simp
    · have hr := wrst_of_noReset hnoReset hw
      exact ⟨h.allows_wclkOps hfifo hr, wclkOps_units hfifo hr⟩
  obtain ⟨hjsAllowed, hjsUnits, hjsBelow⟩ := hread
  obtain ⟨hksAllowed, hksUnits, hksAbove⟩ := hwrite
  refine ⟨fun i hi => ?_, (hperm.pairwise_iff Ne.symm).mpr (List.pairwise_append.mpr ⟨hjsUnits, hksUnits, ?_⟩)⟩
  · exact (List.mem_append.mp (hperm.mem_iff.mp hi)).elim (hjsAllowed i) (hksAllowed i)
  · intro i hi j hj heq
    exact BitVec.not_lt.mpr (heq ▸ hksAbove j hj) (hjsBelow i hi)

/-- The bytes popped at an edge without reset are those the core accepts: none if `clk` does not rise. -/
theorem popped_eq_accepted {s : State} {e : Edge} {is : List Instr} (hfifo : s.cfg.cdcMode = .asyncFifo)
    (hnoReset : e.noReset = true) (hf : fetch s e = .next is) :
    (e.clkPart = none ∧ is.filterMap poppedByte = []) ∨
      ∃ i p, e.clkPart = some i ∧ readPort s i = .next p ∧ is.filterMap poppedByte = acceptedBytes [p] := by
  obtain ⟨js, ks, hperm, hjs, hks⟩ := fetch_perm hf
  have hwrite : ks.filterMap poppedByte = [] := by
    rcases hks with ⟨_, rfl⟩ | ⟨w, hw, rfl⟩
    · rfl
    · exact wclkOps_popped hfifo (wrst_of_noReset hnoReset hw)
  have hpopped : (is.filterMap poppedByte).Perm (js.filterMap poppedByte) := by
    have hall := hperm.filterMap poppedByte
    rwa [List.filterMap_append, hwrite, List.append_nil] at hall
  rcases hjs with ⟨hclk, rfl⟩ | ⟨i, p, hi, hp, rfl⟩
  · exact .inl ⟨hclk, List.perm_nil.mp hpopped⟩
  · have hr := rst_of_readPort hnoReset hi hp
    rw [clkOps_popped hfifo hr, acceptedBytes_singleton] at hpopped
    refine .inr ⟨i, p, hi, hp, ?_⟩
    rw [acceptedBytes_singleton]
    cases hacc : p.acc <;> simpa [hacc] using hpopped

end Sys2Proof.Machine
end

section
/-! PROOFS. Runs of a FIFO in agreement without reset: no step stops, every pushed byte is delivered once and in order, and
the core decodes the delivered bytes (R69, R157). -/

namespace Sys2Proof.Machine

/-- The FIFO is present and in agreement. -/
structure InAgreement (s : State) : Prop where
  fifo : s.cfg.cdcMode = .asyncFifo
  agree : s.agree = true
  counts : ∃ c : Counts, c.Of s

theorem inAgreement_of_fifoInv {s : State} (hfifo : s.cfg.cdcMode = .asyncFifo) (hinv : FifoInv s)
    (hagree : s.agree = true) : InAgreement s :=
  have ⟨hshape, hagrees⟩ := hinv
  ⟨hfifo, hagree, Counts.ofState s, counts_ofState hshape (hagrees (.inl hagree))⟩

/-- An edge without reset breaks no agreement (R202). -/
theorem noteEdge_keeps_agree {s : State} {e : Edge} (hfifo : s.cfg.cdcMode = .asyncFifo) (hagree : s.agree = true)
    (hnoReset : e.noReset = true) (t : State) : (s.noteEdge e t).agree = true := by
  have hrst : e.rstLevel ≠ some true := by
    intro h
    obtain ⟨c, hc, hr⟩ := Option.map_eq_some_iff.mp h
    rw [rst_of_noReset hnoReset hc] at hr
    cases hr
  have hwrst : e.wrstLevel ≠ some true := by
    intro h
    obtain ⟨w, hw, hr⟩ := Option.map_eq_some_iff.mp h
    rw [wrst_of_noReset hnoReset hw] at hr
    cases hr
  simp [State.noteEdge, hfifo, hagree, breaksAgreement, hrst, hwrst]

theorem nextOps_of_fetch {s : State} {e : Edge} {rest : List Edge} {is : List Instr} (hin : s.inputs = e :: rest)
    (hf : fetch { s with inputs := rest } e = .next is) : nextOps s = is := by
  have hsame : fetch s e = fetch { s with inputs := rest } e := by cases e <;> rfl
  simp [nextOps, hin, hsame, hf]

/-- Without reset a block in agreement answers every edge: the slot at the read port was written (R151, R163). -/
theorem InAgreement.step_answers {s : State} {e : Edge} {rest : List Edge} (h : InAgreement s)
    (hin : s.inputs = e :: rest) : ∃ t, step s = .next t := by
  obtain ⟨hfifo, hagree, c, hof⟩ := h
  refine Machine.step_answers hin (fun ⟨hnone, _⟩ => by rw [hfifo] at hnone; cases hnone) fun ⟨_, _, hview⟩ => ?_
  have hlt := hof.popped_lt_view hview
  rw [hof.slotOf_rptr]
  exact ⟨hagree, Option.isSome_iff_ne_none.mp (hof.written c.popped (Nat.le_refl _) (hof.popped_lt_pushed hlt))⟩

/-- An edge without reset keeps the agreement and delivers the bytes it pops. -/
theorem InAgreement.step_delivers {s t : State} {e : Edge} {rest : List Edge} (h : InAgreement s)
    (hin : s.inputs = e :: rest) (hnoReset : e.noReset = true) (ht : step s = .next t) :
    InAgreement t ∧ Delivers s ((nextOps s).filterMap pushedByte) ((nextOps s).filterMap poppedByte) t := by
  obtain ⟨hfifo, hagree, c, hof⟩ := h
  obtain ⟨hnil, _⟩ | ⟨e', rest', is, u, hin', hf, hrun, rfl⟩ := step_next_cases ht
  · rw [hin] at hnil; cases hnil
  cases hin.symm.trans hin'
  have hof' : c.Of { s with inputs := rest } := hof.congr rfl rfl rfl rfl
  obtain ⟨hallows, hunits⟩ := hof'.allows_edge hfifo hnoReset hf
  obtain ⟨⟨c', hof''⟩, hdelivers⟩ := hof'.execAll hallows hunits hrun
  have hcfg : u.cfg = s.cfg := (execAll_keeps_cfg hrun).trans rfl
  rw [nextOps_of_fetch hin hf]
  refine ⟨⟨?_, noteEdge_keeps_agree hfifo hagree hnoReset u, c', ?_⟩, ?_⟩
  · rw [State.noteEdge_cfg, hcfg, hfifo]
  · exact hof''.congr (State.noteEdge_cfg ..) (State.noteEdge_mem ..) (State.noteEdge_wr ..) (State.noteEdge_rd ..)
  · have hnote := hdelivers.trans (delivers_nothing (t := State.noteEdge { s with inputs := rest } e u)
      (State.noteEdge_cfg ..) (State.noteEdge_mem ..) (by rw [State.noteEdge_wr]) (by rw [State.noteEdge_rd]))
    rwa [List.append_nil, List.append_nil] at hnote

/-- At an edge without reset the core takes the popped byte, if there is one, and shows what the reference function
answers (R135). -/
theorem step_decodes_popped {s t : State} {e : Edge} {rest : List Edge} (hfifo : s.cfg.cdcMode = .asyncFifo)
    (hin : s.inputs = e :: rest) (hnoReset : e.noReset = true) (ht : step s = .next t) :
    t.core = streamCore s.cfg s.core ((nextOps s).filterMap poppedByte) ∧
      (if e.hasClk then (outOf t.out).toList else []) =
        decodeStream s.cfg s.core ((nextOps s).filterMap poppedByte) := by
  obtain ⟨hnil, _⟩ | ⟨e', rest', is, _, hin', hf, _⟩ := step_next_cases ht
  · rw [hin] at hnil; cases hnil
  cases hin.symm.trans hin'
  have hpopped := popped_eq_accepted (s := { s with inputs := rest }) hfifo hnoReset hf
  rw [nextOps_of_fetch hin hf]
  obtain ⟨_, _, ⟨_, ⟨w, rfl⟩, hcore, _⟩ | ⟨c, p, ⟨hc, _⟩, hp, hside⟩⟩ := step_coreSide_cases hin ht
  · obtain ⟨_, hnone⟩ | ⟨_, _, hclk, _⟩ := hpopped
    · rw [hnone]; exact ⟨hcore, rfl⟩
    · cases hclk
  · obtain ⟨hnone, _⟩ | ⟨c', p', hc', hp', haccepted⟩ := hpopped
    · rw [hc] at hnone; cases hnone
    cases hc.symm.trans hc'
    cases (show readPort s c = .next p' from hp').symm.trans hp
    rw [haccepted, hasClk_eq_isSome, hc]
    exact clkCycle_stream (rst_of_readPort hnoReset hc hp) hside

theorem bytesOver_succ {s t : State} (sel : Instr → Option Byte) (k : Nat) (h : step s = .next t) :
    bytesOver sel (k + 1) s = (nextOps s).filterMap sel ++ bytesOver sel k t := by
  simp [bytesOver, h]

/-- A run without reset from a block in agreement answers, delivers its bytes and decodes the popped ones. -/
theorem InAgreement.run_delivers {s : State} {es rest : List Edge} (h : InAgreement s) (hin : s.inputs = es ++ rest)
    (hnoReset : ∀ e ∈ es, e.noReset = true) :
    ∃ t, core.run es.length s = .next t ∧ t.inputs = rest ∧
      Delivers s (bytesOver pushedByte es.length s) (bytesOver poppedByte es.length s) t ∧
      t.core = streamCore s.cfg s.core (bytesOver poppedByte es.length s) ∧
      outsOver es.length s = decodeStream s.cfg s.core (bytesOver poppedByte es.length s) := by
  induction es generalizing s with
  | nil => exact ⟨s, rfl, hin, Delivers.refl s, rfl, rfl⟩
  | cons e es ih =>
    obtain ⟨he, hnoReset⟩ := List.forall_mem_cons.mp hnoReset
    obtain ⟨t, ht⟩ := h.step_answers hin
    obtain ⟨hinputs, hcfg, _⟩ := step_coreSide_cases hin ht
    obtain ⟨hagree, hfirst⟩ := h.step_delivers hin he ht
    obtain ⟨hcore, hout⟩ := step_decodes_popped h.fifo hin he ht
    obtain ⟨u, hu, hrest, hothers, hucore, huout⟩ := ih hagree hinputs hnoReset
    rw [hcfg, hcore] at hucore huout
    refine ⟨u, run_succ_next_iff.mpr ⟨t, ht, hu⟩, hrest, ?_⟩
    rw [List.length_cons, bytesOver_succ pushedByte _ ht, bytesOver_succ poppedByte _ ht, outsOver_succ _ hin ht,
      streamCore_append, decodeStream_append, hout, huout]
    exact ⟨hfirst.trans hothers, hucore, rfl⟩

/-- Settles O57: the invariant gives counts, and every edge without reset keeps them, delivers its bytes and decodes the
popped ones. -/
theorem fifoDeliversInOrder : Obligations.FifoDeliversInOrder :=
  fun _ _ _ hfifo hinv hagree hin hnoReset =>
    (inAgreement_of_fifoInv hfifo hinv hagree).run_delivers hin hnoReset

end Sys2Proof.Machine
end

section
/-! PROOFS. Decoding format by format: what the decoder makes of a key and of a port word laid out from its fields, and
which words it accepts (R85 to R87). -/

namespace Sys2Proof

/-- The units that read the core port word (opcode_table.json, rows IDLE, RESET, RPOP, RSYNC). -/
def ReadsCorePort (unit : BitVec 3) : Prop := unit = coreUnit ∨ unit = popUnit ∨ unit = readSyncUnit

/-- The units that read the write port word (opcode_table.json, rows WPUSH, WDROP, WSYNC, WRESET). -/
def ReadsWritePort (unit : BitVec 3) : Prop := unit = writeUnit ∨ unit = writeSyncUnit

theorem ReadsCorePort.core : ReadsCorePort coreUnit := .inl rfl
theorem ReadsCorePort.pop : ReadsCorePort popUnit := .inr (.inl rfl)
theorem ReadsCorePort.readSync : ReadsCorePort readSyncUnit := .inr (.inr rfl)
theorem ReadsWritePort.write : ReadsWritePort writeUnit := .inl rfl
theorem ReadsWritePort.writeSync : ReadsWritePort writeSyncUnit := .inr rfl

theorem decode_keyWord (cfg : Config) (sum : Byte) (key : BitVec 13) :
    decode cfg sum (keyWord key) = .ok (decodeKey cfg.header sum key) := by
  simp [decode]

theorem decode_corePortWord (cfg : Config) (sum : Byte) {unit : BitVec 3} (p : BitVec 10) (h : ReadsCorePort unit) :
    decode cfg sum (corePortWord unit p) = decodeCorePort cfg unit p := by
  rcases h with rfl | rfl | rfl <;> simp [decode, coreUnit, popUnit, readSyncUnit]

theorem decode_writePortWord (cfg : Config) (sum : Byte) {unit : BitVec 3} (p : BitVec 11) (h : ReadsWritePort unit) :
    decode cfg sum (writePortWord unit p) = decodeWritePort cfg unit p := by
  rcases h with rfl | rfl <;> simp [decode, coreUnit, popUnit, readSyncUnit, writeUnit, writeSyncUnit]

/-- Inversion of an accepted word: it is a key, or a port word of a unit that reads that port. -/
theorem decode_ok_cases {cfg : Config} {sum : Byte} {w : EventWord} {i : Instr} (h : decode cfg sum w = .ok i) :
    (∃ key, w = keyWord key ∧ decodeKey cfg.header sum key = i) ∨
    (∃ unit p, ReadsCorePort unit ∧ w = corePortWord unit p ∧ decodeCorePort cfg unit p = .ok i) ∨
    (∃ unit p, ReadsWritePort unit ∧ w = writePortWord unit p ∧ decodeWritePort cfg unit p = .ok i) := by
  dsimp only [decode] at h
  split_ifs at h with hkey hcore hspare hwrite hspare
  · exact .inl ⟨_, (keyWord_of_fields w hkey).symm, by injection h⟩
  · exact .inr (.inl ⟨_, _, hcore, (corePortWord_of_fields w hspare).symm, h⟩)
  · exact .inr (.inr ⟨_, _, hwrite, (writePortWord_of_fields w hspare).symm, h⟩)

-- ---------------------------------------------------------------- a port word by its fields

theorem exists_corePortBits (p : BitVec 10) : ∃ rst inValid d, p = corePortBits rst inValid d :=
  ⟨_, _, _, (corePortBits_of_fields p).symm⟩

theorem exists_writePortBits (p : BitVec 11) : ∃ wrst wrValid fullW d, p = writePortBits wrst wrValid fullW d :=
  ⟨_, _, _, _, (writePortBits_of_fields p).symm⟩

section
variable (cfg : Config) (r v f : Bool) (d : Byte)

theorem decodeCorePort_core :
    decodeCorePort cfg coreUnit (corePortBits r v d) =
      if r then .ok (.reset v d) else if v then .error .notSelected else .ok (.idle d) := by
  simp [decodeCorePort]

theorem decodeCorePort_pop :
    decodeCorePort cfg popUnit (corePortBits r v d) =
      if cfg.cdcMode ≠ .asyncFifo then .error .fifoAbsent
      else if r then .error .notSelected else if v then .ok (.rpop d) else .error .notSelected := by
  simp [decodeCorePort, coreUnit, popUnit]

theorem decodeCorePort_readSync :
    decodeCorePort cfg readSyncUnit (corePortBits r v d) =
      if cfg.cdcMode ≠ .asyncFifo then .error .fifoAbsent
      else if r then .error .notSelected else .ok (.rsync v d) := by
  simp [decodeCorePort, coreUnit, popUnit, readSyncUnit]

theorem decodeWritePort_write :
    decodeWritePort cfg writeUnit (writePortBits r v f d) =
      if cfg.cdcMode ≠ .asyncFifo then .error .fifoAbsent
      else if r then .ok (.wreset v f d)
      else if v then (if f then .ok (.wdrop d) else .ok (.wpush d)) else .error .notSelected := by
  simp [decodeWritePort]

theorem decodeWritePort_writeSync :
    decodeWritePort cfg writeSyncUnit (writePortBits r v f d) =
      if cfg.cdcMode ≠ .asyncFifo then .error .fifoAbsent
      else if r then .error .notSelected else .ok (.wsync v f d) := by
  simp [decodeWritePort, writeUnit, writeSyncUnit]

end

/-- What a reader of the core port word accepts is well formed and encodes to that word. -/
theorem decodeCorePort_reencodes {cfg : Config} {unit : BitVec 3} {p : BitVec 10} {i : Instr} (sum : Byte)
    (hunit : ReadsCorePort unit) (h : decodeCorePort cfg unit p = .ok i) :
    i.wf cfg sum = true ∧ encode i = corePortWord unit p := by
  obtain ⟨rst, v, d, rfl⟩ := exists_corePortBits p
  rcases hunit with rfl | rfl | rfl
  · rw [decodeCorePort_core] at h
    split_ifs at h with hrst hvalid
    · cases h; simp [Instr.wf, encode, hrst]
    · cases h; simp [Instr.wf, encode, hrst, hvalid]
  · rw [decodeCorePort_pop] at h
    split_ifs at h with hfifo hrst hvalid
    cases h; simp [Instr.wf, encode, not_not.mp hfifo, hrst, hvalid]
  · rw [decodeCorePort_readSync] at h
    split_ifs at h with hfifo hrst
    cases h; simp [Instr.wf, encode, not_not.mp hfifo, hrst]

/-- What a reader of the write port word accepts is well formed and encodes to that word. -/
theorem decodeWritePort_reencodes {cfg : Config} {unit : BitVec 3} {p : BitVec 11} {i : Instr} (sum : Byte)
    (hunit : ReadsWritePort unit) (h : decodeWritePort cfg unit p = .ok i) :
    i.wf cfg sum = true ∧ encode i = writePortWord unit p := by
  obtain ⟨wrst, v, f, d, rfl⟩ := exists_writePortBits p
  rcases hunit with rfl | rfl
  · rw [decodeWritePort_write] at h
    split_ifs at h with hfifo hwrst hvalid hfull
    · cases h; simp [Instr.wf, encode, not_not.mp hfifo, hwrst]
    · cases h; simp [Instr.wf, encode, not_not.mp hfifo, hwrst, hvalid, hfull]
    · cases h; simp [Instr.wf, encode, not_not.mp hfifo, hwrst, hvalid, hfull]
  · rw [decodeWritePort_writeSync] at h
    split_ifs at h with hfifo hwrst
    cases h; simp [Instr.wf, encode, not_not.mp hfifo, hwrst]

end Sys2Proof
end

section
/-! PROOFS. The decode key by the core's state (R85, R86), and the two directions between words and operations. -/

namespace Sys2Proof

open Machine

/-- Every key holds the code of a state, an index and a byte (R23, R85). -/
theorem exists_keyBits (key : BitVec 13) : ∃ (st : St) (idx : BitVec 3) (b : Byte), key = keyBits st.code idx b :=
  ⟨St.ofCode (key.extractLsb' 11 2), _, _, by rw [St.code_ofCode, keyBits_of_fields]⟩

/-- The index field of CAPTURE's key: a zero above the operation's two bits (R120). -/
def captureIdx (i : BitVec 2) : BitVec 3 := (0#1 ++ i : BitVec (1 + 2))

/-- The index field of LAST_UNREACHABLE's key: two ones above the operation's bit, so 6 or 7 (R123). -/
def unreachableIdx (i : BitVec 1) : BitVec 3 := (3#2 ++ i : BitVec (2 + 1))

theorem encode_capture (i : BitVec 2) (b : Byte) :
    encode (.capture i b) = keyWord (keyBits St.body.code (captureIdx i) b) := rfl

theorem encode_lastUnreachable (i : BitVec 1) (b : Byte) :
    encode (.lastUnreachable i b) = keyWord (keyBits St.body.code (unreachableIdx i) b) := rfl

theorem captureIdx_lt_and_low (i : BitVec 2) : captureIdx i < 4#3 ∧ (captureIdx i).extractLsb' 0 2 = i := by
  revert i; decide

theorem captureIdx_low_of_lt {idx : BitVec 3} (h : idx < 4#3) : captureIdx (idx.extractLsb' 0 2) = idx := by
  revert idx; decide

theorem unreachableIdx_ge_and_low (i : BitVec 1) :
    ¬unreachableIdx i < 4#3 ∧ unreachableIdx i ≠ 4#3 ∧ unreachableIdx i ≠ 5#3 ∧
      (unreachableIdx i).extractLsb' 0 1 = i := by
  revert i; decide

theorem unreachableIdx_low_of_ge {idx : BitVec 3} (hlt : ¬idx < 4#3) (h4 : idx ≠ 4#3) (h5 : idx ≠ 5#3) :
    unreachableIdx (idx.extractLsb' 0 1) = idx := by
  revert idx; decide

/-- The operation of a key is well formed and encodes to that key. -/
theorem decodeKey_reencodes (cfg : Config) (sum : Byte) (key : BitVec 13) :
    (decodeKey cfg.header sum key).wf cfg sum = true ∧ encode (decodeKey cfg.header sum key) = keyWord key := by
  obtain ⟨st, idx, b, rfl⟩ := exists_keyBits key
  cases st with
  | hunt => rw [decodeKey_hunt]; split_ifs with hb <;> exact ⟨by simp [Instr.wf, hb], rfl⟩
  | hdr2 => rw [decodeKey_hdr2]; split_ifs with hb <;> exact ⟨by simp [Instr.wf, hb], rfl⟩
  | body =>
    rw [decodeKey_body]
    split_ifs with hlt h4 h5
    · exact ⟨rfl, by rw [encode_capture, captureIdx_low_of_lt hlt]⟩
    · exact ⟨rfl, by rw [h4]; rfl⟩
    · exact ⟨rfl, by rw [h5]; rfl⟩
    · exact ⟨rfl, by rw [encode_lastUnreachable, unreachableIdx_low_of_ge hlt h4 h5]⟩
  | csum => rw [decodeKey_csum]; split_ifs with hb <;> exact ⟨by simp [Instr.wf, hb], rfl⟩

/-- A key operation that is well formed comes back from the key it encodes to. -/
theorem decode_encode_of_key {cfg : Config} {sum : Byte} {i : Instr} (hunit : i.unit = 0) (h : i.wf cfg sum = true) :
    decode cfg sum (encode i) = .ok i := by
  cases i with
  | sync1 idx b | skip idx b =>
    change decode cfg sum (keyWord (keyBits St.hunt.code idx b)) = _
    rw [decode_keyWord, decodeKey_hunt]
    simpa [Instr.wf] using h
  | sync2 idx b | desync idx b =>
    change decode cfg sum (keyWord (keyBits St.hdr2.code idx b)) = _
    rw [decode_keyWord, decodeKey_hdr2]
    simpa [Instr.wf] using h
  | capture i b =>
    obtain ⟨hlt, hlow⟩ := captureIdx_lt_and_low i
    rw [encode_capture, decode_keyWord, decodeKey_body, if_pos hlt, hlow]
  | pad b =>
    change decode cfg sum (keyWord (keyBits St.body.code 4 b)) = _
    rw [decode_keyWord, decodeKey_body]; rfl
  | last b =>
    change decode cfg sum (keyWord (keyBits St.body.code 5 b)) = _
    rw [decode_keyWord, decodeKey_body]; rfl
  | lastUnreachable i b =>
    obtain ⟨hlt, h4, h5, hlow⟩ := unreachableIdx_ge_and_low i
    rw [encode_lastUnreachable, decode_keyWord, decodeKey_body, if_neg hlt, if_neg h4, if_neg h5, hlow]
  | checkOk idx b | checkBad idx b =>
    change decode cfg sum (keyWord (keyBits St.csum.code idx b)) = _
    rw [decode_keyWord, decodeKey_csum]
    simpa [Instr.wf] using h
  | idle | reset | rpop | rsync | wpush | wdrop | wsync | wreset => cases hunit

/-- Settles O2: a key operation by its row's condition, a port operation by its unit's reading of the port word. -/
theorem decodeInvertsEncode : Obligations.DecodeInvertsEncode := by
  intro cfg sum i h
  cases i with
  | idle d => rw [encode, decode_corePortWord _ _ _ .core, decodeCorePort_core]; rfl
  | reset v d => rw [encode, decode_corePortWord _ _ _ .core, decodeCorePort_core]; rfl
  | rpop d =>
    rw [encode, decode_corePortWord _ _ _ .pop, decodeCorePort_pop]
    simpa [Instr.wf] using h
  | rsync v d =>
    rw [encode, decode_corePortWord _ _ _ .readSync, decodeCorePort_readSync]
    simpa [Instr.wf] using h
  | wpush | wdrop | wreset =>
    rw [encode, decode_writePortWord _ _ _ .write, decodeWritePort_write]
    simpa [Instr.wf] using h
  | wsync v f d =>
    rw [encode, decode_writePortWord _ _ _ .writeSync, decodeWritePort_writeSync]
    simpa [Instr.wf] using h
  | _ => exact decode_encode_of_key rfl h

/-- Settles O3: an accepted word is a key or a port word, and each format is read without dropping a bit. -/
theorem decodedOperationReencodes : Obligations.DecodedOperationReencodes := by
  intro cfg sum w i h
  rcases decode_ok_cases h with ⟨key, rfl, rfl⟩ | ⟨unit, p, hunit, rfl, hi⟩ | ⟨unit, p, hunit, rfl, hi⟩
  · exact decodeKey_reencodes cfg sum key
  · exact decodeCorePort_reencodes sum hunit hi
  · exact decodeWritePort_reencodes sum hunit hi

end Sys2Proof
end

section
/-! PROOFS. The decode table of R86 row by row: patterns and masks by the fields of the key, the first row that matches in
each state of the core, and the decoder's answer against it. -/

namespace Sys2Proof

open Machine

theorem keyBits_inj {st st' : BitVec 2} {idx idx' : BitVec 3} {b b' : Byte} :
    keyBits st idx b = keyBits st' idx' b' ↔ st = st' ∧ idx = idx' ∧ b = b' := by
  refine ⟨fun h => ⟨?_, ?_, ?_⟩, fun ⟨hst, hidx, hb⟩ => by rw [hst, hidx, hb]⟩
  · simpa using congrArg (BitVec.extractLsb' 11 2) h
  · simpa using congrArg (BitVec.extractLsb' 8 3) h
  · simpa using congrArg (BitVec.extractLsb' 0 8) h

/-- A key is masked field by field. -/
theorem keyBits_and (st m : BitVec 2) (idx n : BitVec 3) (b y : Byte) :
    keyBits st idx b &&& keyBits m n y = keyBits (st &&& m) (idx &&& n) (b &&& y) := by
  unfold keyBits; grind

/-- The rows of R86 with the pattern and the mask of each split into the fields of the key. -/
theorem keyTable_eq_fields (header : Byte) :
    keyTable header =
      [ ⟨keyBits St.hunt.code 0#3 header, keyBits 3#2 0#3 0xFF#8, none⟩,
        ⟨keyBits St.hunt.code 0#3 0#8, keyBits 3#2 0#3 0#8, none⟩,
        ⟨keyBits St.hdr2.code 0#3 header, keyBits 3#2 0#3 0xFF#8, none⟩,
        ⟨keyBits St.hdr2.code 0#3 0#8, keyBits 3#2 0#3 0#8, none⟩,
        ⟨keyBits St.body.code 0#3 0#8, keyBits 3#2 4#3 0#8, none⟩,
        ⟨keyBits St.body.code 4#3 0#8, keyBits 3#2 7#3 0#8, none⟩,
        ⟨keyBits St.body.code 5#3 0#8, keyBits 3#2 7#3 0#8, none⟩,
        ⟨keyBits St.body.code 6#3 0#8, keyBits 3#2 6#3 0#8, none⟩,
        ⟨keyBits St.csum.code 0#3 0#8, keyBits 3#2 0#3 0#8, some true⟩,
        ⟨keyBits St.csum.code 0#3 0#8, keyBits 3#2 0#3 0#8, some false⟩ ] := by
  have hhunt : (0x0000#13 ||| header.setWidth 13) = keyBits St.hunt.code 0#3 header := by
    simp only [keyBits, St.code]; grind
  have hhdr2 : (0x0800#13 ||| header.setWidth 13) = keyBits St.hdr2.code 0#3 header := by
    rw [show 0x0800#13 = keyBits St.hdr2.code 0#3 0#8 from rfl]
    simp only [keyBits]; grind
  rw [keyTable, hhunt, hhdr2]; rfl

/-- A row whose mask covers the state matches a key of that state whose other covered bits agree, if its condition on the
sum holds. -/
theorem KeyRow.hits_keyBits (st st' : St) (p idx n : BitVec 3) (x b y : Byte) (cond : Option Bool) (sum : Byte) :
    KeyRow.hits ⟨keyBits st'.code p x, keyBits 3#2 n y, cond⟩ sum (keyBits st.code idx b) =
      (decide (st = st' ∧ idx &&& n = p ∧ b &&& y = x) && cond.all fun eq => decide (b = sum) == eq) := by
  have hst : st.code &&& 3#2 = st'.code ↔ st = st' := by cases st <;> cases st' <;> decide
  simp only [KeyRow.hits, keyBits_and, keyBits_inj, hst, keyBits_byte]
  cases cond <;> rfl

/-- Which of the ten rows match a key, in words of its state, index and byte (R86). -/
def rowMatches (header sum : Byte) (st : St) (idx : BitVec 3) (b : Byte) : List Bool :=
  [ decide (st = .hunt ∧ b = header), decide (st = .hunt), decide (st = .hdr2 ∧ b = header), decide (st = .hdr2),
    decide (st = .body ∧ idx < 4#3), decide (st = .body ∧ idx = 4#3), decide (st = .body ∧ idx = 5#3),
    decide (st = .body ∧ 6#3 ≤ idx), decide (st = .csum ∧ b = sum), decide (st = .csum ∧ b ≠ sum) ]

theorem keyTable_hits (header sum : Byte) (st : St) (idx : BitVec 3) (b : Byte) :
    (keyTable header).map (fun r => r.hits sum (keyBits st.code idx b)) = rowMatches header sum st idx b := by
  have hbyte : b &&& 0xFF#8 = b := BitVec.and_allOnes
  have hlow : idx &&& 4#3 = 0#3 ↔ idx < 4#3 := by revert idx; decide
  have hwhole : idx &&& 7#3 = idx := BitVec.and_allOnes
  have hhigh : idx &&& 6#3 = 6#3 ↔ 6#3 ≤ idx := by revert idx; decide
  simp [keyTable_eq_fields, KeyRow.hits_keyBits, rowMatches, hbyte, hlow, hwhole, hhigh]

theorem firstRow_keyBits (header sum : Byte) (st : St) (idx : BitVec 3) (b : Byte) :
    firstRow header sum (keyBits st.code idx b) =
      ((rowMatches header sum st idx b).findIdx? id).elim 0 (· + 1) := by
  rw [← keyTable_hits, List.findIdx?_map, Function.id_comp, firstRow]
  cases (keyTable header).findIdx? fun r => r.hits sum (keyBits st.code idx b) <;> rfl

theorem firstRow_hunt (header sum : Byte) (idx : BitVec 3) (b : Byte) :
    firstRow header sum (keyBits St.hunt.code idx b) = if b = header then 1 else 2 := by
  rw [firstRow_keyBits]
  by_cases hb : b = header <;> simp [rowMatches, List.findIdx?_cons, hb]

theorem firstRow_hdr2 (header sum : Byte) (idx : BitVec 3) (b : Byte) :
    firstRow header sum (keyBits St.hdr2.code idx b) = if b = header then 3 else 4 := by
  rw [firstRow_keyBits]
  by_cases hb : b = header <;> simp [rowMatches, List.findIdx?_cons, hb]

theorem firstRow_body (header sum : Byte) (idx : BitVec 3) (b : Byte) :
    firstRow header sum (keyBits St.body.code idx b) =
      if idx < 4#3 then 5 else if idx = 4#3 then 6 else if idx = 5#3 then 7 else 8 := by
  have hge (hlt : ¬idx < 4#3) (h4 : idx ≠ 4#3) (h5 : idx ≠ 5#3) : 6#3 ≤ idx := by revert idx; decide
  rw [firstRow_keyBits]
  split_ifs with hlt h4 h5
  · simp [rowMatches, List.findIdx?_cons, hlt]
  · simp [rowMatches, List.findIdx?_cons, h4]
  · simp [rowMatches, List.findIdx?_cons, h5]
  · simp [rowMatches, List.findIdx?_cons, hlt, h4, h5, hge hlt h4 h5]

theorem firstRow_csum (header sum : Byte) (idx : BitVec 3) (b : Byte) :
    firstRow header sum (keyBits St.csum.code idx b) = if b = sum then 9 else 10 := by
  rw [firstRow_keyBits]
  by_cases hb : b = sum <;> simp [rowMatches, List.findIdx?_cons, hb]

theorem keyRow_decodeKey_eq_firstRow (header sum : Byte) (key : BitVec 13) :
    (decodeKey header sum key).keyRow = firstRow header sum key := by
  obtain ⟨st, idx, b, rfl⟩ := exists_keyBits key
  cases st with
  | hunt => rw [decodeKey_hunt, firstRow_hunt]; split_ifs <;> rfl
  | hdr2 => rw [decodeKey_hdr2, firstRow_hdr2]; split_ifs <;> rfl
  | body => rw [decodeKey_body, firstRow_body]; split_ifs <;> rfl
  | csum => rw [decodeKey_csum, firstRow_csum]; split_ifs <;> rfl

/-- The operations of the core with a byte are those of the table's ten rows. -/
theorem keyRow_bounds_of_unit {i : Instr} (h : i.unit = 0) : 1 ≤ i.keyRow ∧ i.keyRow ≤ 10 := by
  cases i with
  | idle | reset | rpop | rsync | wpush | wdrop | wsync | wreset => cases h
  | _ => simp [Instr.keyRow]

/-- Settles O4: in each state of the core the first row that matches is the row of the decoder's answer. -/
theorem keyDecodeFollowsPriorityTable : Obligations.KeyDecodeFollowsPriorityTable := by
  intro header sum key
  have hrow := keyRow_decodeKey_eq_firstRow header sum key
  exact ⟨hrow, hrow ▸ keyRow_bounds_of_unit (decodeKey_unit header sum key)⟩

end Sys2Proof
end

section
/-! PROOFS. A script's `FRAME` and `BADFRAME` statements through the reference function (R84, R93, R139). -/

namespace Sys2Proof.Machine

theorem littleEndian_low_high (v : Half) : littleEndian (lowByte v) (highByte v) = v := by
  simp only [littleEndian, lowByte, highByte]; grind

theorem sumBytes_frameHead (h : Byte) (d g : Half) (p4 p5 : Byte) :
    sumBytes (frameHead h d g p4 p5) =
      h + h + lowByte d + highByte d + lowByte g + highByte g + p4 + p5 := by
  simp [sumBytes, frameHead, add8]

/-- A frame's head and a checksum byte, presented from `HUNT`, show one output: the policy's on the reading the head
encodes if the byte is the head's sum, else `CSUM_ERR` (R83, R84, R137). -/
theorem outsOver_frameHead {s : State} {d g : Half} {p4 p5 k : Byte} {rest : List Edge}
    (hnone : s.cfg.cdcMode = .none) (hst : s.core.st = .hunt)
    (hin : s.inputs = byteEdges (frameHead s.cfg.header d g p4 p5 ++ [k]) ++ rest) :
    outsOver 9 s =
      [if k = sumBytes (frameHead s.cfg.header d g p4 p5) then streamPolicy s.cfg d g else .ev .csumErr] := by
  obtain ⟨_, houts⟩ := run_byteEdges hnone hin
  obtain ⟨_, hone⟩ :=
    stream_candidate (cfg := s.cfg) hst (lowByte d) (highByte d) (lowByte g) (highByte g) p4 p5 k
  rw [littleEndian_low_high, littleEndian_low_high, ← sumBytes_frameHead] at hone
  exact houts.trans hone

theorem outsOver_frame {s : State} {d g : Half} {p4 p5 : Byte} {rest : List Edge} (hnone : s.cfg.cdcMode = .none)
    (hst : s.core.st = .hunt) (hin : s.inputs = byteEdges (frame s.cfg.header d g p4 p5) ++ rest) :
    outsOver 9 s = [streamPolicy s.cfg d g] := by
  rw [outsOver_frameHead hnone hst hin, if_pos rfl]

theorem outsOver_badFrame {s : State} {d g : Half} {p4 p5 : Byte} {rest : List Edge} (hnone : s.cfg.cdcMode = .none)
    (hst : s.core.st = .hunt) (hin : s.inputs = byteEdges (badFrame s.cfg.header d g p4 p5) ++ rest) :
    outsOver 9 s = [.ev .csumErr] := by
  rw [outsOver_frameHead hnone hst hin, if_neg (by simp [add8])]

theorem scriptEdges_singleton (h : Byte) (x : Stimulus) : scriptEdges h [x] = x.edges h := by
  simp [scriptEdges]

/-- Settles O42: a frame's one output is the policy's on the reading, and a bad frame's is `CSUM_ERR`. -/
theorem frameRoundTrip : Obligations.FrameRoundTrip := by
  intro s d g p4 p5 rest hnone hst
  rw [scriptEdges_singleton, scriptEdges_singleton]
  refine ⟨fun hin => ⟨fun hreject hlo hhi => ?_, fun hclamp hceil => ?_⟩, outsOver_badFrame hnone hst⟩
  · rw [outsOver_frame hnone hst hin]
    simp [streamPolicy, hreject, hlo, hhi]
  · rw [outsOver_frame hnone hst hin]
    simp [streamPolicy, hclamp, hceil]

end Sys2Proof.Machine
end

section
/-! PROOFS. The table's sample words, and the operations a whole edge of the FIFO runs (R87, R152 to R155, R160 to R162). -/

namespace Sys2Proof.Machine

/-- Settles O1: a key is its own event word, and each of the ten is evaluated. -/
theorem sampleWordsDecodeToTheirOperation : Obligations.SampleWordsDecodeToTheirOperation := by
  refine ⟨?_, ?_, ?_, ?_, ?_, ?_, ?_, ?_, ?_, ?_⟩ <;> rfl

/-- A step runs the operations its edge selects, and closes the edge. -/
theorem step_of_fetch {s : State} {e : Edge} {rest : List Edge} {is : List Instr} (hin : s.inputs = e :: rest)
    (hfetch : fetch s e = .next is) :
    step s = closeEdge e { s with inputs := rest } (execAll is { s with inputs := rest }) := by
  have hf : fetch { s with inputs := rest } e = .next is := hfetch
  rw [step_of_edge hin, runEdge, hf]

theorem opOf_of_decode {s : State} {w : EventWord} {i : Instr} (h : decode s.cfg s.core.sum w = .ok i) :
    opOf s w = [i] := by
  simp [opOf, decode?, h]

section
variable {s : State} (hfifo : s.cfg.cdcMode = .asyncFifo)
include hfifo

theorem coreOps_eq {p : ClkIn} {i : Instr} (hdecode : decode s.cfg s.core.sum (coreWord s p) = .ok i) :
    coreOps s p = i :: (if p.rst then [] else if p.inValid then [.rpop p.inData] else []) := by
  rw [coreOps, opOf_of_decode hdecode, opOf_pop]
  cases p.rst <;> cases p.inValid <;> simp [hfifo]

theorem readSyncOps_eq (p : ClkIn) :
    readSyncOps s p = if p.rst then [] else [.rsync p.inValid p.inData] := by
  rw [readSyncOps, opOf_readSync]
  cases p.rst <;> simp [hfifo]

theorem writeOps_eq (w : WclkIn) :
    writeOps s w =
      if w.wrst then [.wreset w.wrValid (fullW s) w.wrData]
      else if w.wrValid then [if fullW s then .wdrop w.wrData else .wpush w.wrData] else [] := by
  rw [writeOps, writePort, opOf_write _ _ _ _ _ hfifo]

theorem writeSyncOps_eq (w : WclkIn) :
    writeSyncOps s w = if w.wrst then [] else [.wsync w.wrValid (fullW s) w.wrData] := by
  rw [writeSyncOps, writePort, opOf_writeSync _ _ _ _ _ hfifo]

end

theorem placeSync_eq (new : Bool) (sync rest : List Instr) :
    placeSync new sync rest = (if new then [] else sync) ++ rest ++ (if new then sync else []) := by
  cases new <;> simp [placeSync]

/-- Settles O6: each unit's operations as its port selects them, put together as `fetch` does at the three kinds of edge;
closing an edge writes the model's record. -/
theorem stepRunsTheFifoEdgeOperations : Obligations.StepRunsTheFifoEdgeOperations := by
  refine ⟨?clk, ?wclk, ?both, ?record⟩
  case clk =>
    intro s c p rest i hfifo hin hp hdecode
    have hfetch : fetch s (.clk c) = .next (coreOps s p ++ readSyncOps s p) := by simp [fetch, hp]
    rw [step_of_fetch hin hfetch, coreOps_eq hfifo hdecode, readSyncOps_eq hfifo]
    cases p.rst <;> cases p.inValid <;> rfl
  case wclk =>
    intro s w rest hfifo hin
    have hfetch : fetch s (.wclk w) = .next (writeOps s w ++ writeSyncOps s w) := by simp [fetch, hfifo]
    rw [step_of_fetch hin hfetch, writeOps_eq hfifo, writeSyncOps_eq hfifo]
    cases w.wrst <;> rfl
  case both =>
    intro s c p w rNew wNew rest i hfifo hin hp hdecode pops rsync writes wsync
    have hfetch : fetch s (.both c w rNew wNew) =
        .next (placeSync rNew (readSyncOps s p) (placeSync wNew (writeSyncOps s w) (coreOps s p ++ writeOps s w))) := by
      simp [fetch, hfifo, hp]
    rw [step_of_fetch hin hfetch, placeSync_eq, placeSync_eq, coreOps_eq hfifo hdecode, readSyncOps_eq hfifo,
      writeOps_eq hfifo, writeSyncOps_eq hfifo]
    simp only [pops, rsync, writes, wsync, List.append_assoc]
  case record =>
    intro e s t
    exact ⟨_, _, congrArg Host.Outcome.next (s.noteEdge_frame e t)⟩

end Sys2Proof.Machine
end

section
/-! PROOFS. How many bytes other than `HEADER` lead the core back to `HUNT` (R107). -/

namespace Sys2Proof.Machine

/-- How many accepted bytes other than `HEADER` the core is at most away from `HUNT`: none there, and in `BODY` the rest of
the body and a checksum byte. -/
def foreignBytesToHunt (c : Core) : Nat :=
  match c.st with
  | .hunt => 0
  | .hdr2 => 1
  | .body => 7 - min c.idx.toNat 5
  | .csum => 1

theorem foreignBytesToHunt_le (c : Core) : foreignBytesToHunt c ≤ 7 := by
  unfold foreignBytesToHunt
  cases c.st <;> simp only <;> omega

theorem foreignBytesToHunt_eq_zero_iff (c : Core) : foreignBytesToHunt c = 0 ↔ c.st = .hunt := by
  unfold foreignBytesToHunt
  cases c.st <;> simp; omega

theorem foreignBytesToHunt_streamStep {cfg : Config} {b : Byte} (c : Core) (hb : b ≠ cfg.header) :
    foreignBytesToHunt (streamStep cfg c b).1 ≤ foreignBytesToHunt c - 1 := by
  cases hst : c.st with
  | hunt => rw [streamStep_hunt cfg b hst, if_neg hb]; simp [foreignBytesToHunt, hst]
  | hdr2 => rw [streamStep_hdr2 cfg b hst, if_neg hb]; simp [foreignBytesToHunt]
  | body =>
    rw [streamStep_body cfg b hst]
    split_ifs with hlt h4
    · have hn : c.idx.toNat < 4 := hlt
      have hsucc : (c.idx + 1).toNat = c.idx.toNat + 1 := by bv_omega
      simp only [foreignBytesToHunt, hst, hsucc]
      omega
    · simp [foreignBytesToHunt, hst, h4]
    · simp only [foreignBytesToHunt, hst]
      omega
  | csum => rw [streamStep_csum cfg b hst]; split_ifs <;> simp [foreignBytesToHunt]

theorem foreignBytesToHunt_streamCore {cfg : Config} {bs : List Byte} (c : Core) (hbs : cfg.header ∉ bs) :
    foreignBytesToHunt (streamCore cfg c bs) ≤ foreignBytesToHunt c - bs.length := by
  induction bs generalizing c with
  | nil => exact Nat.le_refl _
  | cons b bs ih =>
    rw [List.mem_cons, not_or] at hbs
    obtain ⟨hb, hbs⟩ := hbs
    have hfirst := foreignBytesToHunt_streamStep c (Ne.symm hb)
    have hothers := ih (streamStep cfg c b).1 hbs
    simp only [streamCore, List.length_cons]
    omega

/-- Settles O44: each such byte brings the core nearer to `HUNT`, which is at most seven of them away. -/
theorem sevenForeignBytesReturnToHunt : Obligations.SevenForeignBytesReturnToHunt := by
  intro s bs rest hnone hlen hbs hin
  obtain ⟨⟨t, ht, _, hcore⟩, _⟩ := run_byteEdges hnone hin
  rw [hlen] at ht
  refine ⟨t, ht, ?_⟩
  have hfar := foreignBytesToHunt_le s.core
  have hnear := foreignBytesToHunt_streamCore s.core hbs
  rw [hcore, ← foreignBytesToHunt_eq_zero_iff]
  omega

end Sys2Proof.Machine
end

section
/-! PROOFS. The readings of the reference function against the calls of the software decoder, which takes 1, 2 or 9 bytes in
each (R105). -/

namespace Sys2Proof.Machine

theorem readingsOf_append (os os' : List Out) : readingsOf (os ++ os') = readingsOf os ++ readingsOf os' := by
  induction os with
  | nil => rfl
  | cons o os ih => cases o <;> simp [readingsOf, ih]

/-- A byte gives a reading only where a checksum byte is awaited (R139). -/
theorem readingsOf_streamStep_of_ne_csum {c : Core} (cfg : Config) (b : Byte) (hst : c.st ≠ .csum) :
    readingsOf (streamStep cfg c b).2.toList = [] := by
  cases hout : (streamStep cfg c b).2 with
  | none => rfl
  | some x =>
    obtain ⟨_, _, _, hread⟩ := streamStep_output hout
    cases x with
    | read d g => exact absurd (hread ⟨d, g, rfl⟩) hst
    | ev k => rfl

/-- Bytes that end before the next checksum byte give no reading. -/
theorem readingsOf_decodeStream_of_length_le {cfg : Config} {c : Core} {bs : List Byte}
    (hlen : bs.length ≤ bytesToCsum c) : readingsOf (decodeStream cfg c bs) = [] := by
  induction bs generalizing c with
  | nil => rfl
  | cons b bs ih =>
    rw [List.length_cons] at hlen
    have hst : c.st ≠ .csum := fun h => by simp [bytesToCsum, h] at hlen
    have hnext := bytesToCsum_streamStep cfg c b
    rw [decodeStream, readingsOf_append, readingsOf_streamStep_of_ne_csum cfg b hst, ih (by omega), List.append_nil]

theorem readingsOf_decodeStream_of_short {cfg : Config} {c : Core} {bs : List Byte} (hst : c.st = .hunt)
    (hlen : bs.length < 9) : readingsOf (decodeStream cfg c bs) = [] :=
  readingsOf_decodeStream_of_length_le (by simp only [bytesToCsum, hst]; omega)

theorem csumOk_nine (f0 f1 f2 f3 f4 f5 f6 f7 f8 : Byte) :
    csumOk [f0, f1, f2, f3, f4, f5, f6, f7, f8] = decide (f8 = f0 + f1 + f2 + f3 + f4 + f5 + f6 + f7) := by
  simp [csumOk, sumBytes, add8, eq_comm]

/-- The software's reading of nine bytes is the one among the core's output on them (R83, R131, R133). -/
theorem softwareFrame_eq_readingsOf (cfg : Config) (f0 f1 p0 p1 p2 p3 p4 p5 k : Byte) :
    softwareFrame cfg [f0, f1, p0, p1, p2, p3, p4, p5, k] =
      readingsOf [if k = f0 + f1 + p0 + p1 + p2 + p3 + p4 + p5
        then streamPolicy cfg (littleEndian p0 p1) (littleEndian p2 p3) else .ev .csumErr] := by
  have hclamp := clampDistance_eq cfg (littleEndian p0 p1)
  rw [clampDistance] at hclamp
  simp only [softwareFrame, csumOk_nine, decide_eq_true_eq, streamPolicy]
  by_cases hk : k = f0 + f1 + p0 + p1 + p2 + p3 + p4 + p5
  · rw [if_pos hk, if_pos hk]
    cases cfg.policy with
    | reject =>
      by_cases hr : cfg.rejLo < littleEndian p0 p1 ∧ littleEndian p0 p1 < cfg.rejHi <;> simp [readingsOf, hr]
    | clamp => simp [readingsOf, hclamp]
  · rw [if_neg hk, if_neg hk]; rfl

/-- A call of nine bytes: two header bytes and the rest of a frame (R137). -/
theorem readingsOf_decodeStream_frame {cfg : Config} {c : Core} (hst : c.st = .hunt) (p0 p1 p2 p3 p4 p5 k : Byte)
    (bs : List Byte) :
    ∃ c' : Core, c'.st = .hunt ∧
      readingsOf (decodeStream cfg c ([cfg.header, cfg.header, p0, p1, p2, p3, p4, p5, k] ++ bs)) =
        softwareFrame cfg [cfg.header, cfg.header, p0, p1, p2, p3, p4, p5, k] ++
          readingsOf (decodeStream cfg c' bs) := by
  obtain ⟨hhunt, hone⟩ := stream_candidate (cfg := cfg) hst p0 p1 p2 p3 p4 p5 k
  refine ⟨_, hhunt, ?_⟩
  rw [decodeStream_append, readingsOf_append, hone, ← softwareFrame_eq_readingsOf]

/-- A call of two bytes: a header byte and another one, which leave no reading (R101, R104). -/
theorem readingsOf_decodeStream_desync {cfg : Config} {c : Core} {b : Byte} (hst : c.st = .hunt) (hb : b ≠ cfg.header)
    (bs : List Byte) :
    ∃ c' : Core, c'.st = .hunt ∧
      readingsOf (decodeStream cfg c (cfg.header :: b :: bs)) = readingsOf (decodeStream cfg c' bs) := by
  refine ⟨{ c with st := .hunt, sum := cfg.header }, rfl, ?_⟩
  rw [decodeStream, streamStep_hunt cfg _ hst, if_pos rfl, decodeStream, streamStep_hdr2 cfg b rfl, if_neg hb]
  rfl

/-- A call of one byte: not a header byte, and the core stays as it is (R103). -/
theorem decodeStream_skip {cfg : Config} {c : Core} {b : Byte} (hst : c.st = .hunt) (hb : b ≠ cfg.header)
    (bs : List Byte) : decodeStream cfg c (b :: bs) = decodeStream cfg c bs := by
  rw [decodeStream, streamStep_hunt cfg b hst, if_neg hb]
  rfl

/-- What is left after two header bytes, where it holds no whole frame. -/
theorem length_lt_seven {bs : List Byte}
    (h : ∀ p0 p1 p2 p3 p4 p5 k bs', bs = p0 :: p1 :: p2 :: p3 :: p4 :: p5 :: k :: bs' → False) : bs.length < 7 := by
  match bs, h with
  | _ :: _ :: _ :: _ :: _ :: _ :: _ :: _, h => exact (h _ _ _ _ _ _ _ _ rfl).elim
  | [], _ | [_], _ | [_, _], _ | [_, _, _], _ | [_, _, _, _], _ | [_, _, _, _, _], _ | [_, _, _, _, _, _], _ => simp

/-- From `HUNT` the readings of the reference function are those of the software's calls, call by call. -/
theorem readingsOf_decodeStream_eq_software {cfg : Config} {c : Core} (bs : List Byte) (hst : c.st = .hunt) :
    readingsOf (decodeStream cfg c bs) = softwareReadings cfg bs := by
  fun_induction softwareReadings cfg bs generalizing c with
  | case1 | case2 => exact readingsOf_decodeStream_of_short hst (by simp)
  | case3 p0 p1 p2 p3 p4 p5 k bs ih =>
    obtain ⟨c', hst', hcall⟩ := readingsOf_decodeStream_frame (cfg := cfg) hst p0 p1 p2 p3 p4 p5 k bs
    exact hcall.trans (congrArg _ (ih hst'))
  | case4 bs hshort =>
    have hlen := length_lt_seven hshort
    exact readingsOf_decodeStream_of_short hst (by simp only [List.length_cons]; omega)
  | case5 b bs hb ih =>
    obtain ⟨c', hst', hcall⟩ := readingsOf_decodeStream_desync (cfg := cfg) hst hb bs
    exact hcall.trans (ih hst')
  | case6 b bs hb ih => rw [decodeStream_skip hst hb, ih hst]

/-- Settles O47: without the FIFO the outputs are the reference function's, whose readings are those of the calls. -/
theorem readingsMatchTheSoftware : Obligations.ReadingsMatchTheSoftware := by
  intro s bs rest hnone hst hin
  obtain ⟨_, houts⟩ := run_byteEdges hnone hin
  rw [houts, readingsOf_decodeStream_eq_software bs hst]

end Sys2Proof.Machine
end

section
/-! PROOFS. The five operations of header synchronization: the key that selects each, and all it writes (R100 to R104). -/

namespace Sys2Proof.Machine

/-- Settles O10: the port word without a byte is IDLE's, and in `HUNT` a byte other than `H` is SKIP's; both are one tick. -/
theorem idleAndSkipOnlyClearThePulses : Obligations.IdleAndSkipOnlyClearThePulses := by
  intro s d b h idx
  refine ⟨?_, rfl, fun hb => ?_, rfl⟩
  · rw [decode_corePortWord _ _ _ .core, decodeCorePort_core]; rfl
  · rw [decodeKey_hunt, if_neg hb]

/-- Settles O11: in `HUNT` the header byte is SYNC1's. -/
theorem sync1StartsTheSum : Obligations.Sync1StartsTheSum := by
  intro s h b idx
  exact ⟨by rw [decodeKey_hunt, if_pos rfl], rfl⟩

/-- Settles O12: in `HDR2` the header byte is SYNC2's. -/
theorem sync2EntersTheBody : Obligations.Sync2EntersTheBody := by
  intro s h b idx
  exact ⟨by rw [decodeKey_hdr2, if_pos rfl], rfl⟩

/-- Settles O13: in `HDR2` any byte but the header is DESYNC's. -/
theorem desyncReturnsToHunt : Obligations.DesyncReturnsToHunt := by
  intro s h b idx
  exact ⟨fun hb => by rw [decodeKey_hdr2, if_neg hb], rfl⟩

end Sys2Proof.Machine
end

section
/-! PROOFS. The six operations of capture and check: the key that selects each, and all it writes (R120 to R123, R130 to
R134). -/

namespace Sys2Proof.Machine

theorem setWidth_eq_captureIdx (i : BitVec 2) : i.setWidth 3 = captureIdx i := by
  revert i; decide

/-- Settles O14: an index of two bits is CAPTURE's, and a write of one payload register leaves the others. -/
theorem captureStoresAndSums : Obligations.CaptureStoresAndSums := by
  intro s h b i
  obtain ⟨hlt, hlow⟩ := captureIdx_lt_and_low i
  refine ⟨?_, s.core.pl.set i b, Payload.get_set_same _ _ _, fun j => Payload.get_set_other _ b, rfl⟩
  rw [setWidth_eq_captureIdx, decodeKey_body, if_pos hlt, hlow]

/-- Settles O15: in `BODY` the index 4 is PAD's. -/
theorem padOnlySums : Obligations.PadOnlySums := by
  intro s h b
  exact ⟨by rw [decodeKey_body]; rfl, rfl⟩

/-- Settles O16: in `BODY` the index 5 is LAST's, 6 and 7 are LAST_UNREACHABLE's, and the two do the same. -/
theorem lastEntersTheChecksum : Obligations.LastEntersTheChecksum := by
  intro s h b k
  obtain ⟨hlt, h4, h5, hlow⟩ := unreachableIdx_ge_and_low k
  refine ⟨by rw [decodeKey_body]; rfl, ?_, rfl, rfl⟩
  change decodeKey h s.core.sum (keyBits St.body.code (unreachableIdx k) b) = _
  rw [decodeKey_body, if_neg hlt, if_neg h4, if_neg h5, hlow]

/-- Settles O19: in `CSUM` a byte that is not the sum is CHECK_BAD's. -/
theorem checkBadDropsTheFrame : Obligations.CheckBadDropsTheFrame := by
  intro s h b idx
  exact ⟨fun hb => by rw [decodeKey_csum, if_neg hb], rfl⟩

-- ---------------------------------------------------------------- the checksum byte that matches

/-- CHECK_OK leads to `HUNT` and shows what the range policy answers on the raw reading (R130). -/
theorem exec_checkOk (idx : BitVec 3) (b : Byte) (s : State) :
    exec (.checkOk idx b) s = .next { s with
      core := { s.core with st := .hunt }
      out := s.out.after (some (streamPolicy s.cfg (rawDistance s.core.pl) (rawStrength s.core.pl))) } :=
  congrArg Host.Outcome.next (s.applyPolicy_eq_streamPolicy _ _ _)

theorem littleEndian_toNat (lo hi : Byte) : (littleEndian lo hi).toNat = lo.toNat + hi.toNat * 256 := by
  have hlo := lo.isLt
  rw [littleEndian, BitVec.toNat_append, ← Nat.shiftLeft_add_eq_or_of_lt hlo, Nat.shiftLeft_eq, Nat.add_comm]

/-- The 16-bit assembly of two bytes is their number (R64, R82). -/
theorem littleEndian_eq_ofNat (lo hi : Byte) :
    littleEndian lo hi = BitVec.ofNat 16 (lo.toNat + hi.toNat * 256) := by
  rw [← littleEndian_toNat, BitVec.ofNat_toNat, BitVec.setWidth_eq]

theorem streamPolicy_reject {cfg : Config} (h : cfg.policy = .reject) (d g : Half) :
    streamPolicy cfg d g = if cfg.rejLo < d ∧ d < cfg.rejHi then .read d g else .ev .rangeDrop := by
  simp [streamPolicy, h]

theorem streamPolicy_clamp {cfg : Config} (h : cfg.policy = .clamp) (d g : Half) :
    streamPolicy cfg d g = .read (clampDistance cfg d) g := by
  simp [streamPolicy, h, clampDistance_eq]

/-- The clamped distance is the smaller of two numbers (R133). -/
theorem clampDistance_eq_ofNat_min (cfg : Config) (d : Half) :
    clampDistance cfg d = BitVec.ofNat 16 (min d.toNat cfg.clampCeil.toNat) := by
  unfold clampDistance
  split_ifs with h
  · rw [Nat.min_eq_right h, BitVec.ofNat_toNat, BitVec.setWidth_eq]
  · rw [Nat.min_eq_left (Nat.le_of_not_le h), BitVec.ofNat_toNat, BitVec.setWidth_eq]

/-- Settles O17: the policy's two answers under REJECT, on the two numbers the payload registers assemble. -/
theorem checkOkRejectsOutOfRange : Obligations.CheckOkRejectsOutOfRange := by
  intro s h b idx
  refine ⟨fun hb => by rw [decodeKey_csum, if_pos hb], fun hreject => ?_⟩
  intro d g
  have hd : rawDistance s.core.pl = d := littleEndian_eq_ofNat _ _
  have hg : rawStrength s.core.pl = g := littleEndian_eq_ofNat _ _
  rw [exec_checkOk, hd, hg, streamPolicy_reject hreject]
  exact ⟨fun hr => by rw [if_pos hr]; rfl, fun hr => by rw [if_neg hr]; rfl⟩

/-- Settles O18: under CLAMP the policy always emits, and the clamped distance is a minimum. -/
theorem checkOkClampsTheDistance : Obligations.CheckOkClampsTheDistance := by
  intro s h b idx
  refine ⟨fun hb => by rw [decodeKey_csum, if_pos hb], fun hclamp => ?_⟩
  have hdist : clampDistance s.cfg (rawDistance s.core.pl) =
      BitVec.ofNat 16 (min (s.core.pl.p0.toNat + s.core.pl.p1.toNat * 256) s.cfg.clampCeil.toNat) := by
    rw [clampDistance_eq_ofNat_min, rawDistance, littleEndian_toNat]
  have hstrength : rawStrength s.core.pl =
      BitVec.ofNat 16 (s.core.pl.p2.toNat + s.core.pl.p3.toNat * 256) := littleEndian_eq_ofNat _ _
  rw [exec_checkOk, streamPolicy_clamp hclamp, hdist, hstrength]
  rfl

end Sys2Proof.Machine
end

section
/-! PROOFS. What a reading says of the cycle before it (R130 to R133, R139). -/

namespace Sys2Proof.Machine

theorem clampDistance_le (cfg : Config) (d : Half) : clampDistance cfg d ≤ cfg.clampCeil := by
  unfold clampDistance
  split_ifs with h
  · exact BitVec.le_refl _
  · exact (BitVec.le_total d cfg.clampCeil).resolve_right h

/-- CLAMP changes a distance above the ceiling and no other (R133). -/
theorem clampDistance_eq_self_iff (cfg : Config) (d : Half) : clampDistance cfg d = d ↔ d ≤ cfg.clampCeil := by
  refine ⟨fun h => h ▸ clampDistance_le cfg d, fun h => ?_⟩
  rw [clampDistance_eq, if_pos h]

/-- Inversion of a reading under the policy: the strength is the one it was asked about, and the distance is within the
bounds under REJECT and clamped under CLAMP (R131 to R133). -/
theorem streamPolicy_read {cfg : Config} {d g d' g' : Half} (h : streamPolicy cfg d g = .read d' g') :
    g' = g ∧ (cfg.policy = .reject → d' = d ∧ cfg.rejLo < d ∧ d < cfg.rejHi) ∧
      (cfg.policy = .clamp → d' = clampDistance cfg d) := by
  cases hp : cfg.policy with
  | reject =>
    rw [streamPolicy_reject hp] at h
    split_ifs at h with hr
    cases h
    simp [hr]
  | clamp =>
    rw [streamPolicy_clamp hp] at h
    cases h
    simp

/-- A byte gives a reading only in `CSUM`, where it is the sum and the reading is the policy's (R130, R139). -/
theorem streamStep_read {cfg : Config} {c : Core} {b : Byte} {d g : Half}
    (h : (streamStep cfg c b).2 = some (.read d g)) :
    c.st = .csum ∧ (streamStep cfg c b).1.st = .hunt ∧ b = c.sum ∧
      streamPolicy cfg (rawDistance c.pl) (rawStrength c.pl) = .read d g := by
  obtain ⟨hhunt, _, _, hread⟩ := streamStep_output h
  have hcsum := hread ⟨d, g, rfl⟩
  rw [streamStep_csum cfg b hcsum] at h
  split_ifs at h with hb
  · exact ⟨hcsum, hhunt, hb, Option.some.inj h⟩
  · cases h

/-- A step with a `clk` edge that shows a reading took a byte for which the reference function answers that reading. -/
theorem step_shows_reading {s t : State} {e : Edge} {rest : List Edge} (hin : s.inputs = e :: rest)
    (hclk : e.hasClk = true) (h : step s = .next t) (hv : t.out.rdValid = true) :
    ∃ c p, e.clkPart = some c ∧ readPort s c = .next p ∧ p.acc = true ∧
      t.core = (streamStep s.cfg s.core p.inData).1 ∧
      (streamStep s.cfg s.core p.inData).2 = some (.read t.out.rdDistance t.out.rdStrength) := by
  obtain ⟨_, _, ⟨_, ⟨w, rfl⟩, _⟩ | ⟨c, p, ⟨hc, _⟩, hp, hside⟩⟩ := step_coreSide_cases hin h
  · cases hclk
  rcases clkCycle_cases hside with ⟨_, _, hout⟩ | ⟨hacc, hcore, hout⟩ | ⟨_, _, hout⟩
  · rw [hout] at hv; cases hv
  · rw [hout, Outputs.after_rdValid_iff] at hv
    obtain ⟨d, g, hread⟩ := hv
    exact ⟨c, p, hc, hp, hacc, hcore, by rw [hout, hread]; rfl⟩
  · rw [hout] at hv; cases hv

/-- Settles O35: the reading is the policy's, on the payload the core held when the checksum byte matched. -/
theorem readingObeysThePolicy : Obligations.ReadingObeysThePolicy := by
  intro s t e rest hin hclk h hv
  obtain ⟨c, p, hc, hp, hacc, hcore, hread⟩ := step_shows_reading hin hclk h hv
  obtain ⟨hcsum, hhunt, hsum, hpolicy⟩ := streamStep_read hread
  obtain ⟨hstrength, hreject, hclamp⟩ := streamPolicy_read hpolicy
  refine ⟨hcsum, by rw [hcore, hhunt], ⟨c, p, hc, hp, hacc, hsum⟩, hstrength, fun hpol => ?_, fun hpol => ?_⟩
  · obtain ⟨hdist, hrange⟩ := hreject hpol
    rw [hdist]
    exact ⟨rfl, hrange⟩
  · rw [hclamp hpol]
    exact ⟨clampDistance_le _ _, clampDistance_eq_self_iff _ _⟩

end Sys2Proof.Machine
end

section
/-! PROOFS. Runs without the FIFO against the reference function, and the one outcome of a frame (R135, R137). -/

namespace Sys2Proof.Machine

/-- Settles O40: the outputs of such a run and its core, each by its induction over the cycles. -/
theorem runsFollowTheStreamFunction : Obligations.RunsFollowTheStreamFunction :=
  fun _ _ _ hnone hin hrst => ⟨outsOver_clk_cycles hnone hin hrst, run_clk_cycles hnone hin hrst⟩

/-- Settles O41: nine bytes from `HUNT` give one output, and the test that decides it is the frame's checksum. -/
theorem everyFrameHasOneOutcome : Obligations.EveryFrameHasOneOutcome := by
  intro s p0 p1 p2 p3 p4 p5 k rest h f d g hnone hst hin
  obtain ⟨⟨t, ht, hrest, hcore⟩, houts⟩ := run_byteEdges hnone hin
  obtain ⟨hhunt, hone⟩ := stream_candidate (cfg := s.cfg) hst p0 p1 p2 p3 p4 p5 k
  refine ⟨⟨t, ht, hrest, by rw [hcore]; exact hhunt⟩, (houts.trans hone).trans ?_⟩
  have hok : csumOk f = decide (k = h + h + p0 + p1 + p2 + p3 + p4 + p5) := csumOk_nine ..
  change [ite _ (streamPolicy s.cfg d g) _] = _
  rw [hok]
  simp only [decide_eq_true_eq]
  congr 2
  cases hp : s.cfg.policy with
  | reject => rw [streamPolicy_reject hp]
  | clamp => rw [streamPolicy_clamp hp]; rfl

end Sys2Proof.Machine
end

section
/-! PROOFS. What the checksum detects: a byte of a frame that changes moves the sum by its difference, and the order of
the bytes does not enter (R138). -/

namespace Sys2Proof.Machine

theorem sumBytes_eq_sum (bs : List Byte) : sumBytes bs = bs.sum :=
  List.sum_eq_foldl.symm

theorem sumBytes_perm {bs bs' : List Byte} (h : bs.Perm bs') : sumBytes bs = sumBytes bs' := by
  rw [sumBytes_eq_sum, sumBytes_eq_sum, h.sum_eq]

theorem sumBytes_set {bs : List Byte} {k : Nat} {x : Byte} (hx : bs[k]? = some x) (v : Byte) :
    sumBytes (bs.set k v) = sumBytes bs + (v - x) := by
  obtain ⟨hk, rfl⟩ := List.getElem?_eq_some_iff.mp hx
  rw [sumBytes_eq_sum, sumBytes_eq_sum, List.sum_set', dif_pos hk, sub_eq_neg_add]

/-- `csum_ok` of nine bytes (R83). -/
theorem csumOk_iff {f : List Byte} (hlen : f.length = 9) : csumOk f = true ↔ f[8]? = some (sumBytes (f.take 8)) := by
  simp [csumOk, hlen, eq_comm]

theorem length_of_csumOk {f : List Byte} (h : csumOk f = true) : f.length = 9 := by
  obtain ⟨hlen, _⟩ : f.length = 9 ∧ _ := by simpa [csumOk] using h
  exact hlen

/-- A change of one summed byte moves the sum of the eight by the difference. -/
theorem sumBytes_take_set {f : List Byte} {k : Nat} {x : Byte} (hk : k < 8) (hx : f[k]? = some x) (v : Byte) :
    sumBytes ((f.set k v).take 8) = sumBytes (f.take 8) + (v - x) := by
  rw [List.take_set, sumBytes_set (by rw [List.getElem?_take_of_lt hk, hx])]

/-- Any change of one byte of a frame that passes is detected. -/
theorem csumOk_set_of_ne {f : List Byte} {k : Nat} {v : Byte} (hok : csumOk f = true) (hk : k < 9)
    (hv : f[k]? ≠ some v) : csumOk (f.set k v) = false := by
  have hlen := length_of_csumOk hok
  rw [csumOk_iff hlen] at hok
  rw [Bool.eq_false_iff, ne_eq, csumOk_iff (by rw [List.length_set, hlen])]
  intro hok'
  obtain ⟨x, hx⟩ : ∃ x, f[k]? = some x := ⟨_, List.getElem?_eq_getElem (by omega)⟩
  rcases Nat.lt_succ_iff_lt_or_eq.mp hk with hk | rfl
  · rw [sumBytes_take_set hk hx, List.getElem?_set_ne (by omega), hok] at hok'
    have hzero : v - x = 0 := by simpa using hok'
    exact hv (by rw [hx, sub_eq_zero.mp hzero])
  · rw [List.take_set_of_le (by omega), List.getElem?_set_self (by omega), ← hok] at hok'
    exact hv hok'.symm

/-- Two changes of summed bytes that cancel modulo 256 are not detected. -/
theorem csumOk_set_cancel {f : List Byte} {j k : Nat} {x y : Byte} (e : Byte) (hlen : f.length = 9) (hj : j < 8)
    (hk : k < 8) (hjk : j ≠ k) (hx : f[j]? = some x) (hy : f[k]? = some y) :
    csumOk ((f.set j (x + e)).set k (y - e)) = csumOk f := by
  have hy' : (f.set j (x + e))[k]? = some y := by rw [List.getElem?_set_ne hjk, hy]
  have hsum : sumBytes (((f.set j (x + e)).set k (y - e)).take 8) = sumBytes (f.take 8) := by
    rw [sumBytes_take_set hk hy', sumBytes_take_set hj hx]
    ring
  have hlast : ((f.set j (x + e)).set k (y - e))[8]? = f[8]? := by
    rw [List.getElem?_set_ne (by omega), List.getElem?_set_ne (by omega)]
  rw [Bool.eq_iff_iff, csumOk_iff (by simp [hlen]), csumOk_iff hlen, hsum, hlast]

/-- `csum_ok` of two header bytes, a payload and a checksum byte (R80, R83). -/
theorem csumOk_framed (h0 h1 c : Byte) (p : List Byte) :
    csumOk (h0 :: h1 :: p ++ [c]) = decide (p.length = 6 ∧ sumBytes (h0 :: h1 :: p) = c) := by
  by_cases hp : p.length = 6
  · rw [Bool.eq_iff_iff, csumOk_iff (by simp [hp])]
    simp [hp, eq_comm]
  · simp [csumOk, hp]

/-- The order of the payload bytes does not enter. -/
theorem csumOk_perm (h0 h1 c : Byte) {p q : List Byte} (h : p.Perm q) :
    csumOk (h0 :: h1 :: p ++ [c]) = csumOk (h0 :: h1 :: q ++ [c]) := by
  have hframe : (h0 :: h1 :: p).Perm (h0 :: h1 :: q) := (h.cons h1).cons h0
  rw [csumOk_framed, csumOk_framed, h.length_eq, sumBytes_perm hframe]

/-- Settles O43: one change moves the sum, a permutation and two changes that cancel do not. -/
theorem checksumDetectsSingleByteErrors : Obligations.ChecksumDetectsSingleByteErrors :=
  ⟨fun _ _ _ hok _ hk hv => csumOk_set_of_ne hok hk hv, fun h0 h1 c _ _ h => csumOk_perm h0 h1 c h,
    fun _ _ _ _ _ e hlen _ hj _ hk hjk hx hy => csumOk_set_cancel e hlen hj hk hjk hx hy⟩

end Sys2Proof.Machine
end

section
/-! PROOFS. The FIFO's operations one by one: the port word that selects each, all it writes, and what the storage and
the overflow flag keep (R150 to R155, R158, R160, R161). -/

namespace Sys2Proof.Machine

/-- With the FIFO each of its operations comes back from the port word it encodes to (R87). -/
theorem decode_encode_of_fifo {s : State} {i : Instr} (hfifo : s.cfg.cdcMode = .asyncFifo)
    (hi : i.wf s.cfg s.core.sum = decide (s.cfg.cdcMode = .asyncFifo)) :
    decode s.cfg s.core.sum (encode i) = .ok i :=
  decodeInvertsEncode _ _ _ (hi.trans (decide_eq_true hfifo))

/-- Settles O21: the port word is RPOP's, and RPOP is one update of the read pointer. -/
theorem rpopAdvancesTheReadPointer : Obligations.RpopAdvancesTheReadPointer := by
  intro s d
  exact ⟨fun hfifo => decode_encode_of_fifo (i := .rpop d) hfifo rfl, rfl⟩

/-- Settles O22: each stage of the shifted chain is `shiftIn_getElem?`. -/
theorem synchronizersShiftOneStage : Obligations.SynchronizersShiftOneStage := by
  intro s v f d
  refine ⟨fun hfifo => ⟨?_, ?_⟩, ⟨shiftIn s.wr.wptrG s.rd.wq, shiftIn_length .., fun k hk => ?_, rfl⟩,
    ⟨shiftIn s.rd.rptrG s.wr.rq, shiftIn_length .., fun k hk => ?_, rfl⟩⟩
  · exact decode_encode_of_fifo (i := .rsync v d) hfifo rfl
  · exact decode_encode_of_fifo (i := .wsync v f d) hfifo rfl
  · exact shiftIn_getElem? _ _ _ (shiftIn_length .. ▸ hk)
  · exact shiftIn_getElem? _ _ _ (shiftIn_length .. ▸ hk)

/-- Settles O23: the stored slot reads as the byte and every other slot as before, by the laws of the storage. -/
theorem wpushStoresTheByte : Obligations.WpushStoresTheByte := by
  intro s d
  exact ⟨s.mem.write (slotOf s.cfg s.wr.wptr) d,
    fun hfifo => decode_encode_of_fifo (i := .wpush d) hfifo rfl,
    Memory.read_write_same .., fun _ ha => Memory.read_write_other _ _ ha, rfl⟩

/-- Settles O24: the port word is WDROP's, and WDROP is one update of the flag. -/
theorem wdropOnlySetsOverflow : Obligations.WdropOnlySetsOverflow := by
  intro s d
  exact ⟨fun hfifo => decode_encode_of_fifo (i := .wdrop d) hfifo rfl, rfl⟩

/-- Settles O25: the port word is WRESET's, and after WRESET the storage is the empty one. -/
theorem wresetClearsTheWriteSide : Obligations.WresetClearsTheWriteSide := by
  intro s v f d
  exact ⟨[], fun hfifo => decode_encode_of_fifo (i := .wreset v f d) hfifo rfl, Memory.read_nil, rfl⟩

/-- Settles O26: WPUSH is one write of the storage, WRESET empties it, and no other operation names it. -/
theorem storageChangesOnlyWherePushed : Obligations.StorageChangesOnlyWherePushed := by
  intro i s t h
  cases i with
  | wpush d => cases h; exact fun _ ha => Memory.read_write_other _ _ ha
  | wreset v f d => cases h; exact Memory.read_nil
  | rpop | rsync | wdrop | wsync => cases h; exact fun _ => rfl
  | reset v d =>
    obtain ⟨ht, _⟩ := exec_reset_frame h
    rw [ht]; exact fun _ => rfl
  | idle d => rw [exec_coreOnly_frame (coreOnly_idle d) h]; exact fun _ => rfl
  | _ => rw [exec_coreOnly_frame (.inl rfl) h]; exact fun _ => rfl

/-- The FIFO's port where its head slot has a value or the environment's bits stand in for it (R156). -/
theorem fifoPort_eq {s : State} {v : Bool} (c : ClkIn) (hv : decide (wview s ≠ s.rd.rptr) = v) :
    fifoPort s c =
      { c with inValid := v, inData := (Memory.read s.mem (s.rd.rptr % 2 ^ s.cfg.fifoAw)).getD c.inData } := by
  subst hv; rfl

/-- Settles O7: the read port answers the FIFO's signals unless a byte would be accepted; one that is accepted stands in
the head slot. -/
theorem readPortShowsTheFifoHead : Obligations.ReadPortShowsTheFifoHead := by
  intro s c hfifo head
  refine ⟨fun hempty => ?_, fun hne hr => ?_, fun hne hr hagree b hb => ?_⟩
  · have hport := fifoPort_eq (s := s) c (decide_eq_false (not_not.mpr hempty))
    simp [readPort, hfifo, hport, ClkIn.acc, head]
  · have hport := fifoPort_eq (s := s) c (decide_eq_true hne)
    simp [readPort, hfifo, hport, ClkIn.acc, hr, head]
  · have hport := fifoPort_eq (s := s) c (decide_eq_true hne)
    have hhead : Memory.read s.mem (slotOf s.cfg s.rd.rptr) = some b := hb
    simp [readPort, hfifo, hport, ClkIn.acc, hr, hagree, hhead, show head = some b from hb, head]

end Sys2Proof.Machine
end

section
/-! PROOFS. The Gray code as a linear map of bits: its inverse, and the one bit between neighbours (R159). -/

namespace Sys2Proof.Machine

theorem gray_lt {w n : Nat} (h : n < 2 ^ w) : gray n < 2 ^ w :=
  Nat.xor_lt_two_pow h ((Nat.shiftRight_le n 1).trans_lt h)

/-- `gray` distributes over XOR. -/
theorem gray_xor (m n : Nat) : gray (m ^^^ n) = gray m ^^^ gray n := by
  simp only [gray, Nat.shiftRight_xor_distrib]
  ac_rfl

/-- The other direction of `bin_gray`. -/
theorem gray_bin {w n : Nat} (h : n < 2 ^ w) : gray (bin w n) = n := by
  induction w generalizing n with
  | zero =>
    obtain rfl : n = 0 := by omega
    rfl
  | succ w ih => rw [bin, gray_xor, ih (shiftRight_one_lt h), gray, Nat.xor_assoc, Nat.xor_self, Nat.xor_zero]

/-- Settles O54: the two inverses and their bounds. -/
theorem grayCodeRoundTrip : Obligations.GrayCodeRoundTrip :=
  fun _ _ h => ⟨gray_lt h, bin_gray h, bin_lt h, gray_bin h⟩

/-- Counting up by one, modulo `2^w`, turns over a run of low bits, and at least one if there is any. -/
theorem xor_succ_mod {w n : Nat} (h : n < 2 ^ w) :
    ∃ k ≤ w, n ^^^ (n + 1) % 2 ^ w = 2 ^ k - 1 ∧ (0 < w → 0 < k) := by
  induction w generalizing n with
  | zero =>
    obtain rfl : n = 0 := by omega
    exact ⟨0, Nat.le_refl 0, rfl, id⟩
  | succ w ih =>
    obtain ⟨b, m, rfl⟩ : ∃ b m, n = Nat.bit b m := ⟨_, _, (Nat.bit_bodd_div2 n).symm⟩
    cases b with
    | false =>
      have hsucc : (Nat.bit false m + 1) % 2 ^ (w + 1) = Nat.bit true m := by
        rw [Nat.bit_false_apply] at h ⊢
        exact Nat.mod_eq_of_lt (by omega)
      exact ⟨1, by omega, by rw [hsucc, Nat.xor_bit, Nat.xor_self]; rfl, fun _ => Nat.one_pos⟩
    | true =>
      have hm : m < 2 ^ w := by rw [Nat.bit_true_apply] at h; omega
      have hsucc : (Nat.bit true m + 1) % 2 ^ (w + 1) = Nat.bit false ((m + 1) % 2 ^ w) := by
        rw [Nat.bit_false_apply, ← Nat.mul_mod_mul_left, Nat.pow_succ', Nat.bit_true_apply]
        rfl
      obtain ⟨k, hk, hxor, _⟩ := ih hm
      have hpos := Nat.two_pow_pos k
      refine ⟨k + 1, by omega, ?_, fun _ => k.succ_pos⟩
      rw [hsucc, Nat.xor_bit, hxor, Bool.bne_false, Nat.bit_true_apply]
      omega

theorem gray_two_pow_sub_one (k : Nat) : gray (2 ^ (k + 1) - 1) = 2 ^ k := by
  apply Nat.eq_of_testBit_eq
  intro i
  simp only [gray, Nat.testBit_xor, Nat.testBit_shiftRight, Nat.testBit_two_pow_sub_one, Nat.testBit_two_pow]
  rcases Nat.lt_trichotomy i k with hi | rfl | hi
  · rw [decide_eq_true (by omega), decide_eq_true (by omega), decide_eq_false (by omega)]; rfl
  · simp
  · rw [decide_eq_false (by omega), decide_eq_false (by omega), decide_eq_false (by omega)]; rfl

/-- Settles O55: `gray` takes the run of low bits that the count turns over to its highest bit. -/
theorem grayNeighboursDifferInOneBit : Obligations.GrayNeighboursDifferInOneBit := by
  intro w n hw hn
  obtain ⟨k, hk, hxor, hpos⟩ := xor_succ_mod hn
  obtain ⟨j, rfl⟩ := Nat.exists_eq_succ_of_ne_zero (hpos hw).ne'
  exact ⟨j, hk, by rw [← gray_xor, hxor, gray_two_pow_sub_one]⟩

end Sys2Proof.Machine
end

section
/-! PROOFS. Which registers of the FIFO an edge reaches: a side whose clock does not rise holds, and a side that is
reset takes its reset values (R4, R161, R162). -/

namespace Sys2Proof.Machine

/-- What every operation of a list preserves, running the list preserves. -/
theorem execAll_preserves {P : State → Prop} {is : List Instr} {s u : State}
    (hP : ∀ i ∈ is, ∀ s t, P s → exec i s = .next t → P t) (hs : P s) (h : execAll is s = .next u) : P u := by
  induction is generalizing s with
  | nil => cases h; exact hs
  | cons i is ih =>
    obtain ⟨t, ht, hu⟩ := execAll_cons_next_iff.mp h
    rw [List.forall_mem_cons] at hP
    obtain ⟨hi, his⟩ := hP
    exact ih his (hi s t hs ht) hu

/-- What one operation of a list establishes and every other preserves holds after the list. -/
theorem execAll_establishes {P : State → Prop} {i : Instr} {is : List Instr} {s u : State} (hi : i ∈ is)
    (hset : ∀ s t, exec i s = .next t → P t) (hP : ∀ j ∈ is, ∀ s t, P s → exec j s = .next t → P t)
    (h : execAll is s = .next u) : P u := by
  induction is generalizing s with
  | nil => cases hi
  | cons j is ih =>
    obtain ⟨t, ht, hu⟩ := execAll_cons_next_iff.mp h
    have hrest : ∀ j ∈ is, ∀ s t, P s → exec j s = .next t → P t := fun j hj => hP j (List.mem_cons_of_mem _ hj)
    rcases List.mem_cons.mp hi with rfl | hi
    · exact execAll_preserves hrest (hset s t ht) hu
    · exact ih hi hrest hu

-- ---------------------------------------------------------------- the operations of each clock

/-- The operations at a `clk` edge write the core, the outputs and the read side only. -/
theorem exec_readSide_frame {i : Instr} {s t : State} (hi : i.unit < writeUnit) (h : exec i s = .next t) :
    t = { s with core := t.core, out := t.out, rd := t.rd } := by
  cases i with
  | rpop | rsync => cases h; rfl
  | reset v d => exact (exec_reset_frame h).1
  | idle d => rw [exec_coreOnly_frame (coreOnly_idle d) h]
  | wpush | wdrop | wsync | wreset => exact absurd hi (by simp [Instr.unit, writeUnit, writeSyncUnit])
  | _ => rw [exec_coreOnly_frame (.inl rfl) h]

/-- The operations at a `wclk` edge write the storage and the write side only. -/
theorem exec_writeSide_frame {i : Instr} {s t : State} (hi : writeUnit ≤ i.unit) (h : exec i s = .next t) :
    t = { s with mem := t.mem, wr := t.wr } := by
  cases i with
  | wpush | wdrop | wsync | wreset => cases h; rfl
  | _ => exact absurd hi (by simp [Instr.unit, writeUnit, coreUnit, popUnit, readSyncUnit])

theorem clkOps_unit_lt (s : State) (p : ClkIn) : ∀ i ∈ coreOps s p ++ readSyncOps s p, i.unit < writeUnit := by
  rw [coreOps, readSyncOps, opOf_coreWord, opOf_pop, opOf_readSync]
  have hpop : popUnit < writeUnit := by decide
  have hsync : readSyncUnit < writeUnit := by decide
  have hcore : (if p.acc then decodeKey s.cfg.header s.core.sum (keyBits s.core.st.code s.core.idx p.inData)
      else if p.rst then .reset p.inValid p.inData else .idle p.inData).unit < writeUnit := by
    split_ifs
    · rw [decodeKey_unit]; decide
    · exact (by decide : coreUnit < writeUnit)
    · exact (by decide : coreUnit < writeUnit)
  intro i hi
  simp only [List.mem_append, List.mem_singleton] at hi
  rcases hi with (rfl | hi) | hi
  · exact hcore
  · split_ifs at hi <;> simp_all
  · split_ifs at hi <;> simp_all

theorem wclkOps_le_unit {s : State} (hfifo : s.cfg.cdcMode = .asyncFifo) (w : WclkIn) :
    ∀ i ∈ writeOps s w ++ writeSyncOps s w, writeUnit ≤ i.unit := by
  have hsync : writeUnit ≤ writeSyncUnit := by decide
  rw [writeOps_eq hfifo, writeSyncOps_eq hfifo]
  split_ifs <;> simp [Instr.unit, hsync]

/-- At a `clk` edge with `rst = 1` RESET runs alone (R162). -/
theorem clkOps_of_rst (s : State) {p : ClkIn} (hr : p.rst = true) :
    coreOps s p ++ readSyncOps s p = [.reset p.inValid p.inData] := by
  simp [coreOps, readSyncOps, opOf_coreWord, opOf_pop, opOf_readSync, ClkIn.acc, hr]

/-- At a `wclk` edge with `wrst = 1` WRESET runs alone (R161). -/
theorem wclkOps_of_wrst {s : State} {w : WclkIn} (hfifo : s.cfg.cdcMode = .asyncFifo) (hr : w.wrst = true) :
    writeOps s w ++ writeSyncOps s w = [.wreset w.wrValid (fullW s) w.wrData] := by
  simp [writeOps_eq hfifo, writeSyncOps_eq hfifo, hr]

-- ---------------------------------------------------------------- the operations of an edge

/-- Only a block with the FIFO takes an edge of `wclk` (R42). -/
theorem fifo_of_wclkPart {s : State} {e : Edge} {w : WclkIn} {is : List Instr} (hw : e.wclkPart = some w)
    (hf : fetch s e = .next is) : s.cfg.cdcMode = .asyncFifo := by
  cases e with
  | clk => cases hw
  | wclk => exact (fetch_wclk_next hf).1
  | both => exact (fetch_both_next hf).1

section
variable {s u : State} {e : Edge} {is : List Instr} (hf : fetch s e = .next is)
include hf

/-- Each operation of an edge is one of the read side, where `clk` rises, or one of the write side, where `wclk` does.
-/
theorem fetch_mem_cases {i : Instr} (hi : i ∈ is) :
    (∃ c p, e.clkPart = some c ∧ readPort s c = .next p ∧ i ∈ coreOps s p ++ readSyncOps s p ∧ i.unit < writeUnit) ∨
      (∃ w, e.wclkPart = some w ∧ i ∈ writeOps s w ++ writeSyncOps s w ∧ writeUnit ≤ i.unit) := by
  obtain ⟨js, ks, hperm, hjs, hks⟩ := fetch_perm hf
  rcases List.mem_append.mp (hperm.mem_iff.mp hi) with hj | hk
  · obtain ⟨_, rfl⟩ | ⟨c, p, hc, hp, rfl⟩ := hjs
    · cases hj
    · exact .inl ⟨c, p, hc, hp, hj, clkOps_unit_lt s p i hj⟩
  · obtain ⟨_, rfl⟩ | ⟨w, hw, rfl⟩ := hks
    · cases hk
    · exact .inr ⟨w, hw, hk, wclkOps_le_unit (fifo_of_wclkPart hw hf) w i hk⟩

theorem reset_mem_fetch {c : ClkIn} (hc : e.clkPart = some c) (hr : c.rst = true) : ∃ v d, .reset v d ∈ is := by
  obtain ⟨js, ks, hperm, hjs, _⟩ := fetch_perm hf
  obtain ⟨hnone, _⟩ | ⟨c', p, hc', hp, rfl⟩ := hjs
  · rw [hc] at hnone; cases hnone
  cases hc.symm.trans hc'
  obtain ⟨hpr, _⟩ := readPort_next_cases hp
  exact ⟨_, _, hperm.mem_iff.mpr (List.mem_append_left _ (by rw [clkOps_of_rst s (hpr.trans hr)]; exact .head _))⟩

theorem wreset_mem_fetch {w : WclkIn} (hw : e.wclkPart = some w) (hr : w.wrst = true) :
    ∃ v f d, .wreset v f d ∈ is := by
  obtain ⟨js, ks, hperm, _, hks⟩ := fetch_perm hf
  obtain ⟨hnone, _⟩ | ⟨w', hw', rfl⟩ := hks
  · rw [hw] at hnone; cases hnone
  cases hw.symm.trans hw'
  have hops := wclkOps_of_wrst (fifo_of_wclkPart hw hf) hr
  exact ⟨_, _, _, hperm.mem_iff.mpr (List.mem_append_right _ (by rw [hops]; exact .head _))⟩

variable (hrun : execAll is s = .next u)
include hrun

theorem edge_keeps_readSide (hclk : e.clkPart = none) : u.rd = s.rd := by
  refine execAll_keeps State.rd (fun i hi s t h => ?_) hrun
  obtain ⟨c, _, hc, _⟩ | ⟨_, _, _, hunit⟩ := fetch_mem_cases hf hi
  · rw [hclk] at hc; cases hc
  · rw [exec_writeSide_frame hunit h]

theorem edge_keeps_writeSide (hwclk : e.wclkPart = none) : u.wr = s.wr ∧ u.mem = s.mem := by
  have hkeeps : (u.wr, u.mem) = (s.wr, s.mem) := execAll_keeps (fun s => (s.wr, s.mem)) (fun i hi s t h => by
    obtain ⟨_, _, _, _, _, hunit⟩ | ⟨w, hw, _⟩ := fetch_mem_cases hf hi
    · rw [exec_readSide_frame hunit h]
    · rw [hwclk] at hw; cases hw) hrun
  exact Prod.mk.inj hkeeps

theorem edge_resets_readSide {c : ClkIn} (hc : e.clkPart = some c) (hr : c.rst = true)
    (hfifo : s.cfg.cdcMode = .asyncFifo) : u.rd = ReadSide.reset s.cfg.syncStages := by
  have hcfg := execAll_keeps_cfg hrun
  rw [← hcfg] at hfifo ⊢
  obtain ⟨v, d, hmem⟩ := reset_mem_fetch hf hc hr
  have hreset (v : Bool) (d : Byte) (s t : State) (h : exec (.reset v d) s = .next t) :
      t.cfg.cdcMode = .asyncFifo → t.rd = ReadSide.reset t.cfg.syncStages := by
    cases h
    cases hm : s.cfg.cdcMode <;> simp [hm]
  refine execAll_establishes (P := fun t => t.cfg.cdcMode = .asyncFifo → t.rd = ReadSide.reset t.cfg.syncStages)
    hmem (hreset v d) (fun j hj s' t hs h => ?_) hrun hfifo
  obtain ⟨c', p, hc', hp, hj, _⟩ | ⟨_, _, _, hunit⟩ := fetch_mem_cases hf hj
  · cases hc.symm.trans hc'
    obtain ⟨hpr, _⟩ := readPort_next_cases hp
    rw [clkOps_of_rst s (hpr.trans hr), List.mem_singleton] at hj
    subst hj
    exact hreset _ _ _ _ h
  · rw [exec_writeSide_frame hunit h]
    exact hs

theorem edge_resets_writeSide {w : WclkIn} (hw : e.wclkPart = some w) (hr : w.wrst = true) :
    u.wr = WriteSide.reset s.cfg.syncStages ∧ u.mem = [] := by
  have hfifo := fifo_of_wclkPart hw hf
  rw [← execAll_keeps_cfg hrun]
  obtain ⟨v, f, d, hmem⟩ := wreset_mem_fetch hf hw hr
  refine execAll_establishes (P := fun t => t.wr = WriteSide.reset t.cfg.syncStages ∧ t.mem = [])
    hmem (fun s t h => by cases h; exact ⟨rfl, rfl⟩) (fun j hj s' t hs h => ?_) hrun
  obtain ⟨_, _, _, _, _, hunit⟩ | ⟨w', hw', hj, _⟩ := fetch_mem_cases hf hj
  · rw [exec_readSide_frame hunit h]
    exact hs
  · cases hw.symm.trans hw'
    rw [wclkOps_of_wrst hfifo hr, List.mem_singleton] at hj
    subst hj
    cases h
    exact ⟨rfl, rfl⟩

end

/-- Without the FIFO an edge is one operation of the core. -/
theorem fetch_without_fifo {s : State} {e : Edge} {is : List Instr} (hnone : s.cfg.cdcMode = .none)
    (hf : fetch s e = .next is) : ∃ i, is = [i] ∧ (CoreOnly i ∨ ∃ v d, i = .reset v d) := by
  cases e with
  | wclk | both =>
    have hfifo := fifo_of_wclkPart rfl hf
    rw [hnone] at hfifo; cases hfifo
  | clk c =>
    obtain ⟨p, _, rfl⟩ := fetch_clk_next hf
    refine ⟨_, by rw [coreOps, readSyncOps, opOf_coreWord, opOf_pop, opOf_readSync]; simp [hnone]; rfl, ?_⟩
    split_ifs
    · exact .inl (coreOnly_decodeKey ..)
    · exact .inr ⟨_, _, rfl⟩
    · exact .inl (coreOnly_idle _)

/-- Without the FIFO a step writes the core and the outputs only. -/
theorem step_without_fifo_frame {s t : State} (hnone : s.cfg.cdcMode = .none) (h : step s = .next t) :
    t = { s with inputs := t.inputs, core := t.core, out := t.out } := by
  rcases step_next_cases h with ⟨_, rfl⟩ | ⟨e, rest, is, u, _, hf, hrun, rfl⟩
  · rfl
  obtain ⟨i, rfl, hi⟩ := fetch_without_fifo (s := { s with inputs := rest }) hnone hf
  obtain ⟨u', hexec, hnil⟩ := execAll_cons_next_iff.mp hrun
  cases hnil
  rw [State.noteEdge_of_none (s := { s with inputs := rest }) hnone]
  rcases hi with hi | ⟨v, d, rfl⟩
  · rw [exec_coreOnly_frame hi hexec]
  · obtain ⟨hframe, hrd⟩ := exec_reset_frame hexec
    rw [hframe, hrd hnone]

/-- Settles O33: the read port answers while `rst = 1`, the cycle is `clkCycle_reset`, and of the FIFO the edge resets
the read side, if there is one, and leaves the write side unless `wclk` rises too. -/
theorem resetOverridesEveryInput : Obligations.ResetOverridesEveryInput := by
  intro s e c rest hin hc hnone hr
  have hnoTake : ¬TakesFromFifo s e := fun ⟨_, ⟨c', hc', hr'⟩, _⟩ => by
    cases hc.symm.trans hc'
    rw [hr] at hr'; cases hr'
  obtain ⟨p, hp⟩ := readPort_of_not_takesFromFifo hnoTake hc
  obtain ⟨hpr, _⟩ := readPort_next_cases hp
  obtain ⟨t, ht, hinputs, _, hside⟩ := step_of_clkRises hin ⟨hc, hnone⟩ hp
  obtain ⟨hcore, hout⟩ := Prod.mk.inj (hside.trans (clkCycle_reset _ _ _ (hpr.trans hr)))
  obtain ⟨hnil, _⟩ | ⟨e', rest', is, u, hin', hf, hrun, rfl⟩ := step_next_cases ht
  · rw [hin] at hnil; cases hnil
  cases hin.symm.trans hin'
  refine ⟨_, ht, hinputs, hcore, hout, fun he => ?_, fun hn => ?_, fun hfifo => ?_⟩
  · rw [State.noteEdge_wr, State.noteEdge_mem]
    exact edge_keeps_writeSide (s := { s with inputs := rest }) hf hrun (by rw [he]; rfl)
  · rw [step_without_fifo_frame hn ht]
  · rw [State.noteEdge_rd]
    exact edge_resets_readSide (s := { s with inputs := rest }) hf hrun hc hr hfifo

-- ---------------------------------------------------------------- the overflow flag

/-- What an operation does to the overflow flag (R158). -/
theorem exec_wrOvf_cases {i : Instr} {s t : State} (h : exec i s = .next t) :
    ((∃ d, i = .wdrop d) ∧ t.wr.wrOvf = true) ∨ ((∃ v f d, i = .wreset v f d) ∧ t.wr.wrOvf = false) ∨
      t.wr.wrOvf = s.wr.wrOvf := by
  by_cases hi : i.unit < writeUnit
  · rw [exec_readSide_frame hi h]
    exact .inr (.inr rfl)
  cases i with
  | wdrop d => cases h; exact .inl ⟨⟨d, rfl⟩, rfl⟩
  | wreset v f d => cases h; exact .inr (.inl ⟨⟨v, f, d, rfl⟩, rfl⟩)
  | wpush | wsync => cases h; exact .inr (.inr rfl)
  | _ => exact absurd (by simp [Instr.unit, writeUnit, coreUnit, popUnit, readSyncUnit]) hi

/-- Operations among which there is no WDROP leave the flag off. -/
theorem execAll_wrOvf_stays_off {is : List Instr} {s u : State} (h : execAll is s = .next u)
    (hs : s.wr.wrOvf = false) (hno : ∀ d, .wdrop d ∉ is) : u.wr.wrOvf = false :=
  execAll_preserves (P := fun s => s.wr.wrOvf = false) (fun i hi s t hs hexec => by
    rcases exec_wrOvf_cases hexec with ⟨⟨d, rfl⟩, _⟩ | ⟨_, hoff⟩ | hsame
    · exact absurd hi (hno d)
    · exact hoff
    · exact hsame.trans hs) hs h

/-- Operations among which there is no WRESET leave the flag on. -/
theorem execAll_wrOvf_stays_on {is : List Instr} {s u : State} (h : execAll is s = .next u)
    (hs : s.wr.wrOvf = true) (hno : ∀ v f d, .wreset v f d ∉ is) : u.wr.wrOvf = true :=
  execAll_preserves (P := fun s => s.wr.wrOvf = true) (fun i hi s t hs hexec => by
    rcases exec_wrOvf_cases hexec with ⟨_, hon⟩ | ⟨⟨v, f, d, rfl⟩, _⟩ | hsame
    · exact hon
    · exact absurd hi (hno v f d)
    · exact hsame.trans hs) hs h

/-- Settles O53: without a WDROP the flag stays off, and without a WRESET it stays on. -/
theorem overflowFlagIsSticky : Obligations.OverflowFlagIsSticky := by
  intro s t h
  rcases step_next_cases h with ⟨_, rfl⟩ | ⟨e, rest, is, u, hin, hf, hrun, rfl⟩
  · exact ⟨fun hoff hon => absurd (hoff.symm.trans hon) (by decide),
      fun hon hoff => absurd (hon.symm.trans hoff) (by decide)⟩
  rw [nextOps_of_fetch hin hf, State.noteEdge_wr]
  refine ⟨fun hoff hon => ?_, fun hon hoff => ?_⟩
  · by_contra hno
    rw [execAll_wrOvf_stays_off hrun hoff (not_exists.mp hno)] at hon
    cases hon
  · by_contra hno
    rw [execAll_wrOvf_stays_on hrun hon fun v f d hmem => hno ⟨v, f, d, hmem⟩] at hoff
    cases hoff

end Sys2Proof.Machine
end

section
/-! PROOFS. A FIFO in agreement answers every edge, and a push finds room (R151, R152, R163). -/

namespace Sys2Proof.Machine

/-- Settles O51: the slot at the read port of a FIFO in agreement was written. -/
theorem agreeingFifoNeverStops : Obligations.AgreeingFifoNeverStops := by
  intro s hfifo hinv hagree
  cases hin : s.inputs with
  | nil => exact ⟨s, step_of_no_edge hin⟩
  | cons e rest => exact (inAgreement_of_fifoInv hfifo hinv hagree).step_answers hin

/-- The `k`-th waiting byte stands in the slot of the `k`-th count from `popped` on. -/
theorem Counts.Of.slotOf_waiting {c : Counts} {s : State} (h : c.Of s) (k : Nat) :
    slotOf s.cfg (s.rd.rptr + k) = slotOf s.cfg (c.popped + k) := by
  rw [h.rptr, slotOf_mod_add]

theorem Counts.Of.ptrDist_eq {c : Counts} {s : State} (h : c.Of s) :
    ptrDist s.cfg s.rd.rptr s.wr.wptr = c.pushed - c.popped := by
  have hroom := h.room
  have hview := h.lastStage_rq_le
  have hmod := ptrMod_eq s.cfg
  have hdepth := depth_pos s.cfg
  rw [h.rptr, h.wptr]
  exact ptrDist_mod h.popped_le_pushed (by omega)

/-- Settles O52: over the counts of the FIFO a push writes the slot of a count that is not waiting. -/
theorem pushNeverHitsAWaitingByte : Obligations.PushNeverHitsAWaitingByte := by
  intro s d hinv hagree hfull
  obtain ⟨hshape, hagrees⟩ := hinv
  have hof := counts_ofState hshape (hagrees (.inl hagree))
  have hroom := hof.allows_wpush hfull d
  obtain ⟨_, hqueue⟩ := hof.wpush hroom rfl
  refine ⟨_, rfl, fun k hk => ?_, hqueue.symm⟩
  rw [hof.ptrDist_eq] at hk
  have hne : slotOf s.cfg (s.rd.rptr + k) ≠ slotOf s.cfg s.wr.wptr := by
    rw [hof.slotOf_waiting]
    exact hof.slotOf_waiting_ne hroom (Nat.le_add_right ..) (by omega)
  exact ⟨hne, Memory.read_write_other _ _ hne⟩

end Sys2Proof.Machine
end

section
/-! PROOFS. The FIFO's registers keep their shape at every operation (R150), and a FIFO whose pointers are all zero is
in agreement (R151, R201). -/

namespace Sys2Proof.Machine

/-- The part of the FIFO's shape that the registers of R150 alone show: `FifoShape` without what it says of a side in
its reset interval. -/
structure RegsShape (s : State) : Prop where
  cfg : s.cfg.wf = true
  wptr : s.wr.wptr < s.cfg.ptrMod
  wptrG : s.wr.wptrG = gray s.wr.wptr
  rptr : s.rd.rptr < s.cfg.ptrMod
  rptrG : s.rd.rptrG = gray s.rd.rptr
  rqStages : s.wr.rq.length = s.cfg.syncStages
  rq : ∀ g ∈ s.wr.rq, g < s.cfg.ptrMod
  wqStages : s.rd.wq.length = s.cfg.syncStages
  wq : ∀ g ∈ s.rd.wq, g < s.cfg.ptrMod
  canonical : Memory.wf s.mem
  slots : ∀ x ∈ s.mem, x.1 < s.cfg.depth

/-- The read side's pointer and chain are at zero. -/
def ReadZero (s : State) : Prop := s.rd.rptr = 0 ∧ ∀ g ∈ s.rd.wq, g = 0

/-- The write side's pointer and chain are at zero. -/
def WriteZero (s : State) : Prop := s.wr.wptr = 0 ∧ ∀ g ∈ s.wr.rq, g = 0

theorem fifoShape_iff (s : State) :
    FifoShape s ↔ RegsShape s ∧ (s.resets.rstHeld = true → ReadZero s) ∧ (s.resets.wrstHeld = true → WriteZero s) := by
  constructor
  · rintro ⟨hcfg, hwptr, hwptrG, hrptr, hrptrG, hrqStages, hrq, hwqStages, hwq, hcanonical, hslots, hrst, hwrst⟩
    exact ⟨⟨hcfg, hwptr, hwptrG, hrptr, hrptrG, hrqStages, hrq, hwqStages, hwq, hcanonical, hslots⟩, hrst, hwrst⟩
  · rintro ⟨h, hrst, hwrst⟩
    exact ⟨h.cfg, h.wptr, h.wptrG, h.rptr, h.rptrG, h.rqStages, h.rq, h.wqStages, h.wq, h.canonical, h.slots, hrst,
      hwrst⟩

theorem RegsShape.congr {s t : State} (h : RegsShape s) (hcfg : t.cfg = s.cfg) (hmem : t.mem = s.mem)
    (hwr : t.wr = s.wr) (hrd : t.rd = s.rd) : RegsShape t := by
  obtain ⟨cfg, inputs, core, out, mem, wr, rd, agree, resets⟩ := t
  cases hcfg
  cases hmem
  cases hwr
  cases hrd
  exact { h with }

theorem ReadSide.reset_wq_zero (n : Nat) : ∀ g ∈ (ReadSide.reset n).wq, g = 0 := fun _ => List.eq_of_mem_replicate

theorem WriteSide.reset_rq_zero (n : Nat) : ∀ g ∈ (WriteSide.reset n).rq, g = 0 := fun _ => List.eq_of_mem_replicate

theorem gray_zero : gray 0 = 0 := by simp [gray]

theorem ptrMod_pos (cfg : Config) : 0 < cfg.ptrMod := Nat.two_pow_pos _

theorem RegsShape.resetRead {s : State} (h : RegsShape s) : RegsShape s.resetRead :=
  { h with
    rptr := ptrMod_pos _
    rptrG := gray_zero.symm
    wqStages := List.length_replicate
    wq := fun g hg => by rw [ReadSide.reset_wq_zero _ g hg]; exact ptrMod_pos _ }

theorem RegsShape.resetWrite {s : State} (h : RegsShape s) : RegsShape s.resetWrite :=
  { h with
    wptr := ptrMod_pos _
    wptrG := gray_zero.symm
    rqStages := List.length_replicate
    rq := fun g hg => by rw [WriteSide.reset_rq_zero _ g hg]; exact ptrMod_pos _
    canonical := Memory.wf_nil
    slots := fun x hx => by cases hx }

/-- Every operation keeps the shape of the registers. -/
theorem exec_keeps_regsShape {i : Instr} {s t : State} (h : RegsShape s) (hexec : exec i s = .next t) :
    RegsShape t := by
  have hcoreOnly (hi : CoreOnly i) : RegsShape t := by
    rw [exec_coreOnly_frame hi hexec]
    exact h.congr rfl rfl rfl rfl
  cases i with
  | rpop d => cases hexec; exact { h with rptr := mod_ptrMod_lt .., rptrG := rfl }
  | rsync v d =>
    cases hexec
    refine { h with wqStages := (shiftIn_length ..).trans h.wqStages, wq := fun g hg => ?_ }
    rcases mem_shiftIn hg with rfl | hg
    · rw [h.wptrG]; exact gray_lt h.wptr
    · exact h.wq g hg
  | wpush d =>
    cases hexec
    refine { h with wptr := mod_ptrMod_lt .., wptrG := rfl, canonical := Memory.wf_write _ _ _ h.canonical,
                    slots := fun x hx => ?_ }
    rcases Memory.mem_write _ _ _ _ hx with rfl | hx
    · exact Nat.mod_lt _ (depth_pos _)
    · exact h.slots x hx
  | wdrop d => cases hexec; exact { h with }
  | wsync v f d =>
    cases hexec
    refine { h with rqStages := (shiftIn_length ..).trans h.rqStages, rq := fun g hg => ?_ }
    rcases mem_shiftIn hg with rfl | hg
    · rw [h.rptrG]; exact gray_lt h.rptr
    · exact h.rq g hg
  | wreset v f d => cases hexec; exact h.resetWrite
  | reset v d =>
    cases hexec
    cases s.cfg.cdcMode
    · exact { h with }
    · exact { h.resetRead with }
  | idle d => exact hcoreOnly (coreOnly_idle d)
  | _ => exact hcoreOnly (.inl rfl)

theorem regsShape_resetWith {cfg : Config} (h : cfg.wf = true) : RegsShape (State.resetWith cfg) where
  cfg := h
  wptr := ptrMod_pos cfg
  wptrG := gray_zero.symm
  rptr := ptrMod_pos cfg
  rptrG := gray_zero.symm
  rqStages := List.length_replicate
  rq := fun g hg => by rw [WriteSide.reset_rq_zero _ g hg]; exact ptrMod_pos cfg
  wqStages := List.length_replicate
  wq := fun g hg => by rw [ReadSide.reset_wq_zero _ g hg]; exact ptrMod_pos cfg
  canonical := Memory.wf_nil
  slots := fun x hx => by cases hx

-- ---------------------------------------------------------------- all pointers zero

theorem bin_zero (w : Nat) : bin w 0 = 0 := by
  induction w with
  | zero => rfl
  | succ w ih => rw [bin, Nat.zero_shiftRight, ih]; rfl

theorem lastStage_of_zero {q : List Nat} (h : ∀ g ∈ q, g = 0) : lastStage q = 0 := by
  by_cases hq : q = []
  · rw [hq]; rfl
  · exact h _ (lastStage_mem hq)

theorem map_bin_of_zero {q : List Nat} (w : Nat) (h : ∀ g ∈ q, g = 0) : ∀ p ∈ q.map (bin w), p = 0 := by
  intro p hp
  obtain ⟨g, hg, rfl⟩ := List.mem_map.mp hp
  rw [h g hg, bin_zero]

/-- With all pointers at zero nothing waits, and the chain of pointers is flat. -/
theorem fifoAgrees_of_zero {s : State} (hread : ReadZero s) (hwrite : WriteZero s) : FifoAgrees s := by
  obtain ⟨hrptr, hwq⟩ := hread
  obtain ⟨hwptr, hrq⟩ := hwrite
  have hrview : rview s = 0 := by rw [rview, lastStage_of_zero hrq, bin_zero]
  have hdist : ptrDist s.cfg 0 0 = 0 := by simp [ptrDist]
  have hchain : ∀ p ∈ pointerChain s, p = 0 := by
    intro p hp
    simp only [pointerChain, List.map_reverse, List.mem_append, List.mem_reverse, List.mem_singleton] at hp
    rcases hp with ((hp | hp) | hp) | hp
    · exact map_bin_of_zero _ hrq p hp
    · exact hp.trans hrptr
    · exact map_bin_of_zero _ hwq p hp
    · exact hp.trans hwptr
  refine ⟨?_, ?_, ?_⟩
  · rw [List.pairwise_map]
    exact List.pairwise_of_forall_mem_list fun p hp q hq => by rw [hchain p hp, hchain q hq]
  · rw [occW, hrview, hwptr, hdist]
    exact Nat.zero_le _
  · rw [hrptr, hwptr, hdist]
    exact fun k hk => absurd hk (Nat.not_lt_zero k)

/-- Settles O50: the reset state has all pointers at zero. -/
theorem resetHasFifoInvariant : Obligations.ResetHasFifoInvariant := by
  intro cfg h
  have hread : ReadZero (State.resetWith cfg) := ⟨rfl, ReadSide.reset_wq_zero _⟩
  have hwrite : WriteZero (State.resetWith cfg) := ⟨rfl, WriteSide.reset_rq_zero _⟩
  exact ⟨⟨(fifoShape_iff _).mpr ⟨regsShape_resetWith h, fun _ => hread, fun _ => hwrite⟩,
    fun _ => fifoAgrees_of_zero hread hwrite⟩, rfl⟩

end Sys2Proof.Machine
end

section
/-! PROOFS. The counts after a list of operations, and agreement of the pointers from counts (R163). -/

namespace Sys2Proof.Machine

theorem execAll_append_next {is js : List Instr} {s u : State} (h : execAll (is ++ js) s = .next u) :
    ∃ t, execAll is s = .next t ∧ execAll js t = .next u := by
  induction is generalizing s with
  | nil => exact ⟨s, rfl, h⟩
  | cons i is ih =>
    obtain ⟨t, ht, hu⟩ := execAll_cons_next_iff.mp h
    obtain ⟨v, hv, hu⟩ := ih hu
    exact ⟨v, execAll_cons_next_iff.mpr ⟨t, ht, hv⟩, hu⟩

/-- Operations of different units that the counts allow take the counts along, and leave allowed what other units were
allowed to do. -/
theorem Counts.Of.execAll_after {c : Counts} {is js : List Instr} {s u : State} (h : c.Of s)
    (hallows : ∀ i ∈ is ++ js, c.Allows s i) (hunits : (is ++ js).Pairwise fun i j => i.unit ≠ j.unit)
    (hrun : Machine.execAll is s = .next u) :
    (is.foldl Counts.after c).Of u ∧ ∀ j ∈ js, (is.foldl Counts.after c).Allows u j := by
  induction is generalizing c s with
  | nil => cases hrun; exact ⟨h, hallows⟩
  | cons i is ih =>
    obtain ⟨t, ht, hu⟩ := execAll_cons_next_iff.mp hrun
    rw [List.cons_append] at hallows hunits
    obtain ⟨hi, hallows⟩ := List.forall_mem_cons.mp hallows
    obtain ⟨hunit, hunits⟩ := List.pairwise_cons.mp hunits
    obtain ⟨hof, _⟩ := h.exec hi ht
    exact ih hof (fun j hj => h.exec_allows hi (hallows j hj) (hunit j hj) ht) hunits hu

namespace Counts.Of

variable {c : Counts} {s : State} (h : c.Of s)
include h

/-- The counts fall from `wptr` through the read side's chain to `rptr`, and on through the write side's. -/
theorem falls : (c.pushed :: c.wq ++ c.popped :: c.rq).Pairwise (· ≥ ·) := by
  obtain ⟨_, hwq⟩ := h.wq_trails
  obtain ⟨_, hrq⟩ := h.rq_trails
  refine List.pairwise_append.mpr ⟨hwq, hrq, fun x hx y hy => ?_⟩
  have hy : y ≤ c.popped := by
    rcases List.mem_cons.mp hy with rfl | hy
    · exact Nat.le_refl _
    · exact List.rel_of_pairwise_cons hrq hy
  exact hy.trans (h.popped_le.trans (h.wq_trails.lastStage_le hx))

theorem pointerChain_eq :
    pointerChain s = (c.pushed :: c.wq ++ c.popped :: c.rq).reverse.map (· % s.cfg.ptrMod) := by
  simp [pointerChain, h.rq, h.wq, h.rptr, h.wptr]

/-- The distance of a pointer from the write side's view is that of its count. -/
theorem ptrDist_rview {x : Nat} (hx : x ∈ c.pushed :: c.wq ++ c.popped :: c.rq) :
    ptrDist s.cfg (rview s) (x % s.cfg.ptrMod) = x - lastStage c.rq := by
  have hroom := h.room
  have hdepth := depth_pos s.cfg
  have hmod := ptrMod_eq s.cfg
  have hupper : x ≤ c.pushed := by
    have hfalls := h.falls
    rcases List.mem_cons.mp hx with rfl | hx
    · exact Nat.le_refl _
    · exact List.rel_of_pairwise_cons hfalls hx
  have hlower : lastStage c.rq ≤ x := by
    rcases List.mem_append.mp hx with hx | hx
    · exact h.lastStage_rq_le.trans (h.popped_le.trans (h.wq_trails.lastStage_le hx))
    · exact h.rq_trails.lastStage_le hx
  rw [h.rview_eq]
  exact ptrDist_mod hlower (by omega)

/-- A FIFO with counts is in agreement. -/
theorem fifoAgrees : FifoAgrees s := by
  refine ⟨?_, ?_, fun k hk => ?_⟩
  · rw [h.pointerChain_eq, List.map_map, List.pairwise_map, List.pairwise_reverse]
    refine h.falls.imp_of_mem fun hx hy hge => ?_
    rw [Function.comp_apply, Function.comp_apply, h.ptrDist_rview hx, h.ptrDist_rview hy]
    exact Nat.sub_le_sub_right hge _
  · rw [h.occW_eq]
    exact Nat.sub_le_iff_le_add'.mpr h.room
  · rw [h.ptrDist_eq] at hk
    rw [h.slotOf_waiting]
    exact h.written _ (Nat.le_add_right ..) (by omega)

end Counts.Of

/-- Counts less than `2^(A+1)` apart that stand for the same pointer are equal. -/
theorem eq_of_mod_ptrMod_eq {cfg : Config} {a b : Nat} (h : a % cfg.ptrMod = b % cfg.ptrMod) (hle : a ≤ b)
    (hnear : b < a + cfg.ptrMod) : a = b := by
  have hdvd : cfg.ptrMod ∣ b - a := (Nat.modEq_iff_dvd' hle).mp h
  have hzero := Nat.eq_zero_of_dvd_of_lt hdvd (by omega)
  omega

/-- In agreement, a write side at zero finds the read side at zero (R202). -/
theorem Counts.Of.readZero_of_writeZero {c : Counts} {s : State} (h : c.Of s) (hregs : RegsShape s)
    (hzero : WriteZero s) : ReadZero s := by
  obtain ⟨hwptr, hrq⟩ := hzero
  have hview := h.lastStage_rq_le.trans h.popped_le_pushed
  have hroom := h.room
  have hdepth := depth_pos s.cfg
  have hmod := ptrMod_eq s.cfg
  have hflat : lastStage c.rq = c.pushed := by
    refine eq_of_mod_ptrMod_eq (cfg := s.cfg) ?_ hview (by omega)
    rw [← h.rview_eq, ← h.wptr, hwptr, rview, lastStage_of_zero hrq, bin_zero]
  have hpopped : c.popped = c.pushed := Nat.le_antisymm h.popped_le_pushed (hflat ▸ h.lastStage_rq_le)
  have hstage : ∀ p ∈ c.wq.map (· % s.cfg.ptrMod), p = 0 := by
    intro p hp
    obtain ⟨x, hx, rfl⟩ := List.mem_map.mp hp
    obtain ⟨_, hfalls⟩ := h.wq_trails
    have hupper : x ≤ c.pushed := List.rel_of_pairwise_cons hfalls hx
    have hlower : c.popped ≤ x := h.popped_le.trans (h.wq_trails.lastStage_le (List.mem_cons_of_mem _ hx))
    have hx : x = c.pushed := Nat.le_antisymm hupper (hpopped ▸ hlower)
    change x % _ = 0
    rw [hx, ← h.wptr, hwptr]
  refine ⟨by rw [h.rptr, hpopped, ← h.wptr, hwptr], fun g hg => ?_⟩
  have hbin : bin s.cfg.ptrWidth g = 0 := hstage _ (h.wq ▸ List.mem_map_of_mem hg)
  rw [← gray_bin (w := s.cfg.ptrWidth) (hregs.wq g hg), hbin, gray_zero]

end Sys2Proof.Machine
end

section
/-! PROOFS. What the record of resets shows after an edge (R201, R202; notes/assumptions/6.md). -/

namespace Sys2Proof.Machine

/-- An edge that shows no overlap passes on what is known. -/
theorem ResetLog.next_meeting_of_ne {l : ResetLog} {n : Nat} {r w : Option Bool}
    (h : (l.next n r w).meeting ≠ .overlapped) : (l.next n r w).meeting = l.meeting.pass r w := by
  simp only [ResetLog.next] at h ⊢
  split at h
  · exact absurd rfl h
  · rename_i hc
    rw [if_neg hc]

theorem Meeting.pass_wrstSince {m : Meeting} {r w : Option Bool} (h : m.pass r w = .wrstSince) :
    r = none ∧ (w = some true ∨ (w ≠ some true ∧ m = .wrstSince)) := by
  unfold Meeting.pass at h
  split at h
  · cases h
  · split_ifs at h
  · exact ⟨rfl, .inl rfl⟩
  · split_ifs at h with hm
    exact ⟨rfl, .inr ⟨nofun, hm⟩⟩
  · cases h
  · exact ⟨rfl, .inr ⟨nofun, h⟩⟩

theorem Meeting.pass_rstSince {m : Meeting} {r w : Option Bool} (h : m.pass r w = .rstSince) :
    w = none ∧ (r = some true ∨ (r ≠ some true ∧ m = .rstSince)) := by
  unfold Meeting.pass at h
  split at h
  · exact ⟨rfl, .inl rfl⟩
  · split_ifs at h with hm
    exact ⟨rfl, .inr ⟨nofun, hm⟩⟩
  · cases h
  · split_ifs at h
  · cases h
  · exact ⟨rfl, .inr ⟨nofun, h⟩⟩

/-- An edge that shows an overlap has both resets at 1, or goes on with a reset within which the other was seen. -/
theorem ResetLog.meets_cases {l : ResetLog} {r w : Option Bool} (h : l.meets r w = true) :
    (r = some true ∧ w = some true) ∨
    (r = some true ∧ w ≠ some true ∧ l.rstHeld = true ∧ l.meeting = .wrstSince) ∨
    (w = some true ∧ r ≠ some true ∧ l.wrstHeld = true ∧ l.meeting = .rstSince) := by
  simp only [ResetLog.meets, Bool.or_eq_true, Bool.and_eq_true, beq_iff_eq] at h
  rcases h with (hboth | ⟨⟨hr, hheld⟩, hm⟩) | ⟨⟨hw, hheld⟩, hm⟩
  · exact .inl hboth
  · by_cases hw : w = some true
    · exact .inl ⟨hr, hw⟩
    · exact .inr (.inl ⟨hr, hw, hheld, hm⟩)
  · by_cases hr : r = some true
    · exact .inl ⟨hr, hw⟩
    · exact .inr (.inr ⟨hw, hr, hheld, hm⟩)

/-- The intervals overlap after an edge, or will be seen to, only if both sides are reset at it, or they would have been
before and neither begins anew, or one side is reset alone while the other is in its interval. -/
theorem ResetLog.next_joined_cases {l : ResetLog} {n : Nat} {r w : Option Bool} (h : (l.next n r w).joined) :
    (r = some true ∧ w = some true) ∨
    (l.joined ∧ (r = some true → l.rstHeld = true) ∧ (w = some true → l.wrstHeld = true)) ∨
    (r = some true ∧ w = none ∧ l.wrstHeld = true) ∨ (w = some true ∧ r = none ∧ l.rstHeld = true) := by
  rcases h with hover | ⟨hsince, hheld⟩ | ⟨hsince, hheld⟩
  · rcases ResetLog.next_overlapped_cases hover with hmeets | ⟨hover, hbegins⟩
    · rcases ResetLog.meets_cases hmeets with hboth | ⟨_, hw, hheld, hm⟩ | ⟨_, hr, hheld, hm⟩
      · exact .inl hboth
      · exact .inr (.inl ⟨.inr (.inl ⟨hm, hheld⟩), fun _ => hheld, fun hw' => absurd hw' hw⟩)
      · exact .inr (.inl ⟨.inr (.inr ⟨hm, hheld⟩), fun hr' => absurd hr' hr, fun _ => hheld⟩)
    · have hgoesOn : (r = some true → l.rstHeld = true) ∧ (w = some true → l.wrstHeld = true) := by
        simpa [ResetLog.begins] using hbegins
      exact .inr (.inl ⟨.inl hover, hgoesOn⟩)
  · rw [ResetLog.next_meeting_of_ne (by rw [hsince]; decide)] at hsince
    obtain ⟨rfl, hw | ⟨hw, hm⟩⟩ := Meeting.pass_wrstSince hsince
    · exact .inr (.inr (.inr ⟨hw, rfl, hheld⟩))
    · exact .inr (.inl ⟨.inr (.inl ⟨hm, hheld⟩), (nomatch ·), fun hw' => absurd hw' hw⟩)
  · rw [ResetLog.next_meeting_of_ne (by rw [hsince]; decide)] at hsince
    obtain ⟨rfl, hr | ⟨hr, hm⟩⟩ := Meeting.pass_rstSince hsince
    · exact .inr (.inr (.inl ⟨hr, rfl, hheld⟩))
    · exact .inr (.inl ⟨.inr (.inr ⟨hm, hheld⟩), fun hr' => absurd hr' hr, (nomatch ·)⟩)

theorem ResetLog.joined_of_joint {l : ResetLog} {n : Nat} (h : l.joint n = true) : l.joined := by
  simp only [ResetLog.joint, Bool.and_eq_true, beq_iff_eq] at h
  obtain ⟨⟨hover, _⟩, _⟩ := h
  exact .inl hover

/-- An edge that does not break the FIFO: both sides are reset, or the read side is reset alone only if its interval
goes on or `wptr` is zero, and the write side only if every pointer is zero after it. -/
theorem breaksAgreement_false_cases {e : Edge} {s t : State} (h : breaksAgreement e s t = false) :
    (e.rstLevel = some true ∧ e.wrstLevel = some true) ∨
    ((e.rstLevel = some true → s.resets.rstHeld = true ∨ s.wr.wptr = 0) ∧
      (e.wrstLevel = some true → pointersZero t = true)) := by
  unfold breaksAgreement at h
  split_ifs at h with hboth hr hw
  · exact .inl hboth
  · have hkept : s.resets.rstHeld = true ∨ s.wr.wptr = 0 := by
      rw [Bool.and_eq_false_iff] at h
      simpa using h
    exact .inr ⟨fun _ => hkept, fun hw => absurd ⟨hr, hw⟩ hboth⟩
  · rw [Bool.or_eq_false_iff] at h
    obtain ⟨_, hzero⟩ := h
    exact .inr ⟨fun hr' => absurd hr' hr, fun _ => by simpa using hzero⟩
  · exact .inr ⟨fun hr' => absurd hr' hr, fun hw' => absurd hw' hw⟩

/-- Where the FIFO counts as in agreement after an edge, or its resets will be seen to overlap: both sides are reset,
or it was so before and neither side alone begins a reset that would break it, or one side is reset while the other is
in its interval. -/
theorem noteEdge_agrees_cases {s t : State} {e : Edge} (hfifo : s.cfg.cdcMode = .asyncFifo)
    (h : (s.noteEdge e t).agree = true ∨ (s.noteEdge e t).resets.joined) :
    (e.rstLevel = some true ∧ e.wrstLevel = some true) ∨
    ((s.agree = true ∨ s.resets.joined) ∧ (e.rstLevel = some true → s.resets.rstHeld = true ∨ s.wr.wptr = 0) ∧
      (e.wrstLevel = some true → s.resets.wrstHeld = true ∨ pointersZero t = true)) ∨
    (e.rstLevel = some true ∧ e.wrstLevel = none ∧ s.resets.wrstHeld = true) ∨
    (e.wrstLevel = some true ∧ e.rstLevel = none ∧ s.resets.rstHeld = true) := by
  have hkept : (s.noteEdge e t).resets.joined ∨ (s.agree = true ∧ breaksAgreement e s t = false) := by
    rcases h with hagree | hjoined
    · exact (State.noteEdge_agree_cases hfifo hagree).imp_left ResetLog.joined_of_joint
    · exact .inl hjoined
  rcases hkept with hjoined | ⟨hagree, hbreaks⟩
  · have hlog : (s.noteEdge e t).resets = s.resets.next (s.cfg.syncStages + 1) e.rstLevel e.wrstLevel := by
      simp only [State.noteEdge, hfifo]
    rw [hlog] at hjoined
    rcases ResetLog.next_joined_cases hjoined with hboth | ⟨hbefore, hr, hw⟩ | hread | hwrite
    · exact .inl hboth
    · exact .inr (.inl ⟨.inr hbefore, fun h => .inl (hr h), fun h => .inl (hw h)⟩)
    · exact .inr (.inr (.inl hread))
    · exact .inr (.inr (.inr hwrite))
  · rcases breaksAgreement_false_cases hbreaks with hboth | ⟨hr, hw⟩
    · exact .inl hboth
    · exact .inr (.inl ⟨.inl hagree, hr, fun h => .inr (hw h)⟩)

end Sys2Proof.Machine
end

section
/-! PROOFS. A reset of one side that leaves the FIFO in agreement: of the read side while its interval goes on or
`wptr` is zero, of the write side while every pointer is zero (R201, R202). -/

namespace Sys2Proof.Machine

/-- A side in its reset interval holds its reset values. -/
theorem readSide_eq_reset {s : State} (h : RegsShape s) (hzero : ReadZero s) :
    s.rd = ReadSide.reset s.cfg.syncStages := by
  obtain ⟨hrptr, hwq⟩ := hzero
  have hrptrG : s.rd.rptrG = 0 := by rw [h.rptrG, hrptr, gray_zero]
  have hstages : s.rd.wq = List.replicate s.cfg.syncStages 0 := List.eq_replicate_iff.mpr ⟨h.wqStages, hwq⟩
  calc s.rd = ⟨s.rd.rptr, s.rd.rptrG, s.rd.wq⟩ := rfl
    _ = ReadSide.reset s.cfg.syncStages := by rw [hrptr, hrptrG, hstages]; rfl

theorem RegsShape.syncStages_ne_zero {s : State} (h : RegsShape s) : s.cfg.syncStages ≠ 0 := by
  have ⟨_, hstages⟩ : 2 ≤ s.cfg.fifoAw ∧ 2 ≤ s.cfg.syncStages := by simpa [Config.wf] using h.cfg
  omega

/-- RESET keeps counts of a read side that is in its reset interval already, or of a write side at zero: all that was
pushed then counts as popped. -/
theorem Counts.Of.reset {c : Counts} {s t : State} {v : Bool} {d : Byte} (h : c.Of s)
    (hfifo : s.cfg.cdcMode = .asyncFifo) (hstages : s.cfg.syncStages ≠ 0)
    (hquiet : s.rd = ReadSide.reset s.cfg.syncStages ∨ s.wr.wptr = 0) (hexec : Machine.exec (.reset v d) s = .next t) :
    ∃ c' : Counts, c'.Of t ∧ c'.pushed = c.pushed ∧ c'.rq = c.rq := by
  have ht : t = { s with core := Core.reset, out := Outputs.reset, rd := ReadSide.reset s.cfg.syncStages } := by
    simp only [Machine.exec, execReset, hfifo] at hexec
    cases hexec
    rfl
  rcases hquiet with hrd | hwptr
  · exact ⟨c, h.congr (by rw [ht]) (by rw [ht]) (by rw [ht]) (by rw [ht, hrd]), rfl, rfl⟩
  have hpushed : c.pushed % s.cfg.ptrMod = 0 := by rw [← h.wptr, hwptr]
  have hne : List.replicate s.cfg.syncStages c.pushed ≠ [] := by simpa using hstages
  have hlast : lastStage (List.replicate s.cfg.syncStages c.pushed) = c.pushed :=
    List.eq_of_mem_replicate (lastStage_mem hne)
  refine ⟨{ c with popped := c.pushed, wq := List.replicate s.cfg.syncStages c.pushed }, ?_, rfl, rfl⟩
  rw [ht]
  exact { h with
    rptr := hpushed.symm
    rptrG := gray_zero.symm
    wq := by simp [ReadSide.reset, bin_zero, hpushed]
    rq_trails := h.rq_trails.mono h.popped_le_pushed
    popped_le := hlast.ge
    wq_trails := ⟨hne, by simp [List.pairwise_replicate]⟩
    written := fun k hk hlt => absurd hlt (Nat.not_lt.mpr hk) }

/-- What the counts allow an operation of the write side depends on `pushed` and the write side's chain only. -/
theorem Counts.allows_congr {c c' : Counts} {s s' : State} {i : Instr} (hi : writeUnit ≤ i.unit) (h : c.Allows s i)
    (hpushed : c'.pushed = c.pushed) (hrq : c'.rq = c.rq) (hcfg : s'.cfg = s.cfg) : c'.Allows s' i := by
  cases i with
  | wpush d =>
    change c'.pushed < lastStage c'.rq + s'.cfg.depth
    rw [hpushed, hrq, hcfg]
    exact h
  | wdrop | wsync => trivial
  | wreset => exact h
  | _ => exact absurd hi (by simp [Instr.unit, writeUnit, coreUnit, popUnit, readSyncUnit])

/-- At an edge with `rst = 1` RESET runs among the write side's operations, with nothing but its synchronizer in
front. -/
theorem fetch_of_rst {s : State} {e : Edge} {k : ClkIn} {is : List Instr} (hk : e.clkPart = some k)
    (hr : k.rst = true) (hf : fetch s e = .next is) :
    ∃ as v d bs, is = as ++ .reset v d :: bs ∧ (∀ i ∈ as, ∃ v f d, i = .wsync v f d) ∧
      (e.wclkPart = none ∧ as ++ bs = [] ∨
        ∃ w, e.wclkPart = some w ∧ (as ++ bs).Perm (writeOps s w ++ writeSyncOps s w)) := by
  have hreset {p : ClkIn} (hp : readPort s k = .next p) :
      coreOps s p = [.reset p.inValid p.inData] ∧ readSyncOps s p = [] := by
    obtain ⟨hpr, _⟩ := readPort_next_cases hp
    simp [coreOps, readSyncOps, opOf_coreWord, opOf_pop, opOf_readSync, ClkIn.acc, hpr.trans hr]
  cases e with
  | wclk => cases hk
  | clk k' =>
    cases hk
    obtain ⟨p, hp, rfl⟩ := fetch_clk_next hf
    obtain ⟨hcore, hsync⟩ := hreset hp
    exact ⟨[], _, _, [], by rw [hcore, hsync]; rfl, nofun, .inl ⟨rfl, rfl⟩⟩
  | both k' w rNew wNew =>
    cases hk
    obtain ⟨hfifo, p, hp, rfl⟩ := fetch_both_next hf
    obtain ⟨hcore, hsync⟩ := hreset hp
    rw [hcore, hsync, placeSync_eq, placeSync_eq]
    refine ⟨if wNew then [] else writeSyncOps s w, p.inValid, p.inData,
      writeOps s w ++ if wNew then writeSyncOps s w else [], by simp, fun i hi => ?_, .inr ⟨w, rfl, ?_⟩⟩
    · rw [writeSyncOps_eq hfifo] at hi
      split_ifs at hi <;> simp_all
    · cases wNew
      · simpa using List.perm_append_comm
      · simp

/-- An edge that resets the read side, and not the write side, keeps counts if the read side is in its reset interval
already or `wptr` is zero. -/
theorem Counts.Of.edge_of_rst {c : Counts} {s u : State} {e : Edge} {k : ClkIn} {is : List Instr} (h : c.Of s)
    (hregs : RegsShape s) (hfifo : s.cfg.cdcMode = .asyncFifo) (hk : e.clkPart = some k) (hr : k.rst = true)
    (hwrst : ∀ w, e.wclkPart = some w → w.wrst = false) (hquiet : ReadZero s ∨ s.wr.wptr = 0)
    (hf : fetch s e = .next is) (hrun : Machine.execAll is s = .next u) : ∃ c' : Counts, c'.Of u := by
  obtain ⟨as, v, d, bs, rfl, hsync, hwrite⟩ := fetch_of_rst hk hr hf
  obtain ⟨t, ht, hrun⟩ := execAll_append_next hrun
  obtain ⟨t', ht', hrun⟩ := execAll_cons_next_iff.mp hrun
  obtain ⟨hallows, habove, hunits⟩ : (∀ i ∈ as ++ bs, c.Allows s i) ∧ (∀ i ∈ as ++ bs, writeUnit ≤ i.unit) ∧
      (as ++ bs).Pairwise fun i j => i.unit ≠ j.unit := by
    obtain ⟨_, hnil⟩ | ⟨w, hw, hperm⟩ := hwrite
    · simp [hnil]
    · have hallows := h.allows_wclkOps hfifo (hwrst w hw)
      obtain ⟨hunits, habove⟩ := wclkOps_units hfifo (hwrst w hw)
      exact ⟨fun i hi => hallows i (hperm.mem_iff.mp hi), fun i hi => habove i (hperm.mem_iff.mp hi),
        (hperm.pairwise_iff Ne.symm).mpr hunits⟩
  obtain ⟨hof, hallowed⟩ := h.execAll_after hallows hunits ht
  have hkeeps : (t.rd, t.wr.wptr) = (s.rd, s.wr.wptr) :=
    execAll_keeps (fun s => (s.rd, s.wr.wptr)) (fun i hi s t hexec => by
      obtain ⟨v, f, d, rfl⟩ := hsync i hi
      cases hexec; rfl) ht
  obtain ⟨hrd, hwptr⟩ := Prod.mk.inj hkeeps
  have hcfg := execAll_keeps_cfg ht
  have hquiet : t.rd = ReadSide.reset t.cfg.syncStages ∨ t.wr.wptr = 0 := by
    rw [hrd, hwptr, hcfg]
    exact hquiet.imp_left (readSide_eq_reset hregs)
  obtain ⟨c', hof', hpushed, hrq⟩ := hof.reset (hcfg ▸ hfifo) (hcfg ▸ hregs.syncStages_ne_zero) hquiet ht'
  obtain ⟨_, hcfg', _⟩ := exec_keeps_nonRegisters ht'
  have hlater (j : Instr) (hj : j ∈ bs) : c'.Allows t' j :=
    Counts.allows_congr (habove j (List.mem_append_right _ hj)) (hallowed j hj) hpushed hrq hcfg'
  obtain ⟨_, hunits, _⟩ := List.pairwise_append.mp hunits
  obtain ⟨hcounts, _⟩ := hof'.execAll hlater hunits hrun
  exact hcounts

-- ---------------------------------------------------------------- the write side reset while all pointers are zero

theorem pointersZero_iff (s : State) :
    pointersZero s = true ↔ ReadZero s ∧ WriteZero s ∧ s.rd.rptrG = 0 ∧ s.wr.wptrG = 0 := by
  simp only [pointersZero, allZero, ReadZero, WriteZero, Bool.and_eq_true, beq_iff_eq, List.all_eq_true]
  tauto

theorem pointersZero_of_zero {s : State} (h : RegsShape s) (hread : ReadZero s) (hwrite : WriteZero s) :
    pointersZero s = true := by
  have hrptrG : s.rd.rptrG = 0 := by rw [h.rptrG, hread.1, gray_zero]
  have hwptrG : s.wr.wptrG = 0 := by rw [h.wptrG, hwrite.1, gray_zero]
  exact (pointersZero_iff s).mpr ⟨hread, hwrite, hrptrG, hwptrG⟩

/-- Only a pop or a push moves a pointer away from zero. -/
theorem exec_keeps_pointersZero {i : Instr} {s t : State} (hpop : ∀ d, i ≠ .rpop d) (hpush : ∀ d, i ≠ .wpush d)
    (h : pointersZero s = true) (hexec : exec i s = .next t) : pointersZero t = true := by
  rw [pointersZero_iff] at h ⊢
  have ⟨⟨hrptr, hwq⟩, ⟨hwptr, hrq⟩, hrptrG, hwptrG⟩ := h
  have hcoreOnly (hi : CoreOnly i) : ReadZero t ∧ WriteZero t ∧ t.rd.rptrG = 0 ∧ t.wr.wptrG = 0 := by
    rw [exec_coreOnly_frame hi hexec]
    exact h
  cases i with
  | rpop d => exact absurd rfl (hpop d)
  | wpush d => exact absurd rfl (hpush d)
  | rsync v d =>
    cases hexec
    exact ⟨⟨hrptr, fun g hg => (mem_shiftIn hg).elim (·.trans hwptrG) (hwq g)⟩, ⟨hwptr, hrq⟩, hrptrG, hwptrG⟩
  | wsync v f d =>
    cases hexec
    exact ⟨⟨hrptr, hwq⟩, ⟨hwptr, fun g hg => (mem_shiftIn hg).elim (·.trans hrptrG) (hrq g)⟩, hrptrG, hwptrG⟩
  | wdrop d => cases hexec; exact h
  | wreset v f d => cases hexec; exact ⟨⟨hrptr, hwq⟩, ⟨rfl, WriteSide.reset_rq_zero _⟩, hrptrG, rfl⟩
  | reset v d =>
    cases hexec
    cases s.cfg.cdcMode
    · exact h
    · exact ⟨⟨rfl, ReadSide.reset_wq_zero _⟩, ⟨hwptr, hrq⟩, rfl, hwptrG⟩
  | idle d => exact hcoreOnly (coreOnly_idle d)
  | _ => exact hcoreOnly (.inl rfl)

/-- At zero the read side sees nothing to pop. -/
theorem wview_of_readZero {s : State} (h : ReadZero s) : wview s = s.rd.rptr := by
  obtain ⟨hrptr, hwq⟩ := h
  rw [hrptr, wview, lastStage_of_zero hwq, bin_zero]

/-- An edge that resets the write side, and not the read side, leaves all pointers at zero if they were. -/
theorem edge_of_wrst_keeps_pointersZero {s u : State} {e : Edge} {w : WclkIn} {is : List Instr}
    (h : pointersZero s = true) (hw : e.wclkPart = some w) (hr : w.wrst = true)
    (hrst : ∀ k, e.clkPart = some k → k.rst = false) (hf : fetch s e = .next is) (hrun : execAll is s = .next u) :
    pointersZero u = true := by
  have hfifo := fifo_of_wclkPart hw hf
  obtain ⟨hread, _⟩ := (pointersZero_iff s).mp h
  have hops : ∀ i ∈ is, (∀ d, i ≠ .rpop d) ∧ ∀ d, i ≠ .wpush d := by
    intro i hi
    obtain ⟨k, p, hk, hp, hmem, _⟩ | ⟨w', hw', hmem, _⟩ := fetch_mem_cases hf hi
    · obtain ⟨hpr, ⟨hnone, _⟩ | ⟨_, rfl, _⟩⟩ := readPort_next_cases hp
      · rw [hfifo] at hnone; cases hnone
      obtain ⟨j, hj, hops⟩ := clkOps_eq hfifo (hpr.trans (hrst k hk))
      have hacc : (fifoPort s k).acc = false := by simp [ClkIn.acc, notEmpty, wview_of_readZero hread]
      rw [hops, acceptedBytes_singleton, hacc] at hmem
      rcases List.mem_pair.mp hmem with rfl | rfl
      · have hunit := hj.unit_eq
        constructor <;> rintro d rfl <;> simp [popUnit, writeUnit, coreUnit] at hunit
      · exact ⟨nofun, nofun⟩
    · cases hw.symm.trans hw'
      rw [wclkOps_of_wrst hfifo hr, List.mem_singleton] at hmem
      subst hmem
      exact ⟨nofun, nofun⟩
  exact execAll_preserves (P := fun s => pointersZero s = true)
    (fun i hi _ _ => exec_keeps_pointersZero (hops i hi).1 (hops i hi).2) h hrun

end Sys2Proof.Machine
end

section
/-! PROOFS. Every step keeps the FIFO's invariant: the shape of the registers edge by edge, and agreement by the
resets of the edge (R150, R157, R163, R201, R202). -/

namespace Sys2Proof.Machine

theorem rstLevel_eq_some_true {e : Edge} (h : e.rstLevel = some true) : ∃ c, e.clkPart = some c ∧ c.rst = true :=
  Option.map_eq_some_iff.mp h

theorem wrstLevel_eq_some_true {e : Edge} (h : e.wrstLevel = some true) : ∃ w, e.wclkPart = some w ∧ w.wrst = true :=
  Option.map_eq_some_iff.mp h

theorem rst_of_rstLevel {e : Edge} (h : e.rstLevel ≠ some true) (c : ClkIn) (hc : e.clkPart = some c) :
    c.rst = false := by
  cases hr : c.rst with
  | false => rfl
  | true => exact absurd (by rw [Edge.rstLevel, hc, Option.map_some, hr]) h

theorem wrst_of_wrstLevel {e : Edge} (h : e.wrstLevel ≠ some true) (w : WclkIn) (hw : e.wclkPart = some w) :
    w.wrst = false := by
  cases hr : w.wrst with
  | false => rfl
  | true => exact absurd (by rw [Edge.wrstLevel, hw, Option.map_some, hr]) h

theorem noReset_of_levels {e : Edge} (hr : e.rstLevel ≠ some true) (hw : e.wrstLevel ≠ some true) :
    e.noReset = true := by
  cases e with
  | clk c => simp [Edge.noReset, rst_of_rstLevel hr c rfl]
  | wclk w => simp [Edge.noReset, wrst_of_wrstLevel hw w rfl]
  | both c w rNew wNew => simp [Edge.noReset, rst_of_rstLevel hr c rfl, wrst_of_wrstLevel hw w rfl]

/-- What an edge without reset leaves of the counts. -/
theorem Counts.Of.edge {c : Counts} {s u : State} {e : Edge} {is : List Instr} (h : c.Of s)
    (hfifo : s.cfg.cdcMode = .asyncFifo) (hnoReset : e.noReset = true) (hf : fetch s e = .next is)
    (hrun : Machine.execAll is s = .next u) : (is.foldl Counts.after c).Of u := by
  obtain ⟨hallows, hunits⟩ := h.allows_edge hfifo hnoReset hf
  obtain ⟨hof, _⟩ := h.execAll_after (js := []) (by simpa using hallows) (by simpa using hunits) hrun
  exact hof

section
variable {s u : State} {e : Edge} {is : List Instr} (hf : fetch s e = .next is) (hrun : execAll is s = .next u)
include hf hrun

/-- A side that is reset is at zero after the edge. -/
theorem edge_readZero_of_rst (hfifo : s.cfg.cdcMode = .asyncFifo) (h : e.rstLevel = some true) : ReadZero u := by
  obtain ⟨c, hc, hr⟩ := rstLevel_eq_some_true h
  rw [ReadZero, edge_resets_readSide hf hrun hc hr hfifo]
  exact ⟨rfl, ReadSide.reset_wq_zero _⟩

theorem edge_writeZero_of_wrst (h : e.wrstLevel = some true) : WriteZero u := by
  obtain ⟨w, hw, hr⟩ := wrstLevel_eq_some_true h
  rw [WriteZero, (edge_resets_writeSide hf hrun hw hr).1]
  exact ⟨rfl, WriteSide.reset_rq_zero _⟩

theorem edge_keeps_readZero (h : e.rstLevel = none) (hzero : ReadZero s) : ReadZero u := by
  rw [ReadZero, edge_keeps_readSide hf hrun (Option.map_eq_none_iff.mp h)]
  exact hzero

theorem edge_keeps_writeZero (h : e.wrstLevel = none) (hzero : WriteZero s) : WriteZero u := by
  rw [WriteZero, (edge_keeps_writeSide hf hrun (Option.map_eq_none_iff.mp h)).1]
  exact hzero

variable (hfifo : s.cfg.cdcMode = .asyncFifo)
include hfifo

/-- Every edge keeps the shape of the registers, and a side whose last edge was a reset is at zero. -/
theorem edge_keeps_fifoShape (h : FifoShape s) : FifoShape (s.noteEdge e u) := by
  obtain ⟨hregs, hrst, hwrst⟩ := (fifoShape_iff s).mp h
  have hregs' : RegsShape u := execAll_preserves (fun _ _ _ _ => exec_keeps_regsShape) hregs hrun
  have hlog : (s.noteEdge e u).resets = s.resets.next (s.cfg.syncStages + 1) e.rstLevel e.wrstLevel := by
    simp only [State.noteEdge, hfifo]
  refine (fifoShape_iff _).mpr ⟨hregs'.congr (State.noteEdge_cfg ..) (State.noteEdge_mem ..) (State.noteEdge_wr ..)
    (State.noteEdge_rd ..), fun hheld => ?_, fun hheld => ?_⟩
  · rw [ReadZero, State.noteEdge_rd]
    rw [hlog, ResetLog.next_rstHeld] at hheld
    cases hr : e.rstLevel with
    | none => exact edge_keeps_readZero hf hrun hr (hrst (by rwa [hr] at hheld))
    | some r =>
      rw [hr] at hheld
      cases hheld
      exact edge_readZero_of_rst hf hrun hfifo hr
  · rw [WriteZero, State.noteEdge_wr]
    rw [hlog, ResetLog.next_wrstHeld] at hheld
    cases hw : e.wrstLevel with
    | none => exact edge_keeps_writeZero hf hrun hw (hwrst (by rwa [hw] at hheld))
    | some r =>
      rw [hw] at hheld
      cases hheld
      exact edge_writeZero_of_wrst hf hrun hw

/-- A FIFO that counts as in agreement after an edge, or whose resets will be seen to overlap, is in agreement. -/
theorem edge_keeps_agreement (h : FifoInv s)
    (hagree : (s.noteEdge e u).agree = true ∨ (s.noteEdge e u).resets.joined) : FifoAgrees u := by
  obtain ⟨hshape, hagrees⟩ := h
  obtain ⟨hregs, hrst, hwrst⟩ := (fifoShape_iff s).mp hshape
  rcases noteEdge_agrees_cases hfifo hagree with ⟨hr, hw⟩ | ⟨hbefore, hr, hw⟩ | ⟨hr, hw, hheld⟩ | ⟨hw, hr, hheld⟩
  · exact fifoAgrees_of_zero (edge_readZero_of_rst hf hrun hfifo hr) (edge_writeZero_of_wrst hf hrun hw)
  · have hof := counts_ofState hshape (hagrees hbefore)
    by_cases hrt : e.rstLevel = some true
    · by_cases hwt : e.wrstLevel = some true
      · exact fifoAgrees_of_zero (edge_readZero_of_rst hf hrun hfifo hrt) (edge_writeZero_of_wrst hf hrun hwt)
      · obtain ⟨k, hk, hkr⟩ := rstLevel_eq_some_true hrt
        obtain ⟨c', hof'⟩ := hof.edge_of_rst hregs hfifo hk hkr (wrst_of_wrstLevel hwt) ((hr hrt).imp_left hrst) hf hrun
        exact hof'.fifoAgrees
    · by_cases hwt : e.wrstLevel = some true
      · have hzero : pointersZero u = true := by
          refine (hw hwt).elim (fun hheld => ?_) id
          obtain ⟨w, hw, hwr⟩ := wrstLevel_eq_some_true hwt
          have hwrite := hwrst hheld
          exact edge_of_wrst_keeps_pointersZero
            (pointersZero_of_zero hregs (hof.readZero_of_writeZero hregs hwrite) hwrite) hw hwr (rst_of_rstLevel hrt) hf
            hrun
        obtain ⟨hread, hwrite, _⟩ := (pointersZero_iff u).mp hzero
        exact fifoAgrees_of_zero hread hwrite
      · exact (hof.edge hfifo (noReset_of_levels hrt hwt) hf hrun).fifoAgrees
  · exact fifoAgrees_of_zero (edge_readZero_of_rst hf hrun hfifo hr) (edge_keeps_writeZero hf hrun hw (hwrst hheld))
  · exact fifoAgrees_of_zero (edge_keeps_readZero hf hrun hr (hrst hheld)) (edge_writeZero_of_wrst hf hrun hw)

theorem edge_keeps_fifoInv (h : FifoInv s) : FifoInv (s.noteEdge e u) := by
  have ⟨hshape, _⟩ := h
  refine ⟨edge_keeps_fifoShape hf hrun hfifo hshape, fun hagree => ?_⟩
  have hagrees := edge_keeps_agreement hf hrun hfifo h hagree
  rw [s.noteEdge_frame e u]
  exact hagrees

end

/-- Settles O49: without the FIFO its registers hold; with it every edge keeps their shape, and the agreement of the
pointers through every reset that leaves or restores it. -/
theorem stepKeepsFifoInvariant : Obligations.StepKeepsFifoInvariant := by
  intro s t hinv h
  cases hm : s.cfg.cdcMode with
  | none =>
    rw [step_without_fifo_frame hm h]
    exact hinv
  | asyncFifo =>
    rcases step_next_cases h with ⟨_, rfl⟩ | ⟨e, rest, is, u, _, hf, hrun, rfl⟩
    · exact hinv
    · exact edge_keeps_fifoInv (s := { s with inputs := rest }) hf hrun hm hinv

end Sys2Proof.Machine
end

section
/-! PROOFS. How an edge without reset moves the counts: a pop or a push by one, a chain by one stage (R152 to R155,
R160). -/

namespace Sys2Proof.Machine

namespace Counts

theorem foldl_after_popped (c : Counts) (is : List Instr) :
    (is.foldl Counts.after c).popped = c.popped + (is.filterMap poppedByte).length := by
  induction is generalizing c with
  | nil => rfl
  | cons i is ih =>
    rw [List.foldl_cons, ih, filterMap_cons_toList, List.length_append, ← Nat.add_assoc]
    congr 1
    cases i <;> rfl

theorem foldl_after_pushed (c : Counts) (is : List Instr) :
    (is.foldl Counts.after c).pushed = c.pushed + (is.filterMap pushedByte).length := by
  induction is generalizing c with
  | nil => rfl
  | cons i is ih =>
    rw [List.foldl_cons, ih, filterMap_cons_toList, List.length_append, ← Nat.add_assoc]
    congr 1
    cases i <;> rfl

/-- A part of the counts that one unit writes is kept by the operations of the others. -/
theorem foldl_after_keeps {α : Type} {f : Counts → α} {u : BitVec 3}
    (hf : ∀ c i, i.unit ≠ u → f (c.after i) = f c) (c : Counts) {is : List Instr} (his : ∀ i ∈ is, i.unit ≠ u) :
    f (is.foldl Counts.after c) = f c := by
  induction is generalizing c with
  | nil => rfl
  | cons i is ih =>
    obtain ⟨hi, his⟩ := List.forall_mem_cons.mp his
    exact (ih _ his).trans (hf c i hi)

/-- Among operations of different units one shift of a chain samples the count it follows as it was before them all or
as it is after them (R154, R155, R165). -/
theorem foldl_after_shift {q : Counts → List Nat} {n : Counts → Nat} {sync mover : BitVec 3}
    (hsync : ∀ c i, i.unit = sync → q (c.after i) = shiftIn (n c) (q c))
    (hq : ∀ c i, i.unit ≠ sync → q (c.after i) = q c) (hn : ∀ c i, i.unit ≠ mover → n (c.after i) = n c)
    (c : Counts) {is : List Instr} (hunits : is.Pairwise fun i j => i.unit ≠ j.unit)
    (hmem : ∃ i ∈ is, i.unit = sync) :
    ∃ x, (x = n c ∨ x = n (is.foldl Counts.after c)) ∧ q (is.foldl Counts.after c) = shiftIn x (q c) := by
  induction is generalizing c with
  | nil => obtain ⟨_, hi, _⟩ := hmem; cases hi
  | cons i is ih =>
    obtain ⟨hunit, hunits⟩ := List.pairwise_cons.mp hunits
    rw [List.foldl_cons]
    by_cases hi : i.unit = sync
    · refine ⟨n c, .inl rfl, ?_⟩
      rw [foldl_after_keeps hq _ fun j hj => hi ▸ (hunit j hj).symm, hsync c i hi]
    · have hmem : ∃ j ∈ is, j.unit = sync := by
        obtain ⟨j, hj, hjs⟩ := hmem
        rcases List.mem_cons.mp hj with rfl | hj
        · exact absurd hjs hi
        · exact ⟨j, hj, hjs⟩
      obtain ⟨x, hx, hshift⟩ := ih (c.after i) hunits hmem
      rw [hq c i hi] at hshift
      refine ⟨x, ?_, hshift⟩
      by_cases hm : i.unit = mover
      · have hlate := foldl_after_keeps hn (c.after i) fun j hj => hm ▸ (hunit j hj).symm
        rw [hlate, or_self] at hx
        exact .inr (hx.trans hlate.symm)
      · rwa [hn c i hm] at hx

theorem after_wq_of_readSync (c : Counts) (i : Instr) (h : i.unit = readSyncUnit) :
    (c.after i).wq = shiftIn c.pushed c.wq := by
  cases i with
  | rsync => rfl
  | _ => simp [Instr.unit, readSyncUnit, coreUnit, popUnit, writeUnit, writeSyncUnit] at h

theorem after_wq_of_ne (c : Counts) (i : Instr) (h : i.unit ≠ readSyncUnit) : (c.after i).wq = c.wq := by
  cases i with
  | rsync => exact absurd rfl h
  | _ => rfl

theorem after_rq_of_writeSync (c : Counts) (i : Instr) (h : i.unit = writeSyncUnit) :
    (c.after i).rq = shiftIn c.popped c.rq := by
  cases i with
  | wsync => rfl
  | _ => simp [Instr.unit, readSyncUnit, coreUnit, popUnit, writeUnit, writeSyncUnit] at h

theorem after_rq_of_ne (c : Counts) (i : Instr) (h : i.unit ≠ writeSyncUnit) : (c.after i).rq = c.rq := by
  cases i with
  | wsync => exact absurd rfl h
  | _ => rfl

theorem after_pushed_of_ne (c : Counts) (i : Instr) (h : i.unit ≠ writeUnit) : (c.after i).pushed = c.pushed := by
  cases i with
  | wpush => exact absurd rfl h
  | _ => rfl

theorem after_popped_of_ne (c : Counts) (i : Instr) (h : i.unit ≠ popUnit) : (c.after i).popped = c.popped := by
  cases i with
  | rpop => exact absurd rfl h
  | _ => rfl

/-- The counts `c'` follow `c` over the edge `e`: a pointer does not move back, and a chain whose clock rises shifts
in the pointer it follows as it was or as it becomes. -/
structure Follows (c : Counts) (e : Edge) (c' : Counts) : Prop where
  popped : c.popped ≤ c'.popped
  pushed : c.pushed ≤ c'.pushed
  wq_holds : e.clkPart = none → c'.wq = c.wq
  wq_shifts : e.clkPart ≠ none → ∃ x, (x = c.pushed ∨ x = c'.pushed) ∧ c'.wq = shiftIn x c.wq
  rq_holds : e.wclkPart = none → c'.rq = c.rq
  rq_shifts : e.wclkPart ≠ none → ∃ x, (x = c.popped ∨ x = c'.popped) ∧ c'.rq = shiftIn x c.rq

/-- The view of a chain that trails its pointer does not move back. -/
theorem lastStage_le_of_shift {q q' : List Nat} {n n' x : Nat} (h : Trails n q) (hn : n ≤ n')
    (hx : x = n ∨ x = n') (hq : q' = shiftIn x q) : lastStage q ≤ lastStage q' := by
  have hnx : n ≤ x := by rcases hx with rfl | rfl <;> omega
  rw [hq]
  exact (h.mono hnx).lastStage_le_shiftIn

end Counts

@[simp] theorem pushedByte_rpop (d : Byte) : pushedByte (.rpop d) = none := rfl
@[simp] theorem pushedByte_rsync (v : Bool) (d : Byte) : pushedByte (.rsync v d) = none := rfl

theorem clkOps_pushed {s : State} {p : ClkIn} (hfifo : s.cfg.cdcMode = .asyncFifo) (hr : p.rst = false) :
    (coreOps s p ++ readSyncOps s p).filterMap pushedByte = [] := by
  obtain ⟨i, hi, hops⟩ := clkOps_eq hfifo hr
  obtain ⟨hcore, _⟩ := hi.moves_no_byte
  rw [hops, acceptedBytes_singleton]
  cases p.acc <;> simp [hcore]

section
variable {s : State} {e : Edge} {is : List Instr} (hfifo : s.cfg.cdcMode = .asyncFifo) (hnoReset : e.noReset = true)
  (hf : fetch s e = .next is)
include hfifo hnoReset hf

theorem readSync_mem_fetch (hclk : e.clkPart ≠ none) : ∃ i ∈ is, i.unit = readSyncUnit := by
  obtain ⟨js, ks, hperm, hjs, _⟩ := fetch_perm hf
  obtain ⟨hnone, _⟩ | ⟨c, p, hc, hp, rfl⟩ := hjs
  · exact absurd hnone hclk
  obtain ⟨i, _, hops⟩ := clkOps_eq hfifo (rst_of_readPort hnoReset hc hp)
  exact ⟨.rsync p.inValid p.inData, hperm.mem_iff.mpr (List.mem_append_left _ (by simp [hops])), rfl⟩

theorem writeSync_mem_fetch (hwclk : e.wclkPart ≠ none) : ∃ i ∈ is, i.unit = writeSyncUnit := by
  obtain ⟨js, ks, hperm, _, hks⟩ := fetch_perm hf
  obtain ⟨hnone, _⟩ | ⟨w, hw, rfl⟩ := hks
  · exact absurd hnone hwclk
  have hops := wclkOps_eq hfifo (wrst_of_noReset hnoReset hw)
  exact ⟨.wsync w.wrValid (fullW s) w.wrData, hperm.mem_iff.mpr (List.mem_append_right _ (by simp [hops])), rfl⟩

/-- The counts after an edge without reset follow those before it. -/
theorem Counts.Of.follows {c : Counts} (h : c.Of s) : c.Follows e (is.foldl Counts.after c) := by
  obtain ⟨_, hunits⟩ := h.allows_edge hfifo hnoReset hf
  constructor
  case popped => rw [Counts.foldl_after_popped]; exact Nat.le_add_right ..
  case pushed => rw [Counts.foldl_after_pushed]; exact Nat.le_add_right ..
  case wq_holds =>
    refine fun hclk => Counts.foldl_after_keeps Counts.after_wq_of_ne c fun i hi => ?_
    obtain ⟨_, _, hc, _⟩ | ⟨_, _, _, hunit⟩ := fetch_mem_cases hf hi
    · rw [hclk] at hc; cases hc
    · exact fun heq => absurd (heq ▸ hunit) (by decide)
  case wq_shifts =>
    exact fun hclk => Counts.foldl_after_shift Counts.after_wq_of_readSync Counts.after_wq_of_ne
      Counts.after_pushed_of_ne c hunits (readSync_mem_fetch hfifo hnoReset hf hclk)
  case rq_holds =>
    refine fun hwclk => Counts.foldl_after_keeps Counts.after_rq_of_ne c fun i hi => ?_
    obtain ⟨_, _, _, _, _, hunit⟩ | ⟨_, hw, _⟩ := fetch_mem_cases hf hi
    · exact fun heq => absurd (heq ▸ hunit) (by decide)
    · rw [hwclk] at hw; cases hw
  case rq_shifts =>
    exact fun hwclk => Counts.foldl_after_shift Counts.after_rq_of_writeSync Counts.after_rq_of_ne
      Counts.after_popped_of_ne c hunits (writeSync_mem_fetch hfifo hnoReset hf hwclk)

/-- At an edge without reset nothing is popped, or one byte that the read side sees (R156, R160). -/
theorem fetch_pop_cases :
    is.filterMap poppedByte = [] ∨ ∃ b, is.filterMap poppedByte = [b] ∧ wview s ≠ s.rd.rptr := by
  obtain ⟨_, hnone⟩ | ⟨c, p, _, hp, haccepted⟩ := popped_eq_accepted hfifo hnoReset hf
  · exact .inl hnone
  rw [haccepted, acceptedBytes_singleton]
  obtain ⟨_, ⟨hmode, _⟩ | ⟨_, rfl, _⟩⟩ := readPort_next_cases hp
  · rw [hfifo] at hmode; cases hmode
  cases hacc : (fifoPort s c).acc with
  | false => exact .inl rfl
  | true =>
    obtain ⟨_, hview⟩ := (fifoPort_acc_iff s c).mp hacc
    exact .inr ⟨_, rfl, hview⟩

/-- At an edge without reset the write side takes no byte, drops one because it sees the FIFO full, or pushes one
because it sees room (R152, R153). -/
theorem fetch_push_cases :
    (is.filterMap pushedByte = [] ∧ ∀ d, .wdrop d ∉ is) ∨
    (∃ d, is.filterMap pushedByte = [] ∧ .wdrop d ∈ is ∧ fullW s = true) ∨
    (∃ d, is.filterMap pushedByte = [d] ∧ (∀ d, .wdrop d ∉ is) ∧ fullW s = false) := by
  obtain ⟨js, ks, hperm, hjs, hks⟩ := fetch_perm hf
  have hread : js.filterMap pushedByte = [] ∧ ∀ d, .wdrop d ∉ js := by
    obtain ⟨_, rfl⟩ | ⟨c, p, hc, hp, rfl⟩ := hjs
    · simp
    · refine ⟨clkOps_pushed hfifo (rst_of_readPort hnoReset hc hp), fun d hd => ?_⟩
      exact absurd (clkOps_unit_lt s p _ hd) (by simp)
  obtain ⟨hreadPush, hreadDrop⟩ := hread
  have hpush : (is.filterMap pushedByte).Perm (ks.filterMap pushedByte) := by
    have hall := hperm.filterMap pushedByte
    rwa [List.filterMap_append, hreadPush, List.nil_append] at hall
  have hdrop (d : Byte) : .wdrop d ∈ is ↔ .wdrop d ∈ ks := by
    rw [hperm.mem_iff, List.mem_append, or_iff_right (hreadDrop d)]
  simp only [hdrop]
  obtain ⟨_, rfl⟩ | ⟨w, hw, rfl⟩ := hks
  · exact .inl ⟨List.perm_nil.mp hpush, by simp⟩
  rw [wclkOps_eq hfifo (wrst_of_noReset hnoReset hw)] at hpush ⊢
  cases hv : w.wrValid with
  | false =>
    rw [hv] at hpush
    exact .inl ⟨List.perm_nil.mp hpush, by simp⟩
  | true =>
    rw [hv] at hpush
    cases hfull : fullW s with
    | true =>
      rw [hfull] at hpush
      exact .inr (.inl ⟨w.wrData, List.perm_nil.mp hpush, by simp, rfl⟩)
    | false =>
      rw [hfull] at hpush
      exact .inr (.inr ⟨w.wrData, List.perm_singleton.mp hpush, by simp, rfl⟩)

end

end Sys2Proof.Machine
end

section
/-! PROOFS. The abstract FIFO over counts that do not wrap (R164): the counts behind an abstract state, and the runs
that an edge's pushes, pops and shifts are. -/

namespace Sys2Proof.Machine

/-- The counts behind the pointers and the views of an abstract state. -/
structure AbsCounts where
  /-- Behind `rptr`. -/
  popped : Nat
  /-- Behind `wptr`. -/
  pushed : Nat
  /-- Behind `rv`. -/
  rv : Nat
  /-- Behind `wv`. -/
  wv : Nat

/-- The abstract state holds these counts, modulo `2^(A+1)`, and they are in the order of R163. -/
structure AbsCounts.Of (cfg : Config) (k : AbsCounts) (a : AbsFifo) : Prop where
  rptr : a.rptr = k.popped % cfg.ptrMod
  wptr : a.wptr = k.pushed % cfg.ptrMod
  rv : a.rv = k.rv % cfg.ptrMod
  wv : a.wv = k.wv % cfg.ptrMod
  rv_le : k.rv ≤ k.popped
  popped_le : k.popped ≤ k.wv
  wv_le : k.wv ≤ k.pushed
  room : k.pushed ≤ k.rv + cfg.depth

/-- The counts behind the abstract state that a machine state stands for. -/
def Counts.abs (c : Counts) : AbsCounts := ⟨c.popped, c.pushed, lastStage c.rq, lastStage c.wq⟩

theorem Counts.Of.abs {c : Counts} {s : State} (h : c.Of s) : c.abs.Of s.cfg (AbsFifo.ofState s) :=
  ⟨h.rptr, h.wptr, h.rview_eq, h.wview_eq, h.lastStage_rq_le, h.popped_le,
    h.wq_trails.lastStage_le List.mem_cons_self, h.room⟩

/-- A view that moves toward the pointer it follows stays within the distance to it. -/
theorem ptrDist_view_le {cfg : Config} {v v' p : Nat} (hv : v ≤ v') (hp : v' ≤ p) (hnear : p ≤ v + cfg.depth) :
    ptrDist cfg (v % cfg.ptrMod) (v' % cfg.ptrMod) ≤ ptrDist cfg (v % cfg.ptrMod) (p % cfg.ptrMod) := by
  have hdepth := depth_pos cfg
  have hmod := ptrMod_eq cfg
  rw [ptrDist_mod hv (by omega), ptrDist_mod (hv.trans hp) (by omega)]
  exact Nat.sub_le_sub_right hp v

section
variable {cfg : Config} {k : AbsCounts} {a : AbsFifo} (h : k.Of cfg a)
include h

/-- Views may move to any counts between their own and those they follow (R164 (c)). -/
theorem AbsCounts.Of.sync_step {r w : Nat} (hr : k.rv ≤ r) (hrp : r ≤ k.popped) (hw : k.wv ≤ w) (hwp : w ≤ k.pushed) :
    AbsStep cfg a [] { a with rv := r % cfg.ptrMod, wv := w % cfg.ptrMod } := by
  have hrv := h.rv_le
  have hpopped := h.popped_le
  have hwv := h.wv_le
  have hroom := h.room
  refine AbsStep.sync a _ _ (mod_ptrMod_lt ..) (mod_ptrMod_lt ..) ?_ ?_
  · rw [h.rv, h.rptr]
    exact ptrDist_view_le hr hrp (by omega)
  · rw [h.wv, h.wptr]
    exact ptrDist_view_le hw hwp (by omega)

theorem AbsCounts.Of.ptrDist_eq : ptrDist cfg a.rv a.wptr = k.pushed - k.rv := by
  have hrv := h.rv_le
  have hpopped := h.popped_le
  have hwv := h.wv_le
  have hroom := h.room
  have hdepth := depth_pos cfg
  have hmod := ptrMod_eq cfg
  rw [h.rv, h.wptr]
  exact ptrDist_mod (by omega) (by omega)

/-- A write step while the write side sees room appends the byte (R164 (a)). -/
theorem AbsCounts.Of.write_of_room (hroom : k.pushed < k.rv + cfg.depth) (d : Byte) :
    a.write cfg d = { a with queue := a.queue ++ [d], wptr := (k.pushed + 1) % cfg.ptrMod } := by
  have hdepth := depth_pos cfg
  rw [AbsFifo.write, h.ptrDist_eq, if_pos (by omega), h.wptr, ptrSucc_mod]

/-- A write step while the write side sees the FIFO full drops the byte (R164 (a)). -/
theorem AbsCounts.Of.write_of_full (hfull : k.pushed = k.rv + cfg.depth) (d : Byte) :
    a.write cfg d = { a with ovf := true } := by
  rw [AbsFifo.write, h.ptrDist_eq, if_neg (by omega)]

end

theorem AbsRun.of_step {cfg : Config} {a b : AbsFifo} {o : List Out} (h : AbsStep cfg a o b) : AbsRun cfg a o b := by
  have hrun := AbsRun.more a b b o [] h (AbsRun.done b)
  rwa [List.append_nil] at hrun

theorem AbsRun.trans {cfg : Config} {a b c : AbsFifo} {o p : List Out} (h : AbsRun cfg a o b) (h' : AbsRun cfg b p c) :
    AbsRun cfg a (o ++ p) c := by
  induction h with
  | done a => exact h'
  | more a₁ a₂ _ o₁ o₂ hstep _ ih =>
    rw [List.append_assoc]
    exact AbsRun.more a₁ a₂ c o₁ _ hstep (ih h')

/-- The pushes of an edge are write steps: none, one that drops its byte, or one that appends it. -/
theorem AbsCounts.Of.run_pushes {cfg : Config} {k : AbsCounts} {a : AbsFifo} {bs : List Byte} {ovf : Bool}
    (h : k.Of cfg a)
    (hcases : (bs = [] ∧ ovf = a.ovf) ∨ (bs = [] ∧ ovf = true ∧ k.pushed = k.rv + cfg.depth) ∨
      (∃ d, bs = [d] ∧ ovf = a.ovf ∧ k.pushed < k.rv + cfg.depth)) :
    AbsRun cfg a [] { a with queue := a.queue ++ bs, wptr := (k.pushed + bs.length) % cfg.ptrMod, ovf := ovf } := by
  rcases hcases with ⟨rfl, rfl⟩ | ⟨rfl, rfl, hfull⟩ | ⟨d, rfl, rfl, hroom⟩
  · rw [List.append_nil, List.length_nil, Nat.add_zero, ← h.wptr]
    exact AbsRun.done a
  · rw [List.append_nil, List.length_nil, Nat.add_zero, ← h.wptr, ← h.write_of_full hfull 0]
    exact AbsRun.of_step (AbsStep.write a 0)
  · have hstep := AbsStep.write (cfg := cfg) a d
    rw [h.write_of_room hroom] at hstep
    exact AbsRun.of_step hstep

/-- The pops of an edge are read steps: none, or one of the queue's head (R164 (b)). -/
theorem AbsRun.run_pops {cfg : Config} {n : Nat} {a : AbsFifo} {bs q : List Byte} (hrptr : a.rptr = n % cfg.ptrMod)
    (hq : a.queue = bs ++ q) (hcases : bs = [] ∨ ∃ b, bs = [b] ∧ a.wv ≠ a.rptr) :
    AbsRun cfg a (decodeStream cfg a.core bs)
      { a with queue := q, rptr := (n + bs.length) % cfg.ptrMod, core := streamCore cfg a.core bs } := by
  rcases hcases with rfl | ⟨b, rfl, hne⟩
  · rw [List.length_nil, Nat.add_zero, ← hrptr]
    rw [List.nil_append] at hq
    rw [← hq]
    exact AbsRun.done a
  · have hstep := AbsStep.read (cfg := cfg) a b q hne.symm hq
    rw [hrptr, ptrSucc_mod] at hstep
    rw [decodeStream, decodeStream, List.append_nil]
    exact AbsRun.of_step hstep

end Sys2Proof.Machine
end

section
/-! PROOFS. An edge without reset is write, read and sync steps of the abstract FIFO, in that order (R164). -/

namespace Sys2Proof.Machine

/-- The view of a chain that trails its pointer does not move back over an edge. -/
theorem Counts.Follows.rview_le {c c' : Counts} {e : Edge} (h : c.Follows e c') (htrails : Trails c.popped c.rq) :
    lastStage c.rq ≤ lastStage c'.rq := by
  by_cases hwclk : e.wclkPart = none
  · rw [h.rq_holds hwclk]
  · obtain ⟨x, hx, hshift⟩ := h.rq_shifts hwclk
    exact Counts.lastStage_le_of_shift htrails h.popped hx hshift

theorem Counts.Follows.wview_le {c c' : Counts} {e : Edge} (h : c.Follows e c') (htrails : Trails c.pushed c.wq) :
    lastStage c.wq ≤ lastStage c'.wq := by
  by_cases hclk : e.clkPart = none
  · rw [h.wq_holds hclk]
  · obtain ⟨x, hx, hshift⟩ := h.wq_shifts hclk
    exact Counts.lastStage_le_of_shift htrails h.pushed hx hshift

/-- The flag after operations without WRESET: on if a byte was dropped, else as before (R158). -/
theorem execAll_wrOvf {is : List Instr} {s u : State} (h : execAll is s = .next u)
    (hno : ∀ v f d, .wreset v f d ∉ is) :
    (∀ d, .wdrop d ∈ is → u.wr.wrOvf = true) ∧ ((∀ d, .wdrop d ∉ is) → u.wr.wrOvf = s.wr.wrOvf) := by
  refine ⟨fun d hd => ?_, fun hdrop => ?_⟩
  · refine execAll_establishes (P := fun t => t.wr.wrOvf = true) hd (fun s t hexec => by cases hexec; rfl)
      (fun i hi s t hs hexec => ?_) h
    exact execAll_wrOvf_stays_on (execAll_cons_next_iff.mpr ⟨t, hexec, rfl⟩) hs fun v f d hmem =>
      hno v f d (List.mem_singleton.mp hmem ▸ hi)
  · cases hs : s.wr.wrOvf with
    | false => exact execAll_wrOvf_stays_off h hs hdrop
    | true => exact execAll_wrOvf_stays_on h hs hno

theorem Counts.Of.full_iff {c : Counts} {s : State} (h : c.Of s) :
    fullW s = true ↔ c.pushed = lastStage c.rq + s.cfg.depth := by
  have hview := h.lastStage_rq_le.trans h.popped_le_pushed
  rw [fullW, decide_eq_true_iff, h.occW_eq]
  omega

/-- Over an edge without reset the write side acts as the abstract FIFO's write steps ask (R152, R153, R164 (a)). -/
theorem Counts.Of.edge_push_cases {c : Counts} {s u : State} {e : Edge} {is : List Instr} (h : c.Of s)
    (hfifo : s.cfg.cdcMode = .asyncFifo) (hnoReset : e.noReset = true) (hf : fetch s e = .next is)
    (hrun : Machine.execAll is s = .next u) :
    (is.filterMap pushedByte = [] ∧ u.wr.wrOvf = s.wr.wrOvf) ∨
    (is.filterMap pushedByte = [] ∧ u.wr.wrOvf = true ∧ c.pushed = lastStage c.rq + s.cfg.depth) ∨
    (∃ d, is.filterMap pushedByte = [d] ∧ u.wr.wrOvf = s.wr.wrOvf ∧ c.pushed < lastStage c.rq + s.cfg.depth) := by
  obtain ⟨hallows, _⟩ := h.allows_edge hfifo hnoReset hf
  obtain ⟨hon, hsame⟩ := execAll_wrOvf hrun fun v f d hmem => hallows _ hmem
  rcases fetch_push_cases hfifo hnoReset hf with ⟨hnil, hno⟩ | ⟨d, hnil, hdrop, hfull⟩ | ⟨d, hone, hno, hfull⟩
  · exact .inl ⟨hnil, hsame hno⟩
  · exact .inr (.inl ⟨hnil, hon d hdrop, h.full_iff.mp hfull⟩)
  · exact .inr (.inr ⟨d, hone, hsame hno, h.allows_wpush hfull d⟩)

/-- What a step over the edge `e` without reset does to the counts of a FIFO in agreement. -/
structure Counts.Steps (c : Counts) (s : State) (e : Edge) (c' : Counts) (t : State) : Prop where
  cfg : t.cfg = s.cfg
  of : c'.Of t
  follows : c.Follows e c'
  popped : c'.popped = c.popped + ((nextOps s).filterMap poppedByte).length
  pushed : c'.pushed = c.pushed + ((nextOps s).filterMap pushedByte).length
  pops : (nextOps s).filterMap poppedByte = [] ∨
    ∃ b, (nextOps s).filterMap poppedByte = [b] ∧ wview s ≠ s.rd.rptr
  pushes : ((nextOps s).filterMap pushedByte = [] ∧ t.wr.wrOvf = s.wr.wrOvf) ∨
    ((nextOps s).filterMap pushedByte = [] ∧ t.wr.wrOvf = true ∧ c.pushed = lastStage c.rq + s.cfg.depth) ∨
    (∃ d, (nextOps s).filterMap pushedByte = [d] ∧ t.wr.wrOvf = s.wr.wrOvf ∧
      c.pushed < lastStage c.rq + s.cfg.depth)

theorem Counts.Of.step {c : Counts} {s t : State} {e : Edge} {rest : List Edge} (h : c.Of s)
    (hfifo : s.cfg.cdcMode = .asyncFifo) (hin : s.inputs = e :: rest) (hnoReset : e.noReset = true)
    (ht : Machine.step s = .next t) : ∃ c' : Counts, c.Steps s e c' t := by
  obtain ⟨hnil, _⟩ | ⟨e', rest', is, u, hin', hf, hrun, rfl⟩ := step_next_cases ht
  · rw [hin] at hnil; cases hnil
  cases hin.symm.trans hin'
  have h' : c.Of { s with inputs := rest } := h.congr rfl rfl rfl rfl
  refine ⟨is.foldl Counts.after c, ?_⟩
  constructor
  case cfg => rw [State.noteEdge_cfg, execAll_keeps_cfg hrun]
  case of =>
    exact (h'.edge hfifo hnoReset hf hrun).congr (State.noteEdge_cfg ..) (State.noteEdge_mem ..) (State.noteEdge_wr ..)
      (State.noteEdge_rd ..)
  case follows => exact h'.follows (s := { s with inputs := rest }) hfifo hnoReset hf
  case popped => rw [nextOps_of_fetch hin hf]; exact c.foldl_after_popped is
  case pushed => rw [nextOps_of_fetch hin hf]; exact c.foldl_after_pushed is
  case pops => rw [nextOps_of_fetch hin hf]; exact fetch_pop_cases hfifo hnoReset hf
  case pushes =>
    rw [nextOps_of_fetch hin hf, State.noteEdge_wr]
    exact h'.edge_push_cases hfifo hnoReset hf hrun

namespace Counts.Steps

variable {c c' : Counts} {s t : State} {e : Edge} (h : c.Steps s e c' t) (hof : c.Of s)
include h hof

/-- A step pops no byte that the read side did not see before it. -/
theorem popped_le_view : c'.popped ≤ lastStage c.wq := by
  rw [h.popped]
  rcases h.pops with hnil | ⟨b, hone, hview⟩
  · rw [hnil]; exact hof.popped_le
  · rw [hone]; exact hof.popped_lt_view hview

/-- A step pushes no byte for which the write side did not see room before it. -/
theorem pushed_le_room : c'.pushed ≤ lastStage c.rq + s.cfg.depth := by
  rw [h.pushed]
  rcases h.pushes with ⟨hnil, _⟩ | ⟨hnil, _⟩ | ⟨d, hone, _, hroom⟩
  · rw [hnil]; exact hof.room
  · rw [hnil]; exact hof.room
  · rw [hone]; exact hroom

end Counts.Steps

/-- The abstract state after the pushes of a step from `s` to `t`. -/
def AbsFifo.afterPushes (s t : State) : AbsFifo :=
  { AbsFifo.ofState s with
    queue := queueOf s ++ (nextOps s).filterMap pushedByte
    wptr := t.wr.wptr
    ovf := t.wr.wrOvf }

/-- The abstract state after the pushes and the pops of a step from `s` to `t`: only the views are still those of `s`.
-/
def AbsFifo.afterPops (s t : State) : AbsFifo := { AbsFifo.ofState t with rv := rview s, wv := wview s }

namespace Counts.Steps

variable {c c' : Counts} {s t : State} {e : Edge} (h : c.Steps s e c' t) (hof : c.Of s)
include h hof

theorem run_pushes : AbsRun s.cfg (AbsFifo.ofState s) [] (AbsFifo.afterPushes s t) := by
  have hrun := hof.abs.run_pushes h.pushes
  have hwptr : t.wr.wptr = (c.abs.pushed + ((nextOps s).filterMap pushedByte).length) % s.cfg.ptrMod := by
    rw [h.of.wptr, h.pushed, h.cfg]; rfl
  rw [← hwptr] at hrun
  exact hrun

theorem run_pops
    (hdelivers : Delivers s ((nextOps s).filterMap pushedByte) ((nextOps s).filterMap poppedByte) t)
    (hcore : t.core = streamCore s.cfg s.core ((nextOps s).filterMap poppedByte)) :
    AbsRun s.cfg (AbsFifo.afterPushes s t) (decodeStream s.cfg s.core ((nextOps s).filterMap poppedByte))
      (AbsFifo.afterPops s t) := by
  have hrun := AbsRun.run_pops (cfg := s.cfg) (a := AbsFifo.afterPushes s t) hof.rptr hdelivers h.pops
  have hrptr : t.rd.rptr = (c.popped + ((nextOps s).filterMap poppedByte).length) % s.cfg.ptrMod := by
    rw [h.of.rptr, h.popped, h.cfg]
  have hcore' : streamCore s.cfg (AbsFifo.afterPushes s t).core ((nextOps s).filterMap poppedByte) = t.core :=
    hcore.symm
  rw [← hrptr, hcore'] at hrun
  exact hrun

/-- The counts after the pushes and pops of a step, the views still those before it. -/
theorem abs_afterPops :
    AbsCounts.Of s.cfg ⟨c'.popped, c'.pushed, lastStage c.rq, lastStage c.wq⟩ (AbsFifo.afterPops s t) where
  rptr := h.cfg ▸ h.of.rptr
  wptr := h.cfg ▸ h.of.wptr
  rv := hof.rview_eq
  wv := hof.wview_eq
  rv_le := hof.lastStage_rq_le.trans h.follows.popped
  popped_le := h.popped_le_view hof
  wv_le := (hof.wq_trails.lastStage_le List.mem_cons_self).trans h.follows.pushed
  room := h.pushed_le_room hof

theorem sync_step : AbsStep s.cfg (AbsFifo.afterPops s t) [] (AbsFifo.ofState t) := by
  have hsync := (h.abs_afterPops hof).sync_step (h.follows.rview_le hof.rq_trails) h.of.lastStage_rq_le
    (h.follows.wview_le hof.wq_trails) (h.of.wq_trails.lastStage_le List.mem_cons_self)
  rw [← h.cfg, ← h.of.rview_eq, ← h.of.wview_eq] at hsync
  exact h.cfg ▸ hsync

end Counts.Steps

/-- An edge without reset of a FIFO in agreement is a run of the abstract FIFO with the same outputs (R164). -/
theorem InAgreement.step_refines {s t : State} {e : Edge} {rest : List Edge} (h : InAgreement s)
    (hin : s.inputs = e :: rest) (hnoReset : e.noReset = true) (ht : step s = .next t) :
    AbsRun s.cfg (AbsFifo.ofState s) (outsOver 1 s) (AbsFifo.ofState t) := by
  obtain ⟨_, hdelivers⟩ := h.step_delivers hin hnoReset ht
  obtain ⟨hfifo, _, c, hof⟩ := h
  obtain ⟨c', hsteps⟩ := hof.step hfifo hin hnoReset ht
  obtain ⟨hcore, hout⟩ := step_decodes_popped hfifo hin hnoReset ht
  have houts : outsOver 1 s = [] ++ (decodeStream s.cfg s.core ((nextOps s).filterMap poppedByte) ++ []) := by
    rw [outsOver_succ 0 hin ht, outsOver, hout]; rfl
  rw [houts]
  exact (hsteps.run_pushes hof).trans
    ((hsteps.run_pops hof hdelivers hcore).trans (AbsRun.of_step (hsteps.sync_step hof)))

/-- Settles O58: one step of a FIFO in agreement. -/
theorem edgesRefineTheAbstractFifo : Obligations.EdgesRefineTheAbstractFifo :=
  fun _ _ _ _ hfifo hinv hagree hin hnoReset ht =>
    (inAgreement_of_fifoInv hfifo hinv hagree).step_refines hin hnoReset ht

end Sys2Proof.Machine
end

section
/-! PROOFS. Runs of the abstract FIFO: every step keeps its counts, a run begins an unending behaviour, and a behaviour
whose views catch up in the end is fair (R164). -/

namespace Sys2Proof.Machine

/-- The counts `k'` follow `k` by a step: none falls, and a view moves by the `DEPTH` at most. -/
structure AbsCounts.Follows (cfg : Config) (k k' : AbsCounts) : Prop where
  popped : k.popped ≤ k'.popped
  pushed : k.pushed ≤ k'.pushed
  rv : k.rv ≤ k'.rv
  wv : k.wv ≤ k'.wv
  rv_near : k'.rv ≤ k.rv + cfg.depth
  wv_near : k'.wv ≤ k.wv + cfg.depth

/-- A value no farther from a view than the pointer it follows stands for a count between theirs. -/
theorem exists_count_of_view {cfg : Config} {v p x : Nat} (hx : x < cfg.ptrMod) (hvp : v ≤ p)
    (hnear : p ≤ v + cfg.depth)
    (hdist : ptrDist cfg (v % cfg.ptrMod) x ≤ ptrDist cfg (v % cfg.ptrMod) (p % cfg.ptrMod)) :
    ∃ r, v ≤ r ∧ r ≤ p ∧ x = r % cfg.ptrMod := by
  have hdepth := depth_pos cfg
  have hmod := ptrMod_eq cfg
  rw [ptrDist_mod hvp (by omega)] at hdist
  refine ⟨v + ptrDist cfg (v % cfg.ptrMod) x, Nat.le_add_right .., by omega, ?_⟩
  rw [← Nat.mod_add_mod, add_ptrDist_mod (mod_ptrMod_lt ..) hx]

/-- Every step of the abstract FIFO takes its counts along. -/
theorem AbsStep.counts {cfg : Config} {a b : AbsFifo} {o : List Out} {k : AbsCounts} (hstep : AbsStep cfg a o b)
    (h : k.Of cfg a) : ∃ k' : AbsCounts, k'.Of cfg b ∧ k.Follows cfg k' := by
  have hrv := h.rv_le
  have hpopped := h.popped_le
  have hwv := h.wv_le
  have hroom := h.room
  have hself : k.Follows cfg k := ⟨le_rfl, le_rfl, le_rfl, le_rfl, Nat.le_add_right .., Nat.le_add_right ..⟩
  cases hstep with
  | write b =>
    rcases Nat.lt_or_eq_of_le hroom with hlt | hfull
    · rw [h.write_of_room hlt]
      exact ⟨{ k with pushed := k.pushed + 1 }, { h with wptr := rfl, wv_le := by simp only; omega, room := hlt },
        { hself with pushed := Nat.le_succ _ }⟩
    · rw [h.write_of_full hfull]
      exact ⟨k, { h with }, hself⟩
  | read b q hne hq =>
    have hlt : k.popped < k.wv := lt_of_le_of_ne hpopped fun heq => hne (by rw [h.rptr, h.wv, heq])
    exact ⟨{ k with popped := k.popped + 1 },
      { h with rptr := by rw [h.rptr, ptrSucc_mod], rv_le := by simp only; omega, popped_le := hlt },
      { hself with popped := Nat.le_succ _ }⟩
  | sync rv' wv' hr hw hrvDist hwvDist =>
    rw [h.rv, h.rptr] at hrvDist
    rw [h.wv, h.wptr] at hwvDist
    obtain ⟨r, hr₁, hr₂, rfl⟩ := exists_count_of_view hr hrv (by omega) hrvDist
    obtain ⟨w, hw₁, hw₂, rfl⟩ := exists_count_of_view hw hwv (by omega) hwvDist
    exact ⟨{ k with rv := r, wv := w },
      { h with rv := rfl, wv := rfl, rv_le := hr₂, popped_le := hpopped.trans hw₁, wv_le := hw₂,
               room := by simp only; omega },
      { hself with rv := hr₁, wv := hw₁, rv_near := by simp only; omega, wv_near := by simp only; omega }⟩

/-- A behaviour has counts throughout if it has them at its start. -/
theorem AbsBehaves.counts {cfg : Config} {a : Nat → AbsFifo} {o : Nat → List Out} {k : AbsCounts}
    (hb : AbsBehaves cfg a o) (h : k.Of cfg (a 0)) (n : Nat) : ∃ k' : AbsCounts, k'.Of cfg (a n) := by
  induction n with
  | zero => exact ⟨k, h⟩
  | succ n ih =>
    obtain ⟨k', hk'⟩ := ih
    obtain ⟨k'', hk'', _⟩ := (hb n).counts hk'
    exact ⟨k'', hk''⟩

/-- `viewOf` is a view of the pointer `ptrOf`, and `view` and `ptr` are the counts behind them. -/
structure IsView (cfg : Config) (view ptr : AbsCounts → Nat) (viewOf ptrOf : AbsFifo → Nat) : Prop where
  view_eq : ∀ {k a}, k.Of cfg a → viewOf a = view k % cfg.ptrMod
  ptr_eq : ∀ {k a}, k.Of cfg a → ptrOf a = ptr k % cfg.ptrMod
  le : ∀ {k a}, k.Of cfg a → view k ≤ ptr k
  near : ∀ {k a}, k.Of cfg a → ptr k ≤ view k + cfg.depth
  view_le : ∀ {k k' : AbsCounts}, k.Follows cfg k' → view k ≤ view k'
  view_near : ∀ {k k' : AbsCounts}, k.Follows cfg k' → view k' ≤ view k + cfg.depth
  ptr_le : ∀ {k k' : AbsCounts}, k.Follows cfg k' → ptr k ≤ ptr k'

theorem isView_rv (cfg : Config) : IsView cfg AbsCounts.rv AbsCounts.popped AbsFifo.rv AbsFifo.rptr where
  view_eq h := h.rv
  ptr_eq h := h.rptr
  le h := h.rv_le
  near h := h.popped_le.trans (h.wv_le.trans h.room)
  view_le h := h.rv
  view_near h := h.rv_near
  ptr_le h := h.popped

theorem isView_wv (cfg : Config) : IsView cfg AbsCounts.wv AbsCounts.pushed AbsFifo.wv AbsFifo.wptr where
  view_eq h := h.wv
  ptr_eq h := h.wptr
  le h := h.wv_le
  near h := h.room.trans (Nat.add_le_add_right (h.rv_le.trans h.popped_le) _)
  view_le h := h.wv
  view_near h := h.wv_near
  ptr_le h := h.pushed

namespace IsView

variable {cfg : Config} {view ptr : AbsCounts → Nat} {viewOf ptrOf : AbsFifo → Nat}
  (hview : IsView cfg view ptr viewOf ptrOf) {a : Nat → AbsFifo} {o : Nat → List Out} (hb : AbsBehaves cfg a o)
include hview hb

/-- While a view keeps its value its count stands still, so the pointer does not wrap round to it. -/
theorem count_stands {k : AbsCounts} {n : Nat} (h : k.Of cfg (a n)) (hstays : ∀ m, n < m → viewOf (a m) = viewOf (a n))
    (d : Nat) : ∃ k' : AbsCounts, k'.Of cfg (a (n + d)) ∧ view k' = view k ∧ ptr k ≤ ptr k' := by
  induction d with
  | zero => exact ⟨k, h, rfl, Nat.le_refl _⟩
  | succ d ih =>
    obtain ⟨k', hk', hsame, hle⟩ := ih
    obtain ⟨k'', hk'', hfollows⟩ := (hb (n + d)).counts hk'
    have hvalue : view k' % cfg.ptrMod = view k'' % cfg.ptrMod := by
      rw [hsame, ← hview.view_eq h, ← hview.view_eq hk'']
      exact (hstays (n + d + 1) (by omega)).symm
    have hdepth := depth_pos cfg
    have hmod := ptrMod_eq cfg
    have hnear := hview.view_near hfollows
    have hstands := eq_of_mod_ptrMod_eq hvalue (hview.view_le hfollows) (by omega)
    exact ⟨k'', hk'', hstands.symm.trans hsame, hle.trans (hview.ptr_le hfollows)⟩

/-- A view that lags, and has caught up later, has moved. -/
theorem advances {k : AbsCounts} {n l : Nat} (h : k.Of cfg (a n)) (hlag : viewOf (a n) ≠ ptrOf (a n)) (hnl : n ≤ l)
    (hcaught : viewOf (a l) = ptrOf (a l)) : ∃ m, n < m ∧ viewOf (a m) ≠ viewOf (a n) := by
  by_contra hstays
  have hstays : ∀ m, n < m → viewOf (a m) = viewOf (a n) := fun m hm => by
    by_contra hne
    exact hstays ⟨m, hm, hne⟩
  obtain ⟨k', hk', hsame, hle⟩ := hview.count_stands hb h hstays (l - n)
  rw [Nat.add_sub_cancel' hnl] at hk'
  have hlt : view k < ptr k :=
    lt_of_le_of_ne (hview.le h) fun heq => hlag (by rw [hview.view_eq h, hview.ptr_eq h, heq])
  have hdepth := depth_pos cfg
  have hmod := ptrMod_eq cfg
  have hnear := hview.near hk'
  rw [hview.view_eq hk', hview.ptr_eq hk'] at hcaught
  have heq := eq_of_mod_ptrMod_eq hcaught (hview.le hk') (by omega)
  omega

end IsView

/-- A behaviour whose views have caught up from some step on is fair. -/
theorem absFair_of_caughtUp {cfg : Config} {a : Nat → AbsFifo} {o : Nat → List Out} {k : AbsCounts} {l : Nat}
    (hb : AbsBehaves cfg a o) (h : k.Of cfg (a 0))
    (hcaught : ∀ m, l ≤ m → (a m).rv = (a m).rptr ∧ (a m).wv = (a m).wptr) : AbsFair a := by
  intro n
  obtain ⟨k', hk'⟩ := hb.counts h n
  obtain ⟨hrv, hwv⟩ := hcaught (max n l) (le_max_right ..)
  exact ⟨fun hlag => (isView_rv cfg).advances hb hk' hlag (le_max_left ..) hrv,
    fun hlag => (isView_wv cfg).advances hb hk' hlag (le_max_left ..) hwv⟩

-- ---------------------------------------------------------------- from a run to a behaviour

/-- A sequence with one more element in front. -/
def seqCons {α : Type} (x : α) (f : Nat → α) : Nat → α
  | 0 => x
  | n + 1 => f n

theorem AbsBehaves.cons {cfg : Config} {a : Nat → AbsFifo} {o : Nat → List Out} {x : AbsFifo} {p : List Out}
    (hstep : AbsStep cfg x p (a 0)) (hb : AbsBehaves cfg a o) : AbsBehaves cfg (seqCons x a) (seqCons p o)
  | 0 => hstep
  | n + 1 => hb n

/-- A run and a behaviour from its end are a behaviour. -/
theorem AbsRun.behaves {cfg : Config} {x y : AbsFifo} {p : List Out} (hrun : AbsRun cfg x p y) {a : Nat → AbsFifo}
    {o : Nat → List Out} (hb : AbsBehaves cfg a o) (hstart : a 0 = y) :
    ∃ (a' : Nat → AbsFifo) (o' : Nat → List Out) (n : Nat), AbsBehaves cfg a' o' ∧ a' 0 = x ∧
      (∀ m, a' (n + m) = a m) ∧ (List.range n).flatMap o' = p := by
  induction hrun with
  | done x => exact ⟨a, o, 0, hb, hstart, fun m => by rw [Nat.zero_add], rfl⟩
  | more x z y p q hstep _ ih =>
    obtain ⟨a', o', n, hb', hfirst, hend, houts⟩ := ih hstart
    refine ⟨seqCons x a', seqCons p o', n + 1, AbsBehaves.cons (hfirst ▸ hstep) hb', rfl, fun m => ?_, ?_⟩
    · rw [Nat.add_right_comm]
      exact hend m
    · rw [List.range_succ_eq_map, List.flatMap_cons, List.flatMap_map, ← houts]
      rfl

/-- The abstract state with both views at the pointers they follow. -/
def AbsFifo.caughtUp (a : AbsFifo) : AbsFifo := { a with rv := a.rptr, wv := a.wptr }

/-- Any abstract state with counts may let its views catch up, and pause from then on. -/
theorem AbsCounts.Of.behaves_caughtUp {cfg : Config} {k : AbsCounts} {a : AbsFifo} (h : k.Of cfg a) :
    AbsBehaves cfg (seqCons a fun _ => a.caughtUp) fun _ => [] := by
  have hpushed := h.popped_le.trans h.wv_le
  have hcaught : AbsCounts.Of cfg { k with rv := k.popped, wv := k.pushed } a.caughtUp :=
    { h with rv := h.rptr, wv := h.wptr, rv_le := le_rfl, popped_le := hpushed, wv_le := le_rfl,
             room := h.room.trans (Nat.add_le_add_right h.rv_le _) }
  intro n
  cases n with
  | zero =>
    have hstep := h.sync_step h.rv_le le_rfl h.wv_le le_rfl
    rw [← h.rptr, ← h.wptr] at hstep
    exact hstep
  | succ n =>
    have hstep := hcaught.sync_step le_rfl le_rfl le_rfl le_rfl
    rw [← hcaught.rptr, ← hcaught.wptr] at hstep
    exact hstep

/-- Every run of the abstract FIFO from a state with counts begins a fair behaviour with the same outputs (R164). -/
theorem AbsRun.begins_fair_behaviour {cfg : Config} {x y : AbsFifo} {p : List Out} {k k' : AbsCounts}
    (hrun : AbsRun cfg x p y) (hx : k.Of cfg x) (hy : k'.Of cfg y) :
    ∃ (a : Nat → AbsFifo) (o : Nat → List Out) (n : Nat), AbsBehaves cfg a o ∧ AbsFair a ∧ a 0 = x ∧ a n = y ∧
      (List.range n).flatMap o = p := by
  obtain ⟨a, o, n, hb, hfirst, hend, houts⟩ := hrun.behaves hy.behaves_caughtUp rfl
  refine ⟨a, o, n, hb, absFair_of_caughtUp (l := n + 1) hb (hfirst ▸ hx) fun m hm => ?_, hfirst, hend 0, houts⟩
  obtain ⟨d, rfl⟩ := Nat.exists_eq_add_of_le hm
  rw [Nat.add_assoc, hend, Nat.add_comm 1 d]
  exact ⟨rfl, rfl⟩

end Sys2Proof.Machine
end

section
/-! PROOFS. A synchronizer over a run without reset: after `N` edges of its clock its view is a value that the pointer
held at the start or since (R154, R155, R165). -/

namespace Sys2Proof.Machine

/-- Shifting one more value in front of a chain cut to its length. -/
theorem take_append_take (xs l : List Nat) (k : Nat) : (xs ++ l.take k).take k = (xs ++ l).take k := by
  simp [List.take_append, List.take_take]

/-- `q` is a chain of the counts, `n` the count it follows, and `rises` says at which edges it shifts. -/
structure IsChain (q : Counts → List Nat) (n : Counts → Nat) (rises : Edge → Bool) : Prop where
  shifts : ∀ {c c' : Counts} {e : Edge}, c.Follows e c' → rises e = true →
    ∃ x, (x = n c ∨ x = n c') ∧ q c' = shiftIn x (q c)
  holds : ∀ {c c' : Counts} {e : Edge}, c.Follows e c' → rises e = false → q c' = q c
  ne_nil : ∀ {c : Counts} {s : State}, c.Of s → q c ≠ []

theorem isChain_wq : IsChain Counts.wq Counts.pushed fun e => e.clkPart.isSome where
  shifts h hrises := h.wq_shifts (Option.isSome_iff_ne_none.mp hrises)
  holds h hrises := h.wq_holds (Option.isSome_eq_false_iff.mp hrises |> Option.isNone_iff_eq_none.mp)
  ne_nil h := h.wq_trails.1

theorem isChain_rq : IsChain Counts.rq Counts.popped fun e => e.wclkPart.isSome where
  shifts h hrises := h.rq_shifts (Option.isSome_iff_ne_none.mp hrises)
  holds h hrises := h.rq_holds (Option.isSome_eq_false_iff.mp hrises |> Option.isNone_iff_eq_none.mp)
  ne_nil h := h.rq_trails.1

/-- The count `n` stood at `x` at the start of a run of at most `k` steps from `s`, or since. -/
def HeldOver (n : Counts → Nat) (s : State) (k x : Nat) : Prop :=
  ∃ (j : Nat) (u : State) (d : Counts), j ≤ k ∧ core.run j s = .next u ∧ u.cfg = s.cfg ∧ d.Of u ∧ n d = x

theorem HeldOver.start {n : Counts → Nat} {s : State} {c : Counts} (h : c.Of s) (k : Nat) : HeldOver n s k (n c) :=
  ⟨0, s, c, Nat.zero_le k, rfl, rfl, h, rfl⟩

theorem HeldOver.later {n : Counts → Nat} {s t : State} {k x : Nat} (ht : step s = .next t) (hcfg : t.cfg = s.cfg)
    (h : HeldOver n t k x) : HeldOver n s (k + 1) x := by
  obtain ⟨j, u, d, hj, hrun, hu, hof, hx⟩ := h
  exact ⟨j + 1, u, d, Nat.succ_le_succ hj, run_succ_next_iff.mpr ⟨t, ht, hrun⟩, hu.trans hcfg, hof, hx⟩

/-- Over a run without reset a chain takes in, at each edge of its clock, a value that the pointer it follows held. -/
theorem IsChain.run {q : Counts → List Nat} {n : Counts → Nat} {rises : Edge → Bool} (hq : IsChain q n rises)
    {es rest : List Edge} {s t : State} {c : Counts} (h : InAgreement s) (hof : c.Of s) (hin : s.inputs = es ++ rest)
    (hnoReset : ∀ e ∈ es, e.noReset = true) (hrun : core.run es.length s = .next t) :
    t.cfg = s.cfg ∧ ∃ (c' : Counts) (xs : List Nat), c'.Of t ∧ q c' = (xs ++ q c).take (q c).length ∧
      xs.length = (es.filter rises).length ∧ ∀ x ∈ xs, HeldOver n s es.length x := by
  induction es generalizing s c with
  | nil =>
    cases hrun
    exact ⟨rfl, c, [], hof, by simp, rfl, nofun⟩
  | cons e es ih =>
    obtain ⟨he, hnoReset⟩ := List.forall_mem_cons.mp hnoReset
    obtain ⟨u, hu, hrun⟩ := run_succ_next_iff.mp hrun
    obtain ⟨hinputs, hcfg, _⟩ := step_coreSide_cases hin hu
    obtain ⟨hagree, _⟩ := h.step_delivers hin he hu
    obtain ⟨d, hsteps⟩ := hof.step h.fifo hin he hu
    obtain ⟨hcfg', c', xs, hof', hchain, hlength, hheld⟩ := ih hagree hsteps.of hinputs hnoReset hrun
    refine ⟨hcfg'.trans hcfg, c', ?_⟩
    cases hrises : rises e with
    | true =>
      obtain ⟨x, hx, hshift⟩ := hq.shifts hsteps.follows hrises
      refine ⟨xs ++ [x], hof', ?_, by simp [hrises, hlength], fun y hy => ?_⟩
      · rw [hchain, hshift, shiftIn_length, shiftIn, take_append_take, List.append_assoc]
        rfl
      · rcases List.mem_append.mp hy with hy | hy
        · exact (hheld y hy).later hu hcfg
        · rw [List.mem_singleton.mp hy]
          rcases hx with rfl | rfl
          · exact HeldOver.start hof _
          · exact (HeldOver.start hsteps.of _).later hu hcfg
    | false =>
      have hholds := hq.holds hsteps.follows hrises
      rw [hholds] at hchain
      exact ⟨xs, hof', hchain, by simp [hrises, hlength], fun y hy => (hheld y hy).later hu hcfg⟩

/-- After as many edges of its clock as it has stages the view of a chain is a value that the pointer held. -/
theorem IsChain.view_held {q : Counts → List Nat} {n : Counts → Nat} {rises : Edge → Bool} (hq : IsChain q n rises)
    {es rest : List Edge} {s t : State} {c : Counts} (h : InAgreement s) (hof : c.Of s) (hin : s.inputs = es ++ rest)
    (hnoReset : ∀ e ∈ es, e.noReset = true) (hrun : core.run es.length s = .next t)
    (henough : (q c).length ≤ (es.filter rises).length) :
    t.cfg = s.cfg ∧ ∃ c' : Counts, c'.Of t ∧ HeldOver n s es.length (lastStage (q c')) := by
  obtain ⟨hcfg, c', xs, hof', hchain, hlength, hheld⟩ := hq.run h hof hin hnoReset hrun
  rw [List.take_append_of_le_length (hlength ▸ henough)] at hchain
  have hlast := lastStage_mem (hq.ne_nil hof')
  rw [hchain] at hlast
  exact ⟨hcfg, c', hof', hchain ▸ hheld _ (List.mem_of_mem_take hlast)⟩

end Sys2Proof.Machine
end

section
/-! PROOFS. Every lagging view is advanced: bounded by the stages of its chain on the machine, and without bound as the
fairness of the abstract FIFO (R164, R165). -/

namespace Sys2Proof.Machine

theorem step_keeps_writeSide {s t : State} {e : Edge} {rest : List Edge} (hin : s.inputs = e :: rest)
    (hwclk : e.wclkPart = none) (h : step s = .next t) : t.wr = s.wr := by
  obtain ⟨hnil, _⟩ | ⟨e', rest', is, u, hin', hf, hrun, rfl⟩ := step_next_cases h
  · rw [hin] at hnil; cases hnil
  cases hin.symm.trans hin'
  rw [State.noteEdge_wr]
  exact (edge_keeps_writeSide hf hrun hwclk).1

theorem step_keeps_readSide {s t : State} {e : Edge} {rest : List Edge} (hin : s.inputs = e :: rest)
    (hclk : e.clkPart = none) (h : step s = .next t) : t.rd = s.rd := by
  obtain ⟨hnil, _⟩ | ⟨e', rest', is, u, hin', hf, hrun, rfl⟩ := step_next_cases h
  · rw [hin] at hnil; cases hnil
  cases hin.symm.trans hin'
  rw [State.noteEdge_rd]
  exact edge_keeps_readSide (s := { s with inputs := rest }) hf hrun hclk

/-- What every step over some edges keeps, a run over the first of them keeps. -/
theorem run_keeps {α : Type} {f : State → α} {P : Edge → Prop}
    (hf : ∀ {s t : State} {e : Edge} {rest : List Edge}, s.inputs = e :: rest → P e → step s = .next t → f t = f s)
    {es rest : List Edge} {s u : State} {j : Nat} (hin : s.inputs = es ++ rest) (hP : ∀ e ∈ es, P e)
    (hj : j ≤ es.length) (h : core.run j s = .next u) : f u = f s := by
  induction j generalizing s es with
  | zero => cases h; rfl
  | succ j ih =>
    cases es with
    | nil => cases hj
    | cons e es =>
      obtain ⟨t, ht, hu⟩ := run_succ_next_iff.mp h
      obtain ⟨hinputs, _⟩ := step_coreSide_cases hin ht
      obtain ⟨he, hP⟩ := List.forall_mem_cons.mp hP
      exact (ih hinputs hP (Nat.le_of_succ_le_succ hj) hu).trans (hf hin he ht)

/-- A run without reset of a FIFO in agreement is a run of the abstract FIFO with the same outputs, and ends in
agreement (R164). -/
theorem InAgreement.run_refines {s t : State} {es rest : List Edge} (h : InAgreement s) (hin : s.inputs = es ++ rest)
    (hnoReset : ∀ e ∈ es, e.noReset = true) (hrun : core.run es.length s = .next t) :
    InAgreement t ∧ t.cfg = s.cfg ∧
      AbsRun s.cfg (AbsFifo.ofState s) (outsOver es.length s) (AbsFifo.ofState t) := by
  induction es generalizing s with
  | nil => cases hrun; exact ⟨h, rfl, AbsRun.done _⟩
  | cons e es ih =>
    obtain ⟨he, hnoReset⟩ := List.forall_mem_cons.mp hnoReset
    obtain ⟨u, hu, hrun⟩ := run_succ_next_iff.mp hrun
    obtain ⟨hinputs, hcfg, _⟩ := step_coreSide_cases hin hu
    obtain ⟨hagree, _⟩ := h.step_delivers hin he hu
    obtain ⟨hend, hcfg', hothers⟩ := ih hagree hinputs hnoReset hrun
    have hfirst := h.step_refines hin he hu
    have houts : outsOver (es.length + 1) s = outsOver 1 s ++ outsOver es.length u := by
      rw [outsOver_succ es.length hin hu, outsOver_succ 0 hin hu, outsOver, List.append_nil]
    rw [List.length_cons, houts]
    exact ⟨hend, hcfg'.trans hcfg, hfirst.trans (hcfg ▸ hothers)⟩

/-- The counts behind a chain have as many stages as the chain. -/
theorem Counts.Of.chain_lengths {c : Counts} {s : State} (h : c.Of s) (hshape : FifoShape s) :
    c.wq.length = s.cfg.syncStages ∧ c.rq.length = s.cfg.syncStages := by
  obtain ⟨hregs, _⟩ := (fifoShape_iff s).mp hshape
  have hwq := congrArg List.length h.wq
  have hrq := congrArg List.length h.rq
  rw [List.length_map, List.length_map] at hwq hrq
  exact ⟨hwq.symm.trans hregs.wqStages, hrq.symm.trans hregs.rqStages⟩

section
variable {s t : State} {es rest : List Edge} {c : Counts} (h : InAgreement s) (hof : c.Of s)
  (hin : s.inputs = es ++ rest) (hnoReset : ∀ e ∈ es, e.noReset = true) (hrun : core.run es.length s = .next t)
include h hof hin hnoReset hrun

theorem wview_held (henough : c.wq.length ≤ (es.filter fun e => e.clkPart.isSome).length) :
    ∃ j u, j ≤ es.length ∧ core.run j s = .next u ∧ wview t = u.wr.wptr := by
  obtain ⟨hcfg, c', hof', j, u, d, hj, hu, hucfg, hdof, hheld⟩ :=
    isChain_wq.view_held h hof hin hnoReset hrun henough
  exact ⟨j, u, hj, hu, by rw [hof'.wview_eq, hdof.wptr, hheld, hcfg, hucfg]⟩

theorem rview_held (henough : c.rq.length ≤ (es.filter fun e => e.wclkPart.isSome).length) :
    ∃ j u, j ≤ es.length ∧ core.run j s = .next u ∧ rview t = u.rd.rptr := by
  obtain ⟨hcfg, c', hof', j, u, d, hj, hu, hucfg, hdof, hheld⟩ :=
    isChain_rq.view_held h hof hin hnoReset hrun henough
  exact ⟨j, u, hj, hu, by rw [hof'.rview_eq, hdof.rptr, hheld, hcfg, hucfg]⟩

/-- While `wclk` does not rise `wptr` holds its value, so that is what the read side comes to see. -/
theorem wview_eq_wptr (hlength : c.wq.length ≤ es.length) (hclk : ∀ e ∈ es, ∃ i, e = .clk i) :
    wview t = s.wr.wptr := by
  have hrises : ∀ e ∈ es, e.clkPart.isSome = true ∧ e.wclkPart = none := fun e he => by
    obtain ⟨i, rfl⟩ := hclk e he
    exact ⟨rfl, rfl⟩
  have hall : es.filter (fun e => e.clkPart.isSome) = es := List.filter_eq_self.mpr fun e he => (hrises e he).1
  obtain ⟨j, u, hj, hu, hview⟩ := wview_held h hof hin hnoReset hrun (by rwa [hall])
  have hkeeps : u.wr = s.wr := run_keeps step_keeps_writeSide hin (fun e he => (hrises e he).2) hj hu
  rw [hview, hkeeps]

/-- While `clk` does not rise `rptr` holds its value, so that is what the write side comes to see. -/
theorem rview_eq_rptr (hlength : c.rq.length ≤ es.length) (hwclk : ∀ e ∈ es, ∃ i, e = .wclk i) :
    rview t = s.rd.rptr := by
  have hrises : ∀ e ∈ es, e.wclkPart.isSome = true ∧ e.clkPart = none := fun e he => by
    obtain ⟨i, rfl⟩ := hwclk e he
    exact ⟨rfl, rfl⟩
  have hall : es.filter (fun e => e.wclkPart.isSome) = es := List.filter_eq_self.mpr fun e he => (hrises e he).1
  obtain ⟨j, u, hj, hu, hview⟩ := rview_held h hof hin hnoReset hrun (by rwa [hall])
  have hkeeps : u.rd = s.rd := run_keeps step_keeps_readSide hin (fun e he => (hrises e he).2) hj hu
  rw [hview, hkeeps]

end

/-- Settles O56: the chains by `IsChain.view_held`, a pointer whose clock does not rise holding its value; the behaviour
by the abstract run, whose views may catch up at its end. -/
theorem viewsCatchUpInNStages : Obligations.ViewsCatchUpInNStages := by
  intro s es rest hfifo hinv hagree hin hnoReset
  have h := inAgreement_of_fifoInv hfifo hinv hagree
  obtain ⟨hshape, hagrees⟩ := hinv
  have hof := counts_ofState hshape (hagrees (.inl hagree))
  obtain ⟨hwq, hrq⟩ := hof.chain_lengths hshape
  obtain ⟨t, hrun, _⟩ := h.run_delivers hin hnoReset
  obtain ⟨⟨_, _, c', hof'⟩, hcfg, habs⟩ := h.run_refines hin hnoReset hrun
  exact ⟨t, hrun,
    fun hlength hclk => wview_eq_wptr h hof hin hnoReset hrun (by rw [hwq, hlength]) hclk,
    fun hlength hwclk => rview_eq_rptr h hof hin hnoReset hrun (by rw [hrq, hlength]) hwclk,
    fun henough => wview_held h hof hin hnoReset hrun (hwq ▸ henough),
    fun henough => rview_held h hof hin hnoReset hrun (hrq ▸ henough),
    habs.begins_fair_behaviour hof.abs (hcfg ▸ hof'.abs)⟩

end Sys2Proof.Machine
end

section
/-! PROOFS. A stopped clock: no edge lined up, and every register holds (R190). -/

namespace Sys2Proof.Machine

/-- Settles O8: a step with no edge lined up runs no operation, which is the step's law `step_of_no_edge` (R190,
notes/assumptions/5.md). -/
theorem stoppedClockHoldsEverything : Obligations.StoppedClockHoldsEverything := by
  intro s hstopped
  exact step_of_no_edge hstopped

end Sys2Proof.Machine
end

section
/-! PROOFS. The record of resets over a list of edges, said for either side by exchanging the two (R201, R202;
notes/assumptions/6.md). -/

namespace Sys2Proof.Machine

/-- The record after these edges, with `f` the level that counts as `rst` and `g` the one that counts as `wrst`. -/
def ResetLog.over (n : Nat) (f g : Edge → Option Bool) (l : ResetLog) (es : List Edge) : ResetLog :=
  es.foldl (fun l e => l.next n (f e) (g e)) l

@[simp] theorem ResetLog.over_nil (n : Nat) (f g : Edge → Option Bool) (l : ResetLog) : l.over n f g [] = l := rfl

@[simp] theorem ResetLog.over_cons (n : Nat) (f g : Edge → Option Bool) (l : ResetLog) (e : Edge) (es : List Edge) :
    l.over n f g (e :: es) = (l.next n (f e) (g e)).over n f g es := rfl

theorem ResetLog.over_append (n : Nat) (f g : Edge → Option Bool) (l : ResetLog) (es fs : List Edge) :
    l.over n f g (es ++ fs) = (l.over n f g es).over n f g fs :=
  List.foldl_append

/-- What is known of the two intervals, with the sides exchanged. -/
def Meeting.swap : Meeting → Meeting
  | .apart => .apart
  | .rstSince => .wrstSince
  | .wrstSince => .rstSince
  | .overlapped => .overlapped

/-- The record with the sides exchanged. -/
def ResetLog.swap (l : ResetLog) : ResetLog :=
  { rstHeld := l.wrstHeld, wrstHeld := l.rstHeld, rstEdges := l.wrstEdges, wrstEdges := l.rstEdges,
    meeting := l.meeting.swap }

theorem Meeting.pass_swap (m : Meeting) (r w : Option Bool) : m.swap.pass w r = (m.pass r w).swap := by
  rcases r with _ | _ | _ <;> rcases w with _ | _ | _ <;> cases m <;> rfl

theorem ResetLog.meets_swap (l : ResetLog) (r w : Option Bool) : l.swap.meets w r = l.meets r w := by
  have hr : (l.meeting.swap == .rstSince) = (l.meeting == .wrstSince) := by cases l.meeting <;> rfl
  have hw : (l.meeting.swap == .wrstSince) = (l.meeting == .rstSince) := by cases l.meeting <;> rfl
  simp only [ResetLog.meets, ResetLog.swap, hr, hw, Bool.and_comm (w == some true) (r == some true),
    Bool.or_right_comm]

theorem ResetLog.begins_swap (l : ResetLog) (r w : Option Bool) : l.swap.begins w r = l.begins r w :=
  Bool.or_comm ..

theorem ResetLog.next_swap (l : ResetLog) (n : Nat) (r w : Option Bool) :
    l.swap.next n w r = (l.next n r w).swap := by
  have hover : (l.meeting.swap == .overlapped) = (l.meeting == .overlapped) := by cases l.meeting <;> rfl
  simp only [ResetLog.next, ResetLog.meets_swap, ResetLog.begins_swap]
  simp only [ResetLog.swap, hover, Meeting.pass_swap, apply_ite Meeting.swap]
  rfl

theorem ResetLog.over_swap (n : Nat) (f g : Edge → Option Bool) (l : ResetLog) (es : List Edge) :
    l.swap.over n g f es = (l.over n f g es).swap := by
  induction es generalizing l with
  | nil => rfl
  | cons e es ih => rw [over_cons, next_swap, ih, over_cons]

-- ---------------------------------------------------------------- the record over a run of the block

/-- A step of a block with the FIFO notes its edge's resets, and agreement as they leave it. -/
theorem step_record {s t : State} {e : Edge} {rest : List Edge} (hfifo : s.cfg.cdcMode = .asyncFifo)
    (hin : s.inputs = e :: rest) (h : step s = .next t) :
    t.resets = s.resets.next (s.cfg.syncStages + 1) e.rstLevel e.wrstLevel ∧
      t.agree = (t.resets.joint (s.cfg.syncStages + 1) || (s.agree && !breaksAgreement e s t)) := by
  obtain ⟨hnil, _⟩ | ⟨e', rest', is, u, hin', _, _, rfl⟩ := step_next_cases h
  · rw [hin] at hnil; cases hnil
  cases hin.symm.trans hin'
  simp [State.noteEdge, hfifo, breaksAgreement, pointersZero]

theorem run_resets {es rest : List Edge} {s u : State} (hfifo : s.cfg.cdcMode = .asyncFifo)
    (hin : s.inputs = es ++ rest) (h : core.run es.length s = .next u) :
    u.resets = s.resets.over (s.cfg.syncStages + 1) Edge.rstLevel Edge.wrstLevel es := by
  induction es generalizing s with
  | nil => cases h; rfl
  | cons e es ih =>
    obtain ⟨t, ht, hu⟩ := run_succ_next_iff.mp h
    obtain ⟨hinputs, hcfg, _⟩ := step_coreSide_cases hin ht
    obtain ⟨hresets, _⟩ := step_record hfifo hin ht
    rw [ih (hcfg ▸ hfifo) hinputs hu, hcfg, hresets, ResetLog.over_cons]

/-- Agreement comes back only at the end of edges over which the record came to show a joint reset. -/
theorem run_mends_cases {es rest : List Edge} {s u : State} (hfifo : s.cfg.cdcMode = .asyncFifo)
    (hin : s.inputs = es ++ rest) (h : core.run es.length s = .next u) (hagree : u.agree = true) :
    s.agree = true ∨ ∃ as bs, es = as ++ bs ∧
      (s.resets.over (s.cfg.syncStages + 1) Edge.rstLevel Edge.wrstLevel as).joint (s.cfg.syncStages + 1) = true := by
  induction es generalizing s with
  | nil => cases h; exact .inl hagree
  | cons e es ih =>
    obtain ⟨t, ht, hu⟩ := run_succ_next_iff.mp h
    obtain ⟨hinputs, hcfg, _⟩ := step_coreSide_cases hin ht
    obtain ⟨hresets, hstep⟩ := step_record hfifo hin ht
    rcases ih (hcfg ▸ hfifo) hinputs hu with hmended | ⟨as, bs, rfl, hjoint⟩
    · rw [hstep, Bool.or_eq_true, Bool.and_eq_true] at hmended
      rcases hmended with hjoint | ⟨hbefore, _⟩
      · exact .inr ⟨[e], es, rfl, by rwa [hresets] at hjoint⟩
      · exact .inl hbefore
    · rw [hcfg, hresets] at hjoint
      exact .inr ⟨e :: as, bs, rfl, hjoint⟩

/-- After edges that leave the record showing a joint reset the FIFO counts as in agreement. -/
theorem run_agrees_of_joint {es rest : List Edge} {s u : State} (hfifo : s.cfg.cdcMode = .asyncFifo)
    (hin : s.inputs = es ++ rest) (hne : es ≠ []) (h : core.run es.length s = .next u)
    (hjoint : u.resets.joint (s.cfg.syncStages + 1) = true) : u.agree = true := by
  induction es generalizing s with
  | nil => exact absurd rfl hne
  | cons e es ih =>
    obtain ⟨t, ht, hu⟩ := run_succ_next_iff.mp h
    obtain ⟨hinputs, hcfg, _⟩ := step_coreSide_cases hin ht
    rw [← hcfg] at hjoint
    cases es with
    | nil =>
      cases hu
      obtain ⟨_, hstep⟩ := step_record hfifo hin ht
      rw [hstep, ← hcfg, hjoint, Bool.true_or]
    | cons e' es => exact ih (hcfg ▸ hfifo) hinputs (List.cons_ne_nil _ _) hu hjoint

end Sys2Proof.Machine
end

section
/-! PROOFS. The two reset intervals behind the record: what the edges so far show of each side's latest interval, and
of where the two lie (R201, R202; notes/assumptions/6.md). -/

namespace Sys2Proof.Machine

section
variable {level : Edge → Option Bool} {es : List Edge} {i j n : Nat}

theorem lt_length_of_bind_getElem? {k : Nat} {v : Bool} (h : es[k]?.bind level = some v) : k < es.length := by
  by_contra hk
  rw [List.getElem?_eq_none (Nat.not_lt.mp hk)] at h
  cases h

theorem bind_getElem?_snoc {e : Edge} : (es ++ [e])[es.length]?.bind level = level e := by simp

/-- What holds of the level at every edge from the `i`-th on, and at one more. -/
theorem levels_snoc {P : Option Bool → Prop} {e : Edge} (h : ∀ k, i ≤ k → P (es[k]?.bind level)) (he : P (level e)) :
    ∀ k, i ≤ k → P ((es ++ [e])[k]?.bind level) := by
  intro k hk
  rcases lt_trichotomy k es.length with hlt | rfl | hgt
  · rw [List.getElem?_append_left hlt]
    exact h k hk
  · rwa [bind_getElem?_snoc]
  · have hnone := h k hk
    rw [List.getElem?_eq_none hgt.le] at hnone
    rwa [List.getElem?_eq_none (by simpa using hgt)]

/-- Later edges do not change an interval that has been shown. -/
theorem HeldFrom.append (h : HeldFrom level es i j n) (fs : List Edge) : HeldFrom level (es ++ fs) i j n := by
  obtain ⟨hij, hi, hj, hon, hcount⟩ := h
  have hlt := lt_length_of_bind_getElem? hj
  refine ⟨hij, ?_, ?_, fun k hik hkj => ?_, ?_⟩
  · rwa [List.getElem?_append_left (by omega)]
  · rwa [List.getElem?_append_left hlt]
  · rw [List.getElem?_append_left (by omega)]
    exact hon k hik hkj
  · rwa [List.drop_append_of_le_length (by omega), List.take_append_of_le_length (by rw [List.length_drop]; omega)]

theorem HeldFrom.mono {m : Nat} (h : HeldFrom level es i j n) (hmn : m ≤ n) : HeldFrom level es i j m := by
  obtain ⟨hij, hi, hj, hon, hcount⟩ := h
  exact ⟨hij, hi, hj, hon, hmn.trans hcount⟩

/-- An edge with its reset at 1 begins an interval. -/
theorem heldFrom_begin {e : Edge} (es : List Edge) (he : level e = some true) :
    HeldFrom level (es ++ [e]) es.length es.length 1 := by
  have hlast : (es ++ [e])[es.length]?.bind level = some true := bind_getElem?_snoc.trans he
  refine ⟨le_rfl, hlast, hlast, fun k hik hkj => ?_, by simp [he]⟩
  rw [le_antisymm hkj hik, hlast]
  decide

/-- An edge with its reset at 1 makes an interval that still goes on one edge longer. -/
theorem HeldFrom.extend {e : Edge} (h : HeldFrom level es i j n)
    (hon : ∀ k, i ≤ k → es[k]?.bind level ≠ some false) (he : level e = some true) :
    HeldFrom level (es ++ [e]) i es.length (n + 1) := by
  obtain ⟨hij, hi, hj, _, hcount⟩ := h
  have hlt := lt_length_of_bind_getElem? hj
  refine ⟨by omega, ?_, bind_getElem?_snoc.trans he, fun k hik _ => ?_, ?_⟩
  · rwa [List.getElem?_append_left (by omega)]
  · exact levels_snoc (P := (· ≠ some false)) hon (by rw [he]; decide) k hik
  · have hall : ((es ++ [e]).drop i).take (es.length + 1 - i) = es.drop i ++ [e] := by
      rw [List.drop_append_of_le_length (by omega), List.take_of_length_le (by simp; omega)]
    have hearlier := ((List.take_sublist (j + 1 - i) (es.drop i)).filter fun e => level e == some true).length_le
    rw [hall, List.filter_append, List.length_append, List.filter_singleton, he]
    exact Nat.succ_le_succ (hcount.trans hearlier)

end

theorem JointReset.append {n : Nat} {es : List Edge} (h : JointReset n es) (fs : List Edge) :
    JointReset n (es ++ fs) := by
  obtain ⟨i, j, k, l, hrst, hwrst, hil, hkj⟩ := h
  exact ⟨i, j, k, l, hrst.append fs, hwrst.append fs, hil, hkj⟩

-- ---------------------------------------------------------------- one side

/-- The edges, by their places in a list, at which a reset interval was first and last shown. -/
structure Span where
  first : Nat
  last : Nat

/-- What a side's record says over these edges: no reset interval lies in them, and its count is the older one `run₀`;
or the latest interval lies there, as long as the count says, and still goes on if the side is held. -/
inductive Recorded (level : Edge → Option Bool) (es : List Edge) (run₀ : Nat) : Bool → Nat → Option Span → Prop where
  | older : Recorded level es run₀ false run₀ none
  | span {held : Bool} {run : Nat} {v : Span} (hfrom : HeldFrom level es v.first v.last run)
      (hon : held = true → ∀ k, v.first ≤ k → es[k]?.bind level ≠ some false) :
      Recorded level es run₀ held run (some v)

/-- A side's latest interval after the edge at place `n` with this level. -/
def nextSpan (held : Bool) (n : Nat) (v : Option Span) : Option Bool → Option Span
  | some true => some { first := if held then (v.map Span.first).getD n else n, last := n }
  | some false => v
  | none => v

theorem nextSpan_of_ne {held : Bool} {n : Nat} {v : Option Span} {r : Option Bool} (hr : r ≠ some true) :
    nextSpan held n v r = v := by
  rcases r with _ | _ | _
  · rfl
  · rfl
  · exact absurd rfl hr

section
variable {level : Edge → Option Bool} {es : List Edge} {run₀ run : Nat} {held : Bool} {v : Option Span}

/-- A side that is held is in an interval that these edges show. -/
theorem Recorded.exists_span (h : Recorded level es run₀ true run v) :
    ∃ a, v = some a ∧ HeldFrom level es a.first a.last run ∧
      ∀ k, a.first ≤ k → es[k]?.bind level ≠ some false := by
  cases h with
  | span hfrom hon => exact ⟨_, rfl, hfrom, hon rfl⟩

/-- A side of which these edges show no interval is not held, and its count is the older one. -/
theorem Recorded.of_none (h : Recorded level es run₀ held run none) : held = false ∧ run = run₀ := by
  cases h with
  | older => exact ⟨rfl, rfl⟩

/-- The count and the latest interval go together over one more edge. -/
theorem Recorded.snoc (h : Recorded level es run₀ held run v) (limit : Nat) (e : Edge) :
    Recorded level (es ++ [e]) run₀ ((level e).getD held) (countEdges limit run held (level e))
      (nextSpan held es.length v (level e)) := by
  rcases he : level e with _ | _ | _
  case none =>
    cases h with
    | older => exact .older
    | span hfrom hon =>
      exact .span (hfrom.append _) fun hheld => levels_snoc (P := (· ≠ some false)) (hon hheld) (by rw [he]; decide)
  case some.false =>
    cases h with
    | older => exact .older
    | span hfrom hon => exact .span (hfrom.append _) nofun
  case some.true =>
    have hgoesOn : level e ≠ some false := by rw [he]; decide
    cases held with
    | true =>
      obtain ⟨u, rfl, hfrom, hon⟩ := h.exists_span
      exact .span ((hfrom.extend hon he).mono (min_le_right _ _)) fun _ =>
        levels_snoc (P := (· ≠ some false)) hon hgoesOn
    | false =>
      refine .span ((heldFrom_begin es he).mono (min_le_right _ _)) fun _ =>
        levels_snoc (P := (· ≠ some false)) (fun k hk => ?_) hgoesOn
      rw [List.getElem?_eq_none hk]
      nofun

end

-- ---------------------------------------------------------------- the two sides together

/-- The latest intervals of the two sides overlap. -/
def Overlapping (v w : Option Span) : Prop :=
  ∃ a b, v = some a ∧ w = some b ∧ a.first ≤ b.last ∧ b.first ≤ a.last

theorem Overlapping.symm {v w : Option Span} (h : Overlapping v w) : Overlapping w v := by
  obtain ⟨a, b, hv, hw, hab, hba⟩ := h
  exact ⟨b, a, hw, hv, hba, hab⟩

/-- If a side with this level and span was reset at all, then the other side was last reset, at `w.last`, after its
latest edge. -/
def SeenSince (level : Edge → Option Bool) (es : List Edge) (v w : Option Span) : Prop :=
  v = none ∨ ∃ b, w = some b ∧ ∀ k, b.last ≤ k → es[k]?.bind level = none

/-- What the record says of where the two intervals lie, `v` that of `rst` and `w` that of `wrst`, over edges that began
with `m₀` known. -/
def MeetingTells (es : List Edge) (m₀ : Meeting) (v w : Option Span) : Meeting → Prop
  | .apart => True
  | .rstSince => SeenSince Edge.wrstLevel es w v
  | .wrstSince => SeenSince Edge.rstLevel es v w
  | .overlapped => (v = none ∧ w = none ∧ m₀ = .overlapped) ∨ Overlapping v w

section
variable {f g : Edge → Option Bool} {es : List Edge} {run₀ run run₀' run' : Nat} {held held' : Bool}
  {v w : Option Span} {a : Span} {e : Edge}

theorem Recorded.heldFrom (h : Recorded f es run₀ held run (some a)) : HeldFrom f es a.first a.last run := by
  cases h with
  | span hfrom _ => exact hfrom

theorem Recorded.span_bounds (h : Recorded f es run₀ held run (some a)) :
    a.first ≤ a.last ∧ a.last < es.length ∧ es[a.last]?.bind f = some true := by
  obtain ⟨hfirst, _, hlast, _⟩ := h.heldFrom
  exact ⟨hfirst, lt_length_of_bind_getElem? hlast, hlast⟩

/-- A reset at the edge after `es` makes an interval that ends there. -/
theorem Recorded.nextSpan_of_true (h : Recorded f es run₀ held run v) :
    ∃ a, nextSpan held es.length v (some true) = some a ∧ a.first ≤ es.length ∧ a.last = es.length := by
  cases held with
  | false => exact ⟨_, rfl, le_rfl, rfl⟩
  | true =>
    obtain ⟨a, rfl, _⟩ := h.exists_span
    obtain ⟨hle, hlt, _⟩ := h.span_bounds
    exact ⟨_, rfl, hle.trans hlt.le, rfl⟩

/-- An interval that no new one follows keeps its begin. -/
theorem Recorded.nextSpan_goesOn {r : Option Bool} (h : Recorded f es run₀ held run (some a))
    (hon : r = some true → held = true) :
    ∃ b, nextSpan held es.length (some a) r = some b ∧ b.first = a.first ∧ a.last ≤ b.last := by
  by_cases hr : r = some true
  · obtain ⟨_, hlt, _⟩ := h.span_bounds
    rw [hr, hon hr]
    exact ⟨_, rfl, rfl, hlt.le⟩
  · exact ⟨a, nextSpan_of_ne hr, rfl, le_rfl⟩

/-- Both resets at 1 at one edge. -/
theorem overlapping_of_both (hv : Recorded f es run₀ held run v) (hw : Recorded g es run₀' held' run' w) :
    Overlapping (nextSpan held es.length v (some true)) (nextSpan held' es.length w (some true)) := by
  obtain ⟨a, ha, hfirst, hlast⟩ := hv.nextSpan_of_true
  obtain ⟨b, hb, hfirst', hlast'⟩ := hw.nextSpan_of_true
  exact ⟨a, b, ha, hb, hlast' ▸ hfirst, hlast ▸ hfirst'⟩

/-- Two intervals that overlap do so until one of them begins anew. -/
theorem Overlapping.snoc {r r' : Option Bool} (h : Overlapping v w) (hv : Recorded f es run₀ held run v)
    (hw : Recorded g es run₀' held' run' w) (hr : r = some true → held = true) (hr' : r' = some true → held' = true) :
    Overlapping (nextSpan held es.length v r) (nextSpan held' es.length w r') := by
  obtain ⟨a, b, rfl, rfl, hab, hba⟩ := h
  obtain ⟨a', ha', hfirst, hlast⟩ := hv.nextSpan_goesOn hr
  obtain ⟨b', hb', hfirst', hlast'⟩ := hw.nextSpan_goesOn hr'
  exact ⟨a', b', ha', hb', by omega, by omega⟩

/-- A reset that goes on, the other side having been reset since its latest edge. -/
theorem SeenSince.overlapping {r' : Option Bool} (hseen : SeenSince f es v w) (hv : Recorded f es run₀ true run v)
    (hw : Recorded g es run₀' held' run' w) (hr' : r' ≠ some true) :
    Overlapping (nextSpan true es.length v (some true)) (nextSpan held' es.length w r') := by
  obtain ⟨a, rfl, _⟩ := hv.exists_span
  obtain hnone | ⟨b, rfl, hquiet⟩ := hseen
  · cases hnone
  obtain ⟨hle, _, hlast⟩ := hv.span_bounds
  obtain ⟨hle', hlt', _⟩ := hw.span_bounds
  have hbefore : a.last < b.last := by
    by_contra hnot
    rw [hquiet a.last (Nat.not_lt.mp hnot)] at hlast
    cases hlast
  exact ⟨_, b, rfl, nextSpan_of_ne hr', hle.trans hbefore.le, hle'.trans hlt'.le⟩

/-- A side's clock stands at an edge, and the other side is reset there or was seen reset before. -/
theorem SeenSince.snoc (hf : f e = none) (h : g e = some true ∨ (g e ≠ some true ∧ SeenSince f es v w)) :
    SeenSince f (es ++ [e]) (nextSpan held es.length v (f e)) (nextSpan held' es.length w (g e)) := by
  rw [hf]
  rcases h with hg | ⟨hg, hnone | ⟨b, rfl, hquiet⟩⟩
  · rw [hg]
    refine .inr ⟨_, rfl, levels_snoc (P := (· = none)) (fun k hk => ?_) hf⟩
    rw [List.getElem?_eq_none hk]
    rfl
  · exact .inl hnone
  · exact .inr ⟨b, nextSpan_of_ne hg, levels_snoc (P := (· = none)) hquiet hf⟩

end

/-- The record `l` after the edges `es` from the record `l₀`, as the latest intervals `v` of `rst` and `w` of `wrst`
explain it. -/
structure ResetLog.Tells (l₀ : ResetLog) (es : List Edge) (l : ResetLog) (v w : Option Span) : Prop where
  rst : Recorded Edge.rstLevel es l₀.rstEdges l.rstHeld l.rstEdges v
  wrst : Recorded Edge.wrstLevel es l₀.wrstEdges l.wrstHeld l.wrstEdges w
  meeting : MeetingTells es l₀.meeting v w l.meeting

section
variable {l₀ l : ResetLog} {es : List Edge} {v w : Option Span}

/-- What the record says of where the intervals lie after one more edge. -/
theorem ResetLog.Tells.meeting_snoc (h : l₀.Tells es l v w) (n : Nat) (e : Edge) :
    MeetingTells (es ++ [e]) l₀.meeting (nextSpan l.rstHeld es.length v e.rstLevel)
      (nextSpan l.wrstHeld es.length w e.wrstLevel) (l.next n e.rstLevel e.wrstLevel).meeting := by
  obtain ⟨hrst, hwrst, hmeeting⟩ := h
  cases hm : (l.next n e.rstLevel e.wrstLevel).meeting with
  | apart => trivial
  | rstSince =>
    rw [ResetLog.next_meeting_of_ne (by rw [hm]; decide)] at hm
    obtain ⟨hnone, hseen⟩ := Meeting.pass_rstSince hm
    exact SeenSince.snoc hnone (hseen.imp_right fun ⟨hr, hbefore⟩ => ⟨hr, by rwa [hbefore] at hmeeting⟩)
  | wrstSince =>
    rw [ResetLog.next_meeting_of_ne (by rw [hm]; decide)] at hm
    obtain ⟨hnone, hseen⟩ := Meeting.pass_wrstSince hm
    exact SeenSince.snoc hnone (hseen.imp_right fun ⟨hr, hbefore⟩ => ⟨hr, by rwa [hbefore] at hmeeting⟩)
  | overlapped =>
    rcases ResetLog.next_overlapped_cases hm with hmeets | ⟨hover, hbegins⟩
    · rcases ResetLog.meets_cases hmeets with ⟨hr, hw⟩ | ⟨hr, hw, hheld, hsince⟩ | ⟨hw, hr, hheld, hsince⟩
      · rw [hr, hw]
        exact .inr (overlapping_of_both hrst hwrst)
      · rw [hsince] at hmeeting
        rw [hheld] at hrst ⊢
        rw [hr]
        exact .inr (SeenSince.overlapping hmeeting hrst hwrst hw)
      · rw [hsince] at hmeeting
        rw [hheld] at hwrst ⊢
        rw [hw]
        exact .inr (SeenSince.overlapping hmeeting hwrst hrst hr).symm
    · have ⟨hr, hw⟩ : (e.rstLevel = some true → l.rstHeld = true) ∧ (e.wrstLevel = some true → l.wrstHeld = true) := by
        simpa [ResetLog.begins] using hbegins
      rw [hover] at hmeeting
      rcases hmeeting with ⟨rfl, rfl, hover₀⟩ | hoverlap
      · have hr' : e.rstLevel ≠ some true := fun h => absurd (hrst.of_none.1.symm.trans (hr h)) (by decide)
        have hw' : e.wrstLevel ≠ some true := fun h => absurd (hwrst.of_none.1.symm.trans (hw h)) (by decide)
        exact .inl ⟨nextSpan_of_ne hr', nextSpan_of_ne hw', hover₀⟩
      · exact .inr (hoverlap.snoc hrst hwrst hr hw)

theorem ResetLog.Tells.snoc (h : l₀.Tells es l v w) (n : Nat) (e : Edge) :
    l₀.Tells (es ++ [e]) (l.next n e.rstLevel e.wrstLevel) (nextSpan l.rstHeld es.length v e.rstLevel)
      (nextSpan l.wrstHeld es.length w e.wrstLevel) :=
  ⟨h.rst.snoc n e, h.wrst.snoc n e, h.meeting_snoc n e⟩

end

/-- From a record with neither side in reset, the record after any edges is explained by two intervals. -/
theorem ResetLog.exists_tells {l₀ : ResetLog} (hrst : l₀.rstHeld = false) (hwrst : l₀.wrstHeld = false) (n : Nat)
    (es : List Edge) : ∃ v w, l₀.Tells es (l₀.over n Edge.rstLevel Edge.wrstLevel es) v w := by
  induction es using List.reverseRecOn with
  | nil =>
    refine ⟨none, none, by rw [over_nil, hrst]; exact .older, by rw [over_nil, hwrst]; exact .older, ?_⟩
    rw [over_nil]
    cases hm : l₀.meeting with
    | apart => trivial
    | rstSince | wrstSince => exact .inl rfl
    | overlapped => exact .inl ⟨rfl, rfl, rfl⟩
  | append_singleton es e ih =>
    obtain ⟨v, w, h⟩ := ih
    rw [over_append]
    exact ⟨_, _, h.snoc n e⟩

/-- Over edges that lead from a record with neither side in reset and no joint reset to one that shows a joint reset,
both sides are reset together (R201). -/
theorem jointReset_of_joint {l₀ : ResetLog} {n : Nat} {es : List Edge} (hrst : l₀.rstHeld = false)
    (hwrst : l₀.wrstHeld = false) (hbefore : l₀.joint n = false)
    (h : (l₀.over n Edge.rstLevel Edge.wrstLevel es).joint n = true) : JointReset n es := by
  obtain ⟨v, w, hr, hw, hmeeting⟩ := ResetLog.exists_tells hrst hwrst n es
  simp only [ResetLog.joint, Bool.and_eq_true, beq_iff_eq, decide_eq_true_eq] at h
  obtain ⟨⟨hover, hrstEdges⟩, hwrstEdges⟩ := h
  rw [hover] at hmeeting
  rcases hmeeting with ⟨rfl, rfl, hover₀⟩ | ⟨a, b, rfl, rfl, hab, hba⟩
  · obtain ⟨_, hrun⟩ := hr.of_none
    obtain ⟨_, hrun'⟩ := hw.of_none
    rw [hrun] at hrstEdges
    rw [hrun'] at hwrstEdges
    simp [ResetLog.joint, hover₀, hrstEdges, hwrstEdges] at hbefore
  · exact ⟨_, _, _, _, hr.heldFrom.mono hrstEdges, hw.heldFrom.mono hwrstEdges, hab, hba⟩

end Sys2Proof.Machine
end

section
/-! PROOFS. What breaks the agreement of the FIFO, and what alone mends it (R201, R202). -/

namespace Sys2Proof.Machine

/-- An edge at which a side alone begins a reset shows no joint reset. -/
theorem ResetLog.next_joint_of_begins {l : ResetLog} {r w : Option Bool} (m n : Nat) (hbegins : l.begins r w = true)
    (halone : ¬(r = some true ∧ w = some true)) : (l.next n r w).joint m = false := by
  rw [Bool.eq_false_iff]
  intro hjoint
  simp only [ResetLog.joint, Bool.and_eq_true, beq_iff_eq] at hjoint
  obtain ⟨⟨hover, _⟩, _⟩ := hjoint
  rcases ResetLog.next_overlapped_cases hover with hmeets | ⟨_, hnot⟩
  · rcases ResetLog.meets_cases hmeets with hboth | ⟨hr, hw, hheld, _⟩ | ⟨hw, hr, hheld, _⟩
    · exact halone hboth
    · simp [ResetLog.begins, hr, hw, hheld] at hbegins
    · simp [ResetLog.begins, hr, hw, hheld] at hbegins
  · rw [hbegins] at hnot
    cases hnot

/-- An edge at which a side alone begins a reset, and which breaks the agreement, leaves the FIFO out of agreement. -/
theorem step_broken {s t : State} {e : Edge} {rest : List Edge} (hfifo : s.cfg.cdcMode = .asyncFifo)
    (hin : s.inputs = e :: rest) (h : step s = .next t) (hbegins : s.resets.begins e.rstLevel e.wrstLevel = true)
    (halone : ¬(e.rstLevel = some true ∧ e.wrstLevel = some true)) (hbreaks : breaksAgreement e s t = true) :
    t.agree = false := by
  obtain ⟨hresets, hagree⟩ := step_record hfifo hin h
  rw [hagree, hresets, ResetLog.next_joint_of_begins _ _ hbegins halone, hbreaks]
  simp

/-- Settles O30: an edge that begins a reset of one side alone shows no joint reset, so the FIFO is in agreement after it
only if nothing broke it; and agreement comes back only when the record shows a joint reset, which is one. -/
theorem oneSidedResetLastsUntilJointReset : Obligations.OneSidedResetLastsUntilJointReset := by
  refine ⟨fun s t e rest hfifo hin h => ⟨?readAlone, ?writeAlone, ?readAtZero⟩, ?mends⟩
  case readAlone =>
    intro hr hw hheld hwptr
    refine step_broken hfifo hin h ?_ (fun hboth => hw hboth.2) ?_
    · simp [ResetLog.begins, hr, hheld]
    · simp [breaksAgreement, hr, hw, hheld, hwptr]
  case writeAlone =>
    intro hw hr hheld hrptr
    refine step_broken hfifo hin h ?_ (fun hboth => hr hboth.1) ?_
    · simp [ResetLog.begins, hw, hheld]
    · simp [breaksAgreement, hr, hw, hrptr]
  case readAtZero =>
    intro hr hw hagree hwptr
    obtain ⟨_, hstep⟩ := step_record hfifo hin h
    have hkept : breaksAgreement e s t = false := by simp [breaksAgreement, hr, hw, hwptr]
    rw [hstep, hagree, hkept]
    simp
  case mends =>
    intro s t es rest hfifo hin hbroken hrst hwrst hjoint h hagree
    obtain hbefore | ⟨as, bs, rfl, hmended⟩ := run_mends_cases hfifo hin h hagree
    · rw [hbroken] at hbefore
      cases hbefore
    · exact (jointReset_of_joint hrst hwrst hjoint hmended).append bs

end Sys2Proof.Machine
end

section
/-! PROOFS. The record over edges that all assert their reset: the counts are full and the intervals overlap once the
edges are a joint reset (R201; notes/assumptions/6.md). -/

namespace Sys2Proof.Machine

theorem rstLevel_of_allReset {e : Edge} (h : e.allReset = true) : e.rstLevel ≠ some false := by
  cases e with
  | wclk w => nofun
  | clk c | both c w rNew wNew => simp_all [Edge.allReset, Edge.rstLevel, Edge.clkPart]

theorem wrstLevel_of_allReset {e : Edge} (h : e.allReset = true) : e.wrstLevel ≠ some false := by
  cases e with
  | clk c => nofun
  | wclk w | both c w rNew wNew => simp_all [Edge.allReset, Edge.wrstLevel, Edge.wclkPart]

/-- A side in reset stays so at an edge that does not release it. -/
theorem getD_true_of_ne {r : Option Bool} (hr : r ≠ some false) : r.getD true = true := by
  rcases r with _ | _ | _
  · rfl
  · exact absurd rfl hr
  · rfl

theorem Meeting.swap_eq_overlapped {m : Meeting} (h : m.swap = .overlapped) : m = .overlapped := by
  cases m with
  | overlapped => rfl
  | apart | rstSince | wrstSince => cases h

/-- The edges counted of the interval of `rst` that goes on, none if none does. -/
def ResetLog.running (l : ResetLog) : Nat := if l.rstHeld then l.rstEdges else 0

theorem ResetLog.next_running_of_true (l : ResetLog) (n : Nat) (w : Option Bool) :
    (l.next n (some true) w).running = min n (l.running + 1) := by
  simp only [running, next, countEdges, Option.getD_some, if_true]
  split_ifs <;> rfl

theorem ResetLog.next_running_of_none (l : ResetLog) (n : Nat) (w : Option Bool) :
    (l.next n none w).running = l.running := rfl

section
variable {n : Nat} {f g : Edge → Option Bool} {l : ResetLog} {es : List Edge} (hf : ∀ e ∈ es, f e ≠ some false)
include hf

/-- A side is held after edges that assert its reset, if it was before or its clock rises. -/
theorem ResetLog.over_rstHeld (h : l.rstHeld = true ∨ ∃ e ∈ es, f e = some true) :
    (l.over n f g es).rstHeld = true := by
  induction es generalizing l with
  | nil => simpa using h
  | cons e es ih =>
    rw [List.forall_mem_cons] at hf
    obtain ⟨he, hf⟩ := hf
    rw [List.exists_mem_cons_iff] at h
    rw [over_cons]
    refine ih hf ?_
    rw [ResetLog.next_rstHeld]
    rcases hlevel : f e with _ | _ | _
    case none => simpa [hlevel] using h
    case some.false => exact absurd hlevel he
    case some.true => exact .inl rfl

/-- The interval that goes on grows by every rise of the clock, up to `n`. -/
theorem ResetLog.min_over_running :
    min n (l.over n f g es).running = min n (l.running + (es.filter fun e => f e == some true).length) := by
  induction es generalizing l with
  | nil => rfl
  | cons e es ih =>
    rw [List.forall_mem_cons] at hf
    obtain ⟨he, hf⟩ := hf
    rw [over_cons, ih hf]
    rcases hlevel : f e with _ | _ | _
    case none => simp [hlevel, next_running_of_none]
    case some.false => exact absurd hlevel he
    case some.true =>
      rw [next_running_of_true, List.filter_cons_of_pos (by rw [hlevel]; rfl), List.length_cons]
      omega

theorem ResetLog.over_rstEdges_le (h : l.rstEdges ≤ n ∨ ∃ e ∈ es, f e = some true) :
    (l.over n f g es).rstEdges ≤ n := by
  induction es generalizing l with
  | nil => simpa using h
  | cons e es ih =>
    rw [List.forall_mem_cons] at hf
    obtain ⟨he, hf⟩ := hf
    rw [List.exists_mem_cons_iff] at h
    rw [over_cons]
    refine ih hf ?_
    rcases hlevel : f e with _ | _ | _
    case none => simpa [hlevel, ResetLog.next, countEdges] using h
    case some.false => exact absurd hlevel he
    case some.true => exact .inl (min_le_left _ _)

/-- A reset held for `n` edges or more fills its count. -/
theorem ResetLog.over_rst_of_heldFrom {i j : Nat} (h : HeldFrom f es i j n) :
    (l.over n f g es).rstHeld = true ∧ (l.over n f g es).rstEdges = n := by
  obtain ⟨_, hi, _, _, hcount⟩ := h
  obtain ⟨e, he, hlevel⟩ := Option.bind_eq_some_iff.mp hi
  have hrises : ∃ e ∈ es, f e = some true := ⟨e, List.mem_of_getElem? he, hlevel⟩
  have hheld : (l.over n f g es).rstHeld = true := over_rstHeld hf (.inr hrises)
  have hle : (l.over n f g es).rstEdges ≤ n := over_rstEdges_le hf (.inr hrises)
  have hmin : min n (l.over n f g es).running = _ := min_over_running hf
  rw [running, if_pos hheld] at hmin
  have hsub := (((List.take_sublist (j + 1 - i) (es.drop i)).trans (List.drop_sublist i es)).filter
    fun e => f e == some true).length_le
  exact ⟨hheld, by omega⟩

end

-- ---------------------------------------------------------------- the two intervals overlap

theorem ResetLog.next_overlapped_of_meets {l : ResetLog} {r w : Option Bool} (n : Nat) (h : l.meets r w = true) :
    (l.next n r w).meeting = .overlapped := by
  simp [next, h]

theorem ResetLog.next_wrstSince {l : ResetLog} {w : Option Bool} (n : Nat) (h : l.meeting = .wrstSince)
    (hw : w ≠ some false) : (l.next n none w).meeting = .wrstSince := by
  rcases w with _ | _ | _
  · simp [next, meets, Meeting.pass, h]
  · exact absurd rfl hw
  · simp [next, meets, Meeting.pass, h]

/-- An edge at which `wrst` is 1, alone or with `rst`, while `rst` is in its interval. -/
theorem ResetLog.next_meeting_of_wrst {l : ResetLog} {r : Option Bool} (n : Nat) (hr : r ≠ some false) :
    (l.next n r (some true)).meeting = .overlapped ∨
      (r = none ∧ (l.next n r (some true)).meeting = .wrstSince) := by
  rcases r with _ | _ | _
  · by_cases hover : (l.next n none (some true)).meeting = .overlapped
    · exact .inl hover
    · exact .inr ⟨rfl, next_meeting_of_ne hover⟩
  · exact absurd rfl hr
  · exact .inl (next_overlapped_of_meets n rfl)

section
variable {n : Nat} {f g : Edge → Option Bool} {l : ResetLog} {es : List Edge}
  (hall : ∀ e ∈ es, f e ≠ some false ∧ g e ≠ some false)
include hall

/-- While both sides stay in reset their intervals overlap for good: they do already, or the second has been seen since
the first one's latest edge and another such edge comes. -/
theorem ResetLog.over_overlapped_of_held (hrst : l.rstHeld = true) (hwrst : l.wrstHeld = true)
    (h : l.meeting = .overlapped ∨ (l.meeting = .wrstSince ∧ ∃ e ∈ es, f e = some true)) :
    (l.over n f g es).meeting = .overlapped := by
  induction es generalizing l with
  | nil => simpa using h
  | cons e es ih =>
    rw [List.forall_mem_cons] at hall
    obtain ⟨⟨he, he'⟩, hall⟩ := hall
    have hrst' : (l.next n (f e) (g e)).rstHeld = true := by rw [next_rstHeld, hrst]; exact getD_true_of_ne he
    have hwrst' : (l.next n (f e) (g e)).wrstHeld = true := by rw [next_wrstHeld, hwrst]; exact getD_true_of_ne he'
    rw [over_cons]
    refine ih hall hrst' hwrst' ?_
    rcases h with hover | ⟨hsince, hlater⟩
    · exact .inl (by simp [next, begins, hover, hrst, hwrst])
    · rcases hlevel : f e with _ | _ | _
      case none =>
        exact .inr ⟨next_wrstSince n hsince he', by simpa [hlevel] using hlater⟩
      case some.false => exact absurd hlevel he
      case some.true => exact .inl (next_overlapped_of_meets n (by simp [meets, hrst, hsince]))

end

/-- An edge with `wrst` at 1, and `rst` at 1 at this edge too, or at an edge before it and at one after it. -/
theorem ResetLog.over_overlapped_around {n : Nat} {f g : Edge → Option Bool} {as bs : List Edge} {e : Edge}
    (l : ResetLog) (hall : ∀ x ∈ as ++ e :: bs, f x ≠ some false ∧ g x ≠ some false) (hg : g e = some true)
    (haround : f e = some true ∨ ((∃ a ∈ as, f a = some true) ∧ ∃ b ∈ bs, f b = some true)) :
    (l.over n f g (as ++ e :: bs)).meeting = .overlapped := by
  rw [List.forall_mem_append, List.forall_mem_cons] at hall
  obtain ⟨hbefore, ⟨he, _⟩, hafter⟩ := hall
  rw [over_append, over_cons, hg]
  refine over_overlapped_of_held hafter ?_ rfl ?_
  · rcases haround with hf | ⟨hearlier, _⟩
    · rw [hf]; rfl
    · have hheld : (l.over n f g as).rstHeld = true := over_rstHeld (fun a ha => (hbefore a ha).1) (.inr hearlier)
      rw [next_rstHeld, hheld]
      exact getD_true_of_ne he
  · refine (next_meeting_of_wrst n he).imp_right fun ⟨hnone, hsince⟩ => ⟨hsince, ?_⟩
    rcases haround with hf | ⟨_, hlater⟩
    · rw [hnone] at hf; cases hf
    · exact hlater

theorem exists_level_of_bind {level : Edge → Option Bool} {es : List Edge} {i : Nat} {v : Bool}
    (h : es[i]?.bind level = some v) : ∃ e, es[i]? = some e ∧ level e = some v :=
  Option.bind_eq_some_iff.mp h

/-- Where a reset is 1 at two edges, and the other one between them or at one of them, the intervals overlap. -/
theorem ResetLog.over_overlapped {n : Nat} {f g : Edge → Option Bool} {es : List Edge} {i j k : Nat} (l : ResetLog)
    (hall : ∀ e ∈ es, f e ≠ some false ∧ g e ≠ some false) (hi : es[i]?.bind f = some true)
    (hk : es[k]?.bind g = some true) (hj : es[j]?.bind f = some true) (hik : i ≤ k) (hkj : k ≤ j) :
    (l.over n f g es).meeting = .overlapped := by
  obtain ⟨a, ha, hfa⟩ := exists_level_of_bind hi
  obtain ⟨b, hb, hfb⟩ := exists_level_of_bind hj
  obtain ⟨e, he, hg⟩ := exists_level_of_bind hk
  have hsplit : es = es.take k ++ e :: es.drop (k + 1) := by
    obtain ⟨hlt, rfl⟩ := List.getElem?_eq_some_iff.mp he
    rw [List.getElem_cons_drop, List.take_append_drop]
  have haround : f e = some true ∨
      ((∃ a ∈ es.take k, f a = some true) ∧ ∃ b ∈ es.drop (k + 1), f b = some true) := by
    rcases hik.lt_or_eq with hik | rfl
    · rcases hkj.lt_or_eq with hkj | rfl
      · have hbefore : (es.take k)[i]? = some a := (List.getElem?_take_of_lt hik).trans ha
        have hafter : (es.drop (k + 1))[j - (k + 1)]? = some b := by
          rw [List.getElem?_drop, Nat.add_sub_cancel' hkj, hb]
        exact .inr ⟨⟨a, List.mem_of_getElem? hbefore, hfa⟩, b, List.mem_of_getElem? hafter, hfb⟩
      · cases he.symm.trans hb
        exact .inl hfb
    · cases he.symm.trans ha
      exact .inl hfa
  rw [hsplit] at hall ⊢
  exact over_overlapped_around l hall hg haround

theorem ResetLog.eq_afterJoint {l : ResetLog} {n : Nat} (hrst : l.rstHeld = true) (hwrst : l.wrstHeld = true)
    (hrstEdges : l.rstEdges = n) (hwrstEdges : l.wrstEdges = n) (hover : l.meeting = .overlapped) :
    l = ResetLog.afterJoint n := by
  calc l = ⟨l.rstHeld, l.wrstHeld, l.rstEdges, l.wrstEdges, l.meeting⟩ := rfl
    _ = ResetLog.afterJoint n := by rw [hrst, hwrst, hrstEdges, hwrstEdges, hover]; rfl

/-- Over edges that all assert their reset and are a joint reset, the record comes to show it in full. -/
theorem over_eq_afterJoint {n : Nat} {es : List Edge} (l : ResetLog) (hall : ∀ e ∈ es, e.allReset = true)
    (h : JointReset n es) : l.over n Edge.rstLevel Edge.wrstLevel es = ResetLog.afterJoint n := by
  obtain ⟨i, j, k, m, hrst, hwrst, him, hkj⟩ := h
  have hrsts : ∀ e ∈ es, e.rstLevel ≠ some false := fun e he => rstLevel_of_allReset (hall e he)
  have hwrsts : ∀ e ∈ es, e.wrstLevel ≠ some false := fun e he => wrstLevel_of_allReset (hall e he)
  obtain ⟨hrstHeld, hrstEdges⟩ := ResetLog.over_rst_of_heldFrom (l := l) (g := Edge.wrstLevel) hrsts hrst
  obtain ⟨hwrstHeld, hwrstEdges⟩ := ResetLog.over_rst_of_heldFrom (l := l.swap) (g := Edge.rstLevel) hwrsts hwrst
  rw [ResetLog.over_swap] at hwrstHeld hwrstEdges
  have hover : (l.over n Edge.rstLevel Edge.wrstLevel es).meeting = .overlapped := by
    obtain ⟨hij, hi, hj, _⟩ := hrst
    obtain ⟨hkm, hk, hm, _⟩ := hwrst
    rcases le_total i k with hik | hki
    · exact ResetLog.over_overlapped l (fun e he => ⟨hrsts e he, hwrsts e he⟩) hi hk hj hik hkj
    · have hswap := ResetLog.over_overlapped (n := n) l.swap (fun e he => ⟨hwrsts e he, hrsts e he⟩) hk hi hm hki him
      rw [ResetLog.over_swap] at hswap
      exact Meeting.swap_eq_overlapped hswap
  exact ResetLog.eq_afterJoint hrstHeld hwrstHeld hrstEdges hwrstEdges hover

end Sys2Proof.Machine
end

section
/-! PROOFS. Edges that all assert their reset: every one answers, and each side's registers take their reset values once
its clock rises (R161, R162, R200, R203). -/

namespace Sys2Proof.Machine

theorem rst_of_allReset {e : Edge} {c : ClkIn} (h : e.allReset = true) (hc : e.clkPart = some c) : c.rst = true := by
  have hlevel := rstLevel_of_allReset h
  rw [Edge.rstLevel, hc, Option.map_some] at hlevel
  simpa using hlevel

theorem wrst_of_allReset {e : Edge} {w : WclkIn} (h : e.allReset = true) (hw : e.wclkPart = some w) :
    w.wrst = true := by
  have hlevel := wrstLevel_of_allReset h
  rw [Edge.wrstLevel, hw, Option.map_some] at hlevel
  simpa using hlevel

/-- The registers that RESET writes hold their reset values (R46, R162). -/
def ClkSideReset (s : State) : Prop :=
  s.core = Core.reset ∧ s.out = Outputs.reset ∧ (s.cfg.cdcMode = .asyncFifo → s.rd = ReadSide.reset s.cfg.syncStages)

/-- The registers that WRESET writes hold their reset values, and no slot of the storage has a value (R151, R161;
notes/assumptions/7.md). -/
def WclkSideReset (s : State) : Prop := s.wr = WriteSide.reset s.cfg.syncStages ∧ s.mem = []

section
variable {s t : State} {e : Edge} {rest : List Edge} (hin : s.inputs = e :: rest) (hreset : e.allReset = true)
include hin hreset

/-- No byte is taken while `rst = 1`, so an edge that asserts its resets answers unless `wclk` is foreign (R200). -/
theorem step_answers_of_allReset (hforeign : ¬(s.cfg.cdcMode = .none ∧ ∃ w, e.wclkPart = some w)) :
    ∃ t, step s = .next t :=
  step_answers hin hforeign fun ⟨_, ⟨_, hc, hr⟩, _⟩ => absurd (hr.symm.trans (rst_of_allReset hreset hc)) (by decide)

variable (h : step s = .next t)
include h

theorem step_resets_clkSide (hs : e.clkPart ≠ none ∨ ClkSideReset s) : ClkSideReset t := by
  obtain ⟨_, hcfg, ⟨_, ⟨w, rfl⟩, hcore, hout⟩ | ⟨c, p, ⟨hc, hnone⟩, _, _⟩⟩ := step_coreSide_cases hin h
  · obtain hrises | ⟨hcore₀, hout₀, hrd₀⟩ := hs
    · exact absurd rfl hrises
    refine ⟨hcore.trans hcore₀, hout.trans hout₀, ?_⟩
    rw [step_keeps_readSide hin rfl h, hcfg]
    exact hrd₀
  · obtain ⟨t', ht', _, hcore, hout, _, _, hrd⟩ :=
      resetOverridesEveryInput s e c rest hin hc hnone (rst_of_allReset hreset hc)
    cases h.symm.trans ht'
    refine ⟨hcore, hout, ?_⟩
    rw [hcfg]
    exact hrd

theorem step_resets_wclkSide (hs : e.wclkPart ≠ none ∨ WclkSideReset s) : WclkSideReset t := by
  obtain ⟨hnil, _⟩ | ⟨e', rest', is, u, hin', hf, hrun, rfl⟩ := step_next_cases h
  · rw [hin] at hnil; cases hnil
  cases hin.symm.trans hin'
  rw [WclkSideReset, State.noteEdge_wr, State.noteEdge_mem, State.noteEdge_cfg, execAll_keeps_cfg hrun]
  cases hw : e.wclkPart with
  | some w => exact edge_resets_writeSide (s := { s with inputs := rest }) hf hrun hw (wrst_of_allReset hreset hw)
  | none =>
    obtain hrises | ⟨hwr₀, hmem₀⟩ := hs
    · exact absurd hw hrises
    obtain ⟨hwr, hmem⟩ := edge_keeps_writeSide (s := { s with inputs := rest }) hf hrun hw
    exact ⟨hwr.trans hwr₀, hmem.trans hmem₀⟩

end

-- ---------------------------------------------------------------- runs

section
variable {es rest : List Edge} {s u : State} (hin : s.inputs = es ++ rest) (hall : ∀ e ∈ es, e.allReset = true)
include hin hall

theorem run_answers_of_allReset (hforeign : s.cfg.cdcMode = .none → ∀ e ∈ es, e.wclkPart = none) :
    ∃ u, core.run es.length s = .next u := by
  induction es generalizing s with
  | nil => exact ⟨s, rfl⟩
  | cons e es ih =>
    rw [List.forall_mem_cons] at hall
    obtain ⟨he, hall⟩ := hall
    obtain ⟨t, ht⟩ := step_answers_of_allReset hin he fun ⟨hnone, w, hw⟩ => by
      rw [hforeign hnone e List.mem_cons_self] at hw; cases hw
    obtain ⟨hinputs, hcfg, _⟩ := step_coreSide_cases hin ht
    obtain ⟨u, hu⟩ := ih hinputs hall fun hnone e he => hforeign (hcfg ▸ hnone) e (List.mem_cons_of_mem _ he)
    exact ⟨u, run_succ_next_iff.mpr ⟨t, ht, hu⟩⟩

/-- What some of these edges establish and every other keeps holds after them if one of these is among them. -/
theorem run_establishes {P : State → Prop} {sets : Edge → Prop}
    (hstep : ∀ {s t : State} {e : Edge} {rest : List Edge}, s.inputs = e :: rest → e.allReset = true →
      step s = .next t → sets e ∨ P s → P t)
    (h : core.run es.length s = .next u) (hs : (∃ e ∈ es, sets e) ∨ P s) : P u := by
  induction es generalizing s with
  | nil =>
    cases h
    simpa using hs
  | cons e es ih =>
    rw [List.forall_mem_cons] at hall
    obtain ⟨he, hall⟩ := hall
    obtain ⟨t, ht, hu⟩ := run_succ_next_iff.mp h
    obtain ⟨hinputs, _⟩ := step_coreSide_cases hin ht
    rw [List.exists_mem_cons_iff, or_assoc] at hs
    refine ih hinputs hall hu ?_
    rcases hs with hset | hlater | hbefore
    · exact .inr (hstep hin he ht (.inl hset))
    · exact .inl hlater
    · exact .inr (hstep hin he ht (.inr hbefore))

theorem run_resets_clkSide (hrises : ∃ e ∈ es, e.clkPart ≠ none) (h : core.run es.length s = .next u) :
    ClkSideReset u :=
  run_establishes hin hall step_resets_clkSide h (.inl hrises)

theorem run_resets_wclkSide (hrises : ∃ e ∈ es, e.wclkPart ≠ none) (h : core.run es.length s = .next u) :
    WclkSideReset u :=
  run_establishes hin hall step_resets_wclkSide h (.inl hrises)

end

theorem run_takes_edges {es rest : List Edge} {s u : State} (hin : s.inputs = es ++ rest)
    (h : core.run es.length s = .next u) : u.inputs = rest ∧ u.cfg = s.cfg :=
  run_edges_induction (R := fun s _ u => u.cfg = s.cfg) (fun _ => rfl)
    (fun s t _ _ _ _ _ ht hcfg => hcfg.trans (parametersNeverChange s t ht)) hin h

/-- A block with the FIFO whose two sides hold their reset values is in its reset state but for the model's bookkeeping.
-/
theorem eq_resetWith {s : State} (hfifo : s.cfg.cdcMode = .asyncFifo) (hin : s.inputs = []) (hclk : ClkSideReset s)
    (hwclk : WclkSideReset s) : s = { State.resetWith s.cfg with agree := s.agree, resets := s.resets } := by
  obtain ⟨hcore, hout, hrd⟩ := hclk
  obtain ⟨hwr, hmem⟩ := hwclk
  calc s = ⟨s.cfg, s.inputs, s.core, s.out, s.mem, s.wr, s.rd, s.agree, s.resets⟩ := rfl
    _ = _ := by rw [hin, hcore, hout, hmem, hwr, hrd hfifo]; rfl

theorem exists_rises_of_heldFrom {α : Type} {part : Edge → Option α} {level : α → Bool} {es : List Edge} {i j n : Nat}
    (h : HeldFrom (fun e => (part e).map level) es i j n) : ∃ e ∈ es, part e ≠ none := by
  obtain ⟨_, hi, _⟩ := h
  obtain ⟨e, he, hlevel⟩ := exists_level_of_bind hi
  refine ⟨e, List.mem_of_getElem? he, fun hnone => ?_⟩
  rw [hnone] at hlevel
  cases hlevel

/-- Settles O59: reset edges answer, each side takes its reset values when its clock first rises and keeps them; over a
joint reset the record comes to show it, which mends the agreement. -/
theorem resetReachesTheResetState : Obligations.ResetReachesTheResetState := by
  intro s es hin hall
  have hin' : s.inputs = es ++ [] := hin.trans (List.append_nil es).symm
  have hregisters (hfifo : s.cfg.cdcMode = .asyncFifo) (hclk : ∃ e ∈ es, e.clkPart ≠ none)
      (hwclk : ∃ e ∈ es, e.wclkPart ≠ none) : ∃ u, core.run es.length s = .next u ∧
        u = { State.resetWith s.cfg with agree := u.agree, resets := u.resets } := by
    obtain ⟨u, hu⟩ := run_answers_of_allReset hin' hall fun hnone => by rw [hfifo] at hnone; cases hnone
    obtain ⟨hinputs, hcfg⟩ := run_takes_edges hin' hu
    exact ⟨u, hu, hcfg ▸ eq_resetWith (hcfg ▸ hfifo) hinputs (run_resets_clkSide hin' hall hclk hu)
      (run_resets_wclkSide hin' hall hwclk hu)⟩
  refine ⟨fun hfifo hclk hwclk => ?registers, fun hfifo hjoint => ?joint, fun hnone hne hclk => ?plain⟩
  case registers =>
    obtain ⟨u, hu, heq⟩ := hregisters hfifo hclk hwclk
    exact ⟨u.agree, u.resets, heq ▸ hu⟩
  case joint =>
    have ⟨_, _, _, _, hrst, hwrst, _⟩ := hjoint
    have hclk := exists_rises_of_heldFrom hrst
    obtain ⟨u, hu, heq⟩ := hregisters hfifo hclk (exists_rises_of_heldFrom hwrst)
    have hresets : u.resets = ResetLog.afterJoint (s.cfg.syncStages + 1) :=
      (run_resets hfifo hin' hu).trans (over_eq_afterJoint _ hall hjoint)
    have hagree : u.agree = true := by
      obtain ⟨e, he, _⟩ := hclk
      refine run_agrees_of_joint hfifo hin' (List.ne_nil_of_mem he) hu ?_
      rw [hresets]
      simp [ResetLog.joint, ResetLog.afterJoint]
    rw [hagree, hresets] at heq
    rw [hu, heq]
    rfl
  case plain =>
    obtain ⟨u, hu⟩ := run_answers_of_allReset hin' hall fun _ e he => by
      obtain ⟨c, rfl⟩ := hclk e he
      rfl
    have hrises : ∃ e ∈ es, e.clkPart ≠ none := by
      obtain ⟨e, he⟩ := List.exists_mem_of_ne_nil es hne
      obtain ⟨c, rfl⟩ := hclk e he
      exact ⟨_, he, nofun⟩
    obtain ⟨hcore, hout, _⟩ := run_resets_clkSide hin' hall hrises hu
    exact ⟨u, hu, hcore, hout⟩

end Sys2Proof.Machine
end
